-- ==== Sys2Proof/Word.lean ====
section
/-! DEFINITION. The word types of the block (00_scope.md R7, R19, R20): bytes, 16-bit values, 32-bit counts,
64-bit event words. Bit 0 is the least significant bit (R19), which is how BitVec numbers its bits. -/

namespace Sys2Proof

/-- One byte of a datagram, a payload or a rerequest. -/
abbrev Byte := BitVec 8

/-- `u16` (R20). -/
abbrev U16 := BitVec 16

/-- `u32` (R20), the width of a retry count (10_state.md R37). -/
abbrev U32 := BitVec 32

/-- A sequence number: "a 16-bit unsigned counter that wraps at 65536" (R7, 40_comparator.md R100). -/
abbrev SeqNo := U16

/-- The 64-bit event word (30_encoding.md R80). -/
abbrev EventWord := BitVec 64

end Sys2Proof
end

