-- ==== Sys2Proof/Config.lean ====
section
/-! DEFINITION. The parameters of 00_scope.md R8 to R16: the configuration registers (10_state.md R39), the wire
constants (R16), and the one value the spec leaves OPEN. -/

namespace Sys2Proof

/-- Which comparator rule CMP uses (R8): 40_comparator.md R101 or R102. -/
inductive DeltaRule where
  | shortest
  | guard8192
deriving DecidableEq, Repr

/-- The configuration registers (10_state.md R39): one field for each parameter of R8 to R14. No event writes one. -/
structure Config where
  /-- `DELTA_RULE` (R8). -/
  deltaRule  : DeltaRule
  /-- `RRQ_LEVELS` (R10): the levels at which a missing run makes a rerequest. -/
  rrqLevels  : List Nat
  /-- `GIVEUP` (R11): the level at which a missing run is evicted. -/
  giveup     : Nat
  /-- `MAX_DGRAM` (R12): the largest payload or datagram the block accepts, in bytes. -/
  maxDgram   : Nat
  /-- `TXSEQ_INIT` (R13): the reset value of `txseq`. -/
  txseqInit  : U16
  /-- `QUEUE_DEPTH` (R14): the capacity of the inbound queue. -/
  queueDepth : Nat
deriving DecidableEq, Repr

/-- `QUEUE_DEPTH` is OPEN (R14, 92_eei_decisions.md D27, 91_not_in_source.md N3 "Do not assume any depth"): a free
value, with no body. The depth is one more than it, so that it is positive. Log 6. -/
opaque Config.freeQueueDepth : Nat

/-- The defaults of R8 to R13, with the open queue depth. DESIGN CHOICE, log 7: the configuration of `State.reset`. -/
def Config.default : Config where
  deltaRule  := .shortest
  rrqLevels  := [3, 11, 23]
  giveup     := 37
  maxDgram   := 1800
  txseqInit  := 0
  queueDepth := Config.freeQueueDepth + 1

/-- `SEQ_MOD` (R7). -/
abbrev seqMod : Nat := 65536

/-- `GUARD` (R9): read by the `GUARD_8192` rule only. -/
abbrev guardBand : Nat := 8192

/-- `RRQ_MARKER` (R16): byte 0 of a rerequest. -/
abbrev rrqMarker : Byte := 0x80

/-- `PT_SYNC` (R16): control-channel timing sync. -/
abbrev ptSync : BitVec 7 := 84

/-- `PT_RRQ` (R16): payload type of a rerequest. -/
abbrev ptRrq : BitVec 7 := 85

/-- `PT_RECOVERY` (R16): control-channel recovery packet. -/
abbrev ptRecovery : BitVec 7 := 86

/-- `PT_AUDIO` (R16): data-channel audio packet. -/
abbrev ptAudio : BitVec 7 := 96

/-- `RECOVERY_PREFIX` (R16): bytes stripped from a recovery packet. -/
abbrev recoveryPrefix : Nat := 4

/-- `RTP_HDR` (R16): the length of an RTP header. -/
abbrev rtpHeader : Nat := 12

/-- `DECLINE_STATUS` (R16): "the sender is declining". -/
abbrev declineStatus : U16 := 1

end Sys2Proof
end

