-- ==== Sys2Proof/Machine/Operands.lean ====
section
/-! DEFINITION. Operand forms: the byte-order primitives (00_scope.md R21), MemRead and MemWrite (R22), and the fields
of an inbound datagram (30_encoding.md R89 to R94, 20_memory.md R63 to R65). Every multi-byte field is big-endian. -/

namespace Sys2Proof.Machine

/-- `MemRead(addr, 1)`: byte `addr` of the side-band buffer. Defined by the spec for `addr < |B|` only; every rule
checks the length first (20_memory.md R62), so what it gives past the end is never used. Log 16. -/
def byteAt (B : List Byte) (addr : Nat) : Byte := B.getD addr 0

/-- `be16(B, i) = B[i] * 256 + B[i+1]`, which is also `MemRead(i, 2)` (R21, R22). Log 16 for `i + 1 ≥ |B|`. -/
def be16 (B : List Byte) (i : Nat) : U16 := byteAt B i ++ byteAt B (i + 1)

/-- `put16(v) = [v[15:8], v[7:0]]` (R21). -/
def put16 (v : U16) : List Byte := [v.extractLsb' 8 8, v.extractLsb' 0 8]

/-- `MemWrite(addr, 1, v)` into the rerequest buffer (R22). -/
def memWrite8 (buf : List Byte) (addr : Nat) (v : Byte) : List Byte := buf.set addr v

/-- `MemWrite(addr, 2, v)`, big-endian, into the rerequest buffer (R22). -/
def memWrite16 (buf : List Byte) (addr : Nat) (v : U16) : List Byte :=
  (buf.set addr (v.extractLsb' 8 8)).set (addr + 1) (v.extractLsb' 0 8)

/-- The payload type `pt = B[1][6:0]` (30_encoding.md R89, 20_memory.md R65): bit 7 of byte 1 takes no part. -/
def payloadType (B : List Byte) : BitVec 7 := (byteAt B 1).extractLsb' 0 7

/-- The status of a recovery packet: `be16(B, 4)` (R91, 42_codec.md R157). -/
def statusOf (B : List Byte) : U16 := be16 B 4

/-- The inner packet of a recovery packet: `B[4 … len-1]` (R91, R159). -/
def innerOf (B : List Byte) : List Byte := B.drop recoveryPrefix

/-- The embedded sequence number of a recovery packet: `be16(B, 6)` (R91, R159). -/
def recoveredSn (B : List Byte) : SeqNo := be16 B 6

/-- The sequence number of an audio datagram: `be16(B, 2)` (R92). -/
def audioSn (B : List Byte) : SeqNo := be16 B 2

/-- A pt-86 datagram declines when it holds a status and the status is 1 (42_codec.md R154, R157, R158). -/
def declines (B : List Byte) : Bool := decide (6 ≤ B.length) && (statusOf B == declineStatus)

end Sys2Proof.Machine
end

