-- ==== Sys2Proof/Syntax.lean ====
section
/-! DEFINITION. The events the block performs, as syntax: one constructor per row of spec/opcode_table.json, and the
queue slot in which an event reaches the block (30_encoding.md R80). An event's side-band bytes travel with its word,
so they are an argument of the instruction; LEN is their number (R88). Log 1. -/

namespace Sys2Proof

/-- One slot of the inbound queue: a 64-bit event word and the side-band buffer that travels with it (R80). -/
structure Slot where
  word : EventWord
  buf  : List Byte
deriving DecidableEq, Repr

/-- The channel of a wire row of the opcode table: where a byte window stands decides what it means (R89). -/
inductive Channel where
  /-- inbound control channel (RXC) -/
  | control
  /-- inbound data channel (RXD) -/
  | data
  /-- outbound control channel (rerequests) -/
  | controlOut
deriving DecidableEq, Repr

/-- The instructions. The first seven are the events (R81); the next seven the datagram classes of RXC and RXD
(R89); the last the outbound rerequest (R90, 42_codec.md R150). Logs 2 and 3. -/
inductive Instr where
  /-- PKT: submit a decoded packet (41_sequencer.md R118). -/
  | pkt (sn : SeqNo) (rx : Bool) (payload : List Byte)
  /-- TICK: periodic scan, escalation and give-up (R120). -/
  | tick
  /-- FLUSH: reset to uninitialized (R127). -/
  | flush
  /-- CLOSE: terminal close (R128). -/
  | close
  /-- DELTA: evaluate the comparator (40_comparator.md R105). -/
  | delta (a b : SeqNo)
  /-- RXC: a control-channel datagram to classify (42_codec.md R154). -/
  | rxc (datagram : List Byte)
  /-- RXD: a data-channel datagram to classify (R153). -/
  | rxd (datagram : List Byte)
  /-- RXC.TIMING: control datagram with payload type 84 (R155). -/
  | rxcTiming (datagram : List Byte)
  /-- RXC.ECHO: control datagram with payload type 85 (R156). -/
  | rxcEcho (datagram : List Byte)
  /-- RXC.DECLINE: control datagram with payload type 86 and status 1 (R158). -/
  | rxcDecline (datagram : List Byte)
  /-- RXC.RECOVERED: any other control datagram with payload type 86 (R159). -/
  | rxcRecovered (datagram : List Byte)
  /-- RXD.AUDIO: data datagram with payload type 96 (R153). -/
  | rxdAudio (datagram : List Byte)
  /-- RXC.UNKNOWN: control datagram of any other payload type (R160). -/
  | rxcUnknown (datagram : List Byte)
  /-- RXD.UNKNOWN: data datagram of any other payload type (R160). -/
  | rxdUnknown (datagram : List Byte)
  /-- RRQ: encode and emit a rerequest for `count` slots from `first` (R150). -/
  | rrq (first count : U16)
deriving DecidableEq, Repr

/-- The row of spec/opcode_table.json a constructor stands for, letter for letter. -/
def Instr.mnemonic : Instr → String
  | .pkt _ _ _      => "PKT"
  | .tick           => "TICK"
  | .flush          => "FLUSH"
  | .close          => "CLOSE"
  | .delta _ _      => "DELTA"
  | .rxc _          => "RXC"
  | .rxd _          => "RXD"
  | .rxcTiming _    => "RXC.TIMING"
  | .rxcEcho _      => "RXC.ECHO"
  | .rxcDecline _   => "RXC.DECLINE"
  | .rxcRecovered _ => "RXC.RECOVERED"
  | .rxdAudio _     => "RXD.AUDIO"
  | .rxcUnknown _   => "RXC.UNKNOWN"
  | .rxdUnknown _   => "RXD.UNKNOWN"
  | .rrq _ _        => "RRQ"

end Sys2Proof
end

