-- ==== Sys2Proof/WellFormed.lean ====
section
/-! DEFINITION. Which instructions exist: the side-band buffer fits the 11-bit LEN field (30_encoding.md R82, R85), a
datagram class holds exactly the datagrams its opcode-table row selects (R89), and a rerequest's count is a run length
(42_codec.md R150). -/

namespace Sys2Proof

/-- LEN is an unsigned 11-bit field, 0 to 2047 (R82, R85). -/
def fitsLen (B : List Byte) : Bool := decide (B.length ≤ 2047)

/-- A datagram that has a payload type at all: it fits LEN and holds byte 1 (R89, 42_codec.md R161). -/
def hasType (B : List Byte) : Bool := fitsLen B && decide (2 ≤ B.length)

open Machine in
/-- The well-formed instructions. -/
def WellFormed : Instr → Bool
  | .pkt _ _ B      => fitsLen B
  | .tick           => true
  | .flush          => true
  | .close          => true
  | .delta _ _      => true
  | .rxc B          => fitsLen B
  | .rxd B          => fitsLen B
  | .rxcTiming B    => hasType B && (payloadType B == ptSync)
  | .rxcEcho B      => hasType B && (payloadType B == ptRrq)
  | .rxcDecline B   => hasType B && (payloadType B == ptRecovery) && declines B
  | .rxcRecovered B => hasType B && (payloadType B == ptRecovery) && !declines B
  | .rxdAudio B     => hasType B && (payloadType B == ptAudio)
  | .rxcUnknown B   => hasType B && !(payloadType B == ptSync) && !(payloadType B == ptRrq)
                         && !(payloadType B == ptRecovery)
  | .rxdUnknown B   => hasType B && !(payloadType B == ptAudio)
  | .rrq _ c        => decide (1 ≤ c.toNat) && decide (c.toNat ≤ 32768)

end Sys2Proof
end

