-- ==== Sys2Proof/Decode.lean ====
section
/-! DEFINITION. The decoder, total on every slot and every byte window, and the encoder.

An event is decoded from its word and buffer: the kind "from `w[63:60]` alone" (30_encoding.md R80, R81), the formats
EV-P, EV-N, EV-D, EV-X of R82 to R85, reserved bits and tags refused (R86, R87). A datagram is decoded to its class from
its channel and bytes (R89; opcode_table.json's DGRAM rows with their priorities), a rerequest from its 8 bytes
(42_codec.md R152). Logs 1 to 4. -/

namespace Sys2Proof

open Machine

/-- Why a slot or a byte window is no instruction. -/
inductive DecodeError where
  /-- TAG `0x7` to `0xF` (R87). -/
  | reservedTag
  /-- a defined TAG with a reserved bit set (R86). -/
  | reservedBits
  /-- the slot's buffer does not hold exactly LEN bytes (R88), or a word that carries none came with one (R83, R84). -/
  | badBuffer
  /-- a byte window that matches no wire row: a datagram with no byte 1 (R89), or no rerequest (42_codec.md R152). -/
  | noRow
deriving DecidableEq, Repr

/-- TAG, `w[63:60]` (R81). -/
def tagOf (w : EventWord) : BitVec 4 := w.extractLsb' 60 4

/-- LEN, `w[42:32]` (R82, R85). -/
def lenOf (w : EventWord) : Nat := (w.extractLsb' 32 11).toNat

/-- SN, `w[15:0]` (R82). -/
def snOf (w : EventWord) : SeqNo := w.extractLsb' 0 16

/-- RX, `w[16]` (R82). -/
def rxOf (w : EventWord) : Bool := w.extractLsb' 16 1 == 1

/-- A, `w[31:16]` (R84). -/
def aOf (w : EventWord) : SeqNo := w.extractLsb' 16 16

/-- B, `w[15:0]` (R84). -/
def bOf (w : EventWord) : SeqNo := w.extractLsb' 0 16

/-- One event row of the opcode table: the word matches when `w & mask = fixed` (R82 to R85). -/
structure EventRow where
  mnemonic : String
  fixed    : EventWord
  mask     : EventWord
deriving DecidableEq, Repr

/-- The seven event rows of spec/opcode_table.json. -/
def eventRows : List EventRow :=
  [ ⟨"PKT",   0x0000000000000000, 0xFFFFF800FFFE0000⟩,
    ⟨"TICK",  0x1000000000000000, 0xFFFFFFFFFFFFFFFF⟩,
    ⟨"FLUSH", 0x2000000000000000, 0xFFFFFFFFFFFFFFFF⟩,
    ⟨"CLOSE", 0x3000000000000000, 0xFFFFFFFFFFFFFFFF⟩,
    ⟨"DELTA", 0x4000000000000000, 0xFFFFFFFF00000000⟩,
    ⟨"RXC",   0x5000000000000000, 0xFFFFF800FFFFFFFF⟩,
    ⟨"RXD",   0x6000000000000000, 0xFFFFF800FFFFFFFF⟩ ]

/-- Does a word match a row of the table? -/
def EventRow.covers (r : EventRow) (w : EventWord) : Bool := w &&& r.mask == r.fixed

/-- Decode a word of format EV-P or EV-X: reserved bits (under `reserved`) are 0 and the buffer has LEN bytes. -/
def decodeBuffered (reserved : EventWord) (e : Slot) (i : Instr) : Except DecodeError Instr :=
  if e.word &&& reserved != 0 then .error .reservedBits
  else if e.buf.length != lenOf e.word then .error .badBuffer
  else .ok i

/-- Decode a word of format EV-N or EV-D: reserved bits are 0 and there is no side-band buffer. -/
def decodeBare (reserved : EventWord) (e : Slot) (i : Instr) : Except DecodeError Instr :=
  if e.word &&& reserved != 0 then .error .reservedBits
  else if !e.buf.isEmpty then .error .badBuffer
  else .ok i

/-- The event decoder (R80 to R88). -/
def decode (e : Slot) : Except DecodeError Instr :=
  match (tagOf e.word).toNat with
  | 0 => decodeBuffered 0x0FFFF800FFFE0000 e (.pkt (snOf e.word) (rxOf e.word) e.buf)
  | 1 => decodeBare 0x0FFFFFFFFFFFFFFF e .tick
  | 2 => decodeBare 0x0FFFFFFFFFFFFFFF e .flush
  | 3 => decodeBare 0x0FFFFFFFFFFFFFFF e .close
  | 4 => decodeBare 0x0FFFFFFF00000000 e (.delta (aOf e.word) (bOf e.word))
  | 5 => decodeBuffered 0x0FFFF800FFFFFFFF e (.rxc e.buf)
  | 6 => decodeBuffered 0x0FFFF800FFFFFFFF e (.rxd e.buf)
  | _ => .error .reservedTag

/-- A control datagram that holds its byte 1, to its class (R89; the table's priorities: DECLINE before RECOVERED,
UNKNOWN last). -/
def classifyControl (B : List Byte) : Instr :=
  if payloadType B = ptSync then .rxcTiming B
  else if payloadType B = ptRrq then .rxcEcho B
  else if payloadType B = ptRecovery then
    if declines B then .rxcDecline B else .rxcRecovered B
  else .rxcUnknown B

/-- A data datagram that holds its byte 1, to its class (R89). -/
def classifyData (B : List Byte) : Instr :=
  if payloadType B = ptAudio then .rxdAudio B else .rxdUnknown B

/-- The fields of a rerequest. -/
structure RrqFields where
  txseq : U16
  first : U16
  count : U16
deriving DecidableEq, Repr

/-- DECODE_RRQ (42_codec.md R152): exactly 8 bytes, byte 0 the marker, payload type 85. -/
def decodeRrq (B : List Byte) : Option RrqFields :=
  if B.length = 8 ∧ byteAt B 0 = rrqMarker ∧ payloadType B = ptRrq then
    some ⟨be16 B 2, be16 B 4, be16 B 6⟩
  else none

/-- A byte window on a channel, to the wire row it matches (R89, R152). The tx-seq field of a rerequest is no operand
of RRQ: it is the register `txseq` at the moment of encoding (R151). Log 3. -/
def decodeWire (ch : Channel) (B : List Byte) : Except DecodeError Instr :=
  match ch with
  | .control    => if 2 ≤ B.length then .ok (classifyControl B) else .error .noRow
  | .data       => if 2 ≤ B.length then .ok (classifyData B) else .error .noRow
  | .controlOut =>
    match decodeRrq B with
    | some f => .ok (.rrq f.first f.count)
    | none   => .error .noRow

/-- One wire row of the opcode table: a byte window on a channel matches when its first `nbytes` bytes, read as one
big-endian number, give `fixed` under `mask` (R89 to R92). -/
structure WireRow where
  mnemonic : String
  channel  : Channel
  fixed    : Nat
  mask     : Nat
  nbytes   : Nat
deriving DecidableEq, Repr

/-- The eight wire rows of spec/opcode_table.json; within a channel, in the order of their priorities. -/
def wireRows : List WireRow :=
  [ ⟨"RXC.TIMING",    .control,    0x0054,             0x007F,             2⟩,
    ⟨"RXC.ECHO",      .control,    0x0055,             0x007F,             2⟩,
    ⟨"RXC.DECLINE",   .control,    0x005600000001,     0x007F0000FFFF,     6⟩,
    ⟨"RXC.RECOVERED", .control,    0x0056,             0x007F,             2⟩,
    ⟨"RXC.UNKNOWN",   .control,    0x0000,             0x0000,             2⟩,
    ⟨"RXD.AUDIO",     .data,       0x0060,             0x007F,             2⟩,
    ⟨"RXD.UNKNOWN",   .data,       0x0000,             0x0000,             2⟩,
    ⟨"RRQ",           .controlOut, 0x80D5000000000000, 0xFFFF000000000000, 8⟩ ]

/-- The first `n` bytes as one big-endian number. -/
def windowNat : Nat → List Byte → Nat
  | 0,     _      => 0
  | _ + 1, []     => 0
  | n + 1, b :: r => b.toNat * 2 ^ (8 * n) + windowNat n r

/-- Does a byte window match a wire row? -/
def WireRow.covers (r : WireRow) (B : List Byte) : Bool :=
  decide (r.nbytes ≤ B.length) && (windowNat r.nbytes B &&& r.mask == r.fixed)

/-! ### The encoder -/

/-- Format EV-P (R82): TAG, 17 reserved bits, LEN, 15 reserved bits, RX, SN. -/
def wordP (sn : SeqNo) (rx : Bool) (len : Nat) : EventWord :=
  (0#4 ++ 0#17 ++ BitVec.ofNat 11 len ++ 0#15 ++ BitVec.ofBool rx ++ sn : BitVec 64)

/-- Format EV-N (R83): TAG and 60 reserved bits. -/
def wordN (tag : BitVec 4) : EventWord := (tag ++ 0#60 : BitVec 64)

/-- Format EV-D (R84): TAG, 28 reserved bits, A, B. -/
def wordD (a b : SeqNo) : EventWord := (4#4 ++ 0#28 ++ a ++ b : BitVec 64)

/-- Format EV-X (R85): TAG, 17 reserved bits, LEN, 32 reserved bits. -/
def wordX (tag : BitVec 4) (len : Nat) : EventWord :=
  (tag ++ 0#17 ++ BitVec.ofNat 11 len ++ 0#32 : BitVec 64)

/-- The 8 bytes of a rerequest, by its layout (30_encoding.md R90). -/
def rrqBytes (txseq first count : U16) : List Byte :=
  [rrqMarker, 0x80 ||| ptRrq.setWidth 8] ++ put16 txseq ++ put16 first ++ put16 count

/-- What an instruction is written as: a queue slot (the events) or a byte window on a channel (the wire rows). -/
inductive Encoded where
  | event (slot : Slot)
  | wire (ch : Channel) (bytes : List Byte)
deriving DecidableEq, Repr

/-- The words of a well-formed instruction. `txseq` is the register's value, which the layout of RRQ takes in (R90). -/
def encode (txseq : U16) : Instr → Encoded
  | .pkt sn rx B    => .event ⟨wordP sn rx B.length, B⟩
  | .tick           => .event ⟨wordN 1, []⟩
  | .flush          => .event ⟨wordN 2, []⟩
  | .close          => .event ⟨wordN 3, []⟩
  | .delta a b      => .event ⟨wordD a b, []⟩
  | .rxc B          => .event ⟨wordX 5 B.length, B⟩
  | .rxd B          => .event ⟨wordX 6 B.length, B⟩
  | .rxcTiming B    => .wire .control B
  | .rxcEcho B      => .wire .control B
  | .rxcDecline B   => .wire .control B
  | .rxcRecovered B => .wire .control B
  | .rxdAudio B     => .wire .data B
  | .rxcUnknown B   => .wire .control B
  | .rxdUnknown B   => .wire .data B
  | .rrq f c        => .wire .controlOut (rrqBytes txseq f c)

/-- Both decoders, on what `encode` writes. -/
def decodeEncoded : Encoded → Except DecodeError Instr
  | .event e   => decode e
  | .wire ch B => decodeWire ch B

/-! ### The table's numbering of words (the host's question). Log 4. -/

/-- An event word as a slot, its side-band buffer all zeros. -/
def slotOfWord (w : EventWord) : Slot :=
  ⟨w, if (tagOf w).toNat = 0 ∨ (tagOf w).toNat = 5 ∨ (tagOf w).toNat = 6 then List.replicate (lenOf w) 0 else []⟩

/-- The `n` bytes of a byte-window pattern: byte 0 first on the wire, in the most significant place of the number
(30_encoding.md R90 "As a 64-bit big-endian value of bytes 0..7"; the DGRAM rows have `B[1]` in bits 7..0). -/
def windowBytes : Nat → Nat → List Byte
  | 0,     _ => []
  | n + 1, w => BitVec.ofNat 8 (w >>> (8 * n)) :: windowBytes n w

/-- The datagram of a byte-window row whose further bytes are zero, 16 bytes or more (the longest minimum of
42_codec.md R161). -/
def windowDatagram (nbits w : Nat) : List Byte :=
  let B := windowBytes (nbits / 8) w
  B ++ List.replicate (16 - B.length) 0

/-- The channel a byte-window row is read on. The rows' bits do not name it: payload type 96 is the data channel's,
every other one the control channel's. Log 4. -/
def windowChannel (B : List Byte) : Channel := if payloadType B = ptAudio then .data else .control

/-- The instruction the decoder reads from a row of the opcode table. -/
def decodeTableWord (nbits w : Nat) : Option Instr :=
  if nbits = 64 then
    match decodeWire .controlOut (windowBytes 8 w) with
    | .ok i => some i
    | .error _ => (decode (slotOfWord (BitVec.ofNat 64 w))).toOption
  else if nbits < 16 then none
  else (decodeWire (windowChannel (windowDatagram nbits w)) (windowDatagram nbits w)).toOption

end Sys2Proof
end

