-- ==== Sys2Proof/Machine/State.lean ====
section
/-! DEFINITION. The state of the block as plain data (10_state.md R30 to R50), the output records (30_encoding.md R95),
the reasons a step stops, and the state after reset (70_reset_and_hazards.md R200). -/

namespace Sys2Proof.Machine

/-- A packet `{sn, rx, payload}` (10_state.md R36). -/
structure Packet where
  sn      : SeqNo
  /-- `is_retransmitted`: true if it arrived through recovery. -/
  rx      : Bool
  payload : List Byte
deriving DecidableEq, Repr

/-- Release reason codes (60_exceptions.md R181). -/
inductive Reason where
  | retxBeforeInit
  | stale
  | duplicate
  | flushed
  | closed
  | echo
  | declined
  | unknownPt
  | short
  | oversize
deriving DecidableEq, Repr

/-- What a RELEASE record carries: a packet, or the raw datagram or payload (R181). -/
inductive Item where
  | packet (p : Packet)
  | raw (B : List Byte)
deriving DecidableEq, Repr

/-- Output records (30_encoding.md R95). -/
inductive Record where
  /-- `IN(sn, rx)` -/
  | input (sn : SeqNo) (rx : Bool)
  /-- `DELIVER(p)` -/
  | deliver (p : Packet)
  /-- `RRQ(m)`, `m` the 8 bytes of R90 -/
  | rrq (m : List Byte)
  /-- `EVICT(first, count)` -/
  | evict (first count : U16)
  /-- `RELEASE(reason, x)` -/
  | release (reason : Reason) (item : Item)
  /-- `PASS(B)` -/
  | pass (B : List Byte)
  /-- `DELTA_RESULT(d)` -/
  | deltaResult (d : Int)
deriving DecidableEq, Repr

/-- `mode ∈ {RUN, CLOSED}` (10_state.md R32). -/
inductive Mode where
  | run
  | closed
deriving DecidableEq, Repr

/-- An associative store keyed by the whole 16-bit key (10_state.md R35, R37, 20_memory.md R61), as data: pairs in
strictly rising key order, one per present key (`Store.wf`). -/
abbrev Store (α : Type) := List (SeqNo × α)

/-- The state (10_state.md R31): the tuple `(mode, initialized, low, held, retry, txseq)`, the configuration (R39), the
inbound queue (R48), the output trace (R49), and two fields of the model's own for the consumer's side of the trace
(70_reset_and_hazards.md R204; log 9). -/
structure State where
  cfg           : Config
  mode          : Mode
  initialized   : Bool
  low           : SeqNo
  held          : Store Packet
  retry         : Store U32
  txseq         : U16
  /-- oldest event first -/
  queue         : List Slot
  /-- oldest record first -/
  trace         : List Record
  /-- how many records of `trace` the host agents have taken -/
  taken         : Nat
  /-- does the consumer take the records of a step at once? -/
  consumerReady : Bool
deriving DecidableEq, Repr

/-- Where the block has no step to take. `step` raises each; no instruction's meaning does. -/
inductive Fault where
  /-- `mode = CLOSED`: "BLOCK takes no further event" (41_sequencer.md R129, 93_implementation_defined.md M14 `stuck`).
  Raised by `step`; safe: the block really takes no step. Log 8. -/
  | closed
  /-- the inbound queue is empty in RUN: the block "waits for an event" (70_reset_and_hazards.md R210). Raised by `step`; safe:
  the run stops where the block waits. Log 8. -/
  | idle
  /-- the queue holds an event, but a DELIVER record has not been accepted: "BLOCK takes no new event" (R204, M15 `stuck` until the consumer takes
  it). Raised by `step`; safe. Log 8, 9. -/
  | stalled
deriving DecidableEq, Repr

/-- Where the model has no meaning to give. -/
inductive Refusal where
  /-- an instruction exec has no meaning for yet. Raised by exec's arms only; safe. -/
  | notModelled (mnemonic : String)
  /-- an illegal event word (30_encoding.md R86, R87, 60_exceptions.md R182), or a slot whose buffer is not LEN bytes
  (R88). Raised by `step`; safe: "Refusal errs toward unprovable". -/
  | illegalEvent (e : DecodeError)
  /-- a configuration that breaks 00_scope.md R18 "is refused as a whole" (10_state.md R39). Raised by `step`; safe. -/
  | badConfig
  /-- a state that breaks 10_state.md R40 to R44: the model "must refuse such a start state, not step it" (R45). Raised
  by `step`; safe. -/
  | badState
deriving DecidableEq, Repr

/-- The block at creation, configured as `cfg` (70_reset_and_hazards.md R200). -/
def State.resetWith (cfg : Config) : State where
  cfg           := cfg
  mode          := .run
  initialized   := false
  low           := 0
  held          := []
  retry         := []
  txseq         := cfg.txseqInit
  queue         := []
  trace         := []
  taken         := 0
  consumerReady := true

/-- The machine right after reset, with the default parameters (R200; logs 6, 7, 9). -/
def State.reset : State := State.resetWith Config.default

end Sys2Proof.Machine
end

