-- ==== Sys2Proof/Machine/Circular.lean ====
section
/-! DEFINITION. Sequence-number arithmetic: `add16` (00_scope.md R20, 40_comparator.md R100) and the signed circular
distance `delta` under either rule (R101, R102). -/

namespace Sys2Proof.Machine

/-- `add16(a, k) = (a + k) mod 65536` (R20). Every `k` a rule passes is a natural number. -/
def add16 (a : U16) (k : Nat) : U16 := a + BitVec.ofNat 16 k

/-- `delta` under `SHORTEST` (R101): the representative of `a - b` modulo 65536 of least absolute value, and the plain
difference at half range. -/
def deltaShortest (a b : SeqNo) : Int :=
  let d : Int := (a.toNat : Int) - (b.toNat : Int)
  if d > 32768 then d - 65536
  else if d < -32768 then d + 65536
  else d

/-- One operand of the `GUARD_8192` rule, lifted by 65536 when it is "within 8192 of zero" and the other "within 8192 of
65535" (R102). -/
def guardLift (a b : SeqNo) : Int :=
  if a.toNat < guardBand ∧ seqMod - guardBand ≤ b.toNat then (a.toNat : Int) + 65536 else (a.toNat : Int)

/-- `delta` under `GUARD_8192` (R102). -/
def deltaGuard (a b : SeqNo) : Int := guardLift a b - guardLift b a

/-- `delta(a, b)` under the configured rule (R8). -/
def delta (r : DeltaRule) (a b : SeqNo) : Int :=
  match r with
  | .shortest  => deltaShortest a b
  | .guard8192 => deltaGuard a b

end Sys2Proof.Machine
end

