-- ==== Sys2Proof/Machine/Store.lean ====
section
/-! DEFINITION. The store primitives of 00_scope.md R23 over the two associative stores, keyed by the whole 16-bit key
(20_memory.md R61), and the canonical form in which a store is held. -/

namespace Sys2Proof.Machine

variable {α : Type}

/-- `S[k]`, where `k` is present. -/
def Store.get? : Store α → SeqNo → Option α
  | [],          _ => none
  | (k, v) :: r, x => if k = x then some v else Store.get? r x

/-- `S.has(k)`. -/
def Store.has (S : Store α) (k : SeqNo) : Bool := (S.get? k).isSome

/-- `S[k] <- v`: insert or overwrite, keeping the keys in rising order. -/
def Store.set : Store α → SeqNo → α → Store α
  | [],            x, v => [(x, v)]
  | (k, u) :: r, x, v =>
    if k = x then (k, v) :: r
    else if x.toNat < k.toNat then (x, v) :: (k, u) :: r
    else (k, u) :: Store.set r x v

/-- `S.del(k)`; it does nothing when `k` is absent. -/
def Store.del : Store α → SeqNo → Store α
  | [],          _ => []
  | (k, v) :: r, x => if k = x then Store.del r x else (k, v) :: Store.del r x

/-- `S.get0(k)` of the retry store: the count, 0 where the key is absent. -/
def Store.get0 (S : Store U32) (k : SeqNo) : U32 := (S.get? k).getD 0

/-- `keys(S)`. -/
def Store.keys (S : Store α) : List SeqNo := S.map Prod.fst

/-- The canonical form of a store: keys strictly rising, so that equal stores are equal lists. -/
def Store.wf : Store α → Bool
  | []                       => true
  | [_]                      => true
  | (k, _) :: (k', v') :: r  => decide (k.toNat < k'.toNat) && Store.wf ((k', v') :: r)

end Sys2Proof.Machine
end

