-- ==== Sys2Proof/Machine/Flags.lean ====
section
/-! DEFINITION. The flags of the block: `mode`, `initialized` and the per-packet `rx` bit are the only ones (10_state.md
R47), and no event computes a condition code. Here stand the conditions the rules read off the state: the lifecycle mode
(60_exceptions.md R186), where a sequence number lies against `low` (00_scope.md R26), the delivery stall (70_reset_and_
hazards.md R204), and the checks that a configuration and a start state must pass (00_scope.md R18, 10_state.md R45). -/

namespace Sys2Proof.Machine

/-- The lifecycle modes (R186). -/
inductive Lifecycle where
  | uninit
  | stream
  | closed
deriving DecidableEq, Repr

/-- The lifecycle mode, "a value of 10_state.md rules R32 and R33" (R186). -/
def State.lifecycle (s : State) : Lifecycle :=
  match s.mode, s.initialized with
  | .closed, _     => .closed
  | .run,    false => .uninit
  | .run,    true  => .stream

/-- `delta(k, low)` (R26): positive when `k` is ahead of `low`, negative when it is behind. -/
def State.dist (s : State) (k : SeqNo) : Int := delta s.cfg.deltaRule k s.low

/-- Is the record a DELIVER? -/
def Record.isDeliver : Record → Bool
  | .deliver _ => true
  | _          => false

/-- The consumer has not accepted a DELIVER record (R204, 10_state.md R49). -/
def State.stalled (s : State) : Bool := (s.trace.drop s.taken).any Record.isDeliver

/-- A configuration the block has a meaning for (R18; R11's bound; R14 "a positive integer"). -/
def configOk (c : Config) : Bool :=
  c.rrqLevels.all (fun l => l != 0) && decide (1 ≤ c.giveup) && decide (c.giveup ≤ 4294967295)
    && decide (1 ≤ c.maxDgram) && decide (c.maxDgram ≤ 2047) && c.queueDepth != 0

/-- The retry key `k` lies where 10_state.md R42 has it: not held, not behind `low`, behind some held key. -/
def State.retryKeyOk (s : State) (k : SeqNo) : Bool :=
  !s.held.has k && decide (0 ≤ s.dist k) && s.held.keys.any (fun h => decide (s.dist k < s.dist h))

/-- The state satisfies 10_state.md R40 to R44 (and its stores are stores), which a start state must (R45). -/
def State.startOk (s : State) : Bool :=
  s.held.wf && s.retry.wf
    && s.held.keys.all (fun k => decide (0 < s.dist k))                              -- R40
    && !s.held.has s.low                                                             -- R41
    && s.retry.keys.all s.retryKeyOk                                                 -- R42
    && s.retry.all (fun e => decide (1 ≤ e.2.toNat) && decide (e.2.toNat < s.cfg.giveup))  -- R43
    && (s.initialized || (s.held.isEmpty && s.retry.isEmpty))                        -- R44

end Sys2Proof.Machine
end

