-- ==== Sys2Proof/Machine/Ops.lean ====
section
/-! DEFINITION. The named operations the events share: `emit` and `release` (00_scope.md R24, R25), DRAIN and HANDLE
(41_sequencer.md R110 to R117), the body of FLUSH and CLOSE (R127, R128), ENCODE_RRQ (42_codec.md R150, R151), and the
datagram length checks (R161). The block has no exception entry and no return from one (60_exceptions.md R185):
`release` "stands where an ISA spec would write raise" (R25). -/

namespace Sys2Proof.Machine

/-- `emit R`: append a record to the output trace (R24, 10_state.md R49). -/
def State.emit (r : Record) (s : State) : State := { s with trace := s.trace ++ [r] }

/-- `release(reason, P)` (R25): the block's one abnormal outcome, a RELEASE record. -/
def State.release (reason : Reason) (x : Item) (s : State) : State := s.emit (.release reason x)

/-- Deliver `p` and move `low` to its successor (R113, R114). -/
def State.deliver (p : Packet) (s : State) : State :=
  { s.emit (.deliver p) with low := add16 s.low 1 }

/-- The loop of DRAIN (R114), at most `n` times around. -/
def State.drainLoop : Nat → State → State
  | 0,     s => s
  | n + 1, s =>
    match s.held.get? s.low with
    | none   => s
    | some q => State.drainLoop n (State.deliver q { s with held := s.held.del s.low })

/-- DRAIN (R114): deliver the contiguous held successors of `low`. Each turn removes an entry of `held`, so as many
turns as `held` has entries are enough. -/
def State.drain (s : State) : State := s.drainLoop s.held.length

/-- HANDLE steps 2 to 5 (R112 to R117). -/
def State.place (p : Packet) (s : State) : State :=
  let s := { s with retry := s.retry.del p.sn }
  if p.sn = s.low then (s.deliver p).drain
  else if s.dist p.sn < 0 then s.release .stale (.packet p)
  else if s.held.has p.sn then s.release .duplicate (.packet p)
  else { s with held := s.held.set p.sn p }

/-- HANDLE (R110): the IN record, step 1 (R111), then steps 2 to 5. -/
def State.handle (p : Packet) (s : State) : State :=
  let s := s.emit (.input p.sn p.rx)
  if s.initialized then s.place p
  else if p.rx then s.release .retxBeforeInit (.packet p)
  else State.place p { s with low := p.sn, initialized := true }

/-- Insert a held entry into a list in ascending `d` of the key. -/
def insertAsc (d : SeqNo → Int) (e : SeqNo × Packet) : List (SeqNo × Packet) → List (SeqNo × Packet)
  | []     => [e]
  | f :: r => if d e.1 ≤ d f.1 then e :: f :: r else f :: insertAsc d e r

/-- The held entries in ascending `delta(k, low)` (R26). -/
def sortAsc (d : SeqNo → Int) : List (SeqNo × Packet) → List (SeqNo × Packet)
  | []     => []
  | e :: r => insertAsc d e (sortAsc d r)

/-- One RELEASE record for each held packet, in ascending `delta(k, low)` (R127, R128). -/
def State.heldReleases (reason : Reason) (s : State) : List Record :=
  (sortAsc s.dist s.held).map (fun e => .release reason (.packet e.2))

/-- Release every held packet and empty both stores (R127, R128). -/
def State.releaseHeld (reason : Reason) (s : State) : State :=
  { s with trace := s.trace ++ s.heldReleases reason, held := [], retry := [] }

/-- FLUSH (R127), for the event and for a declined recovery (42_codec.md R158). -/
def State.flushAll (s : State) : State :=
  { s.releaseHeld .flushed with initialized := false, low := 0 }

/-- CLOSE (R128). -/
def State.closeAll (s : State) : State :=
  { s.releaseHeld .closed with mode := .closed }

/-- The 8 bytes ENCODE_RRQ writes (42_codec.md R150): marker, type, tx-seq, first, count. -/
def encodeRrq (txseq first count : U16) : List Byte :=
  let buf := List.replicate 8 (0 : Byte)
  let buf := memWrite8 buf 0 rrqMarker
  let buf := memWrite8 buf 1 (0x80 ||| ptRrq.setWidth 8)
  let buf := memWrite16 buf 2 txseq
  let buf := memWrite16 buf 4 first
  memWrite16 buf 6 count

/-- `emit RRQ(ENCODE_RRQ(first, count))` (41_sequencer.md R125): the record carries `txseq` as it stood, and `txseq`
then advances by 1 modulo 65536 (42_codec.md R151). -/
def State.rerequest (first count : U16) (s : State) : State :=
  { s.emit (.rrq (encodeRrq s.txseq first count)) with txseq := add16 s.txseq 1 }

/-- The first length check of RXC and RXD (R161): a datagram over MAX_DGRAM is released OVERSIZE. -/
def State.withinDgram (B : List Byte) (body : State → State) (s : State) : State :=
  if s.cfg.maxDgram < B.length then s.release .oversize (.raw B) else body s

/-- Release a datagram SHORT when it holds fewer than `n` bytes (R161). -/
def State.atLeast (n : Nat) (B : List Byte) (body : State → State) (s : State) : State :=
  if B.length < n then s.release .short (.raw B) else body s

end Sys2Proof.Machine
end

