-- ==== Sys2Proof/Machine/Codec.lean ====
section
/-! DEFINITION. The meanings of the codec's instructions (42_codec.md): RXC and RXD, the datagram classes they lead to,
and RRQ. A class meaning is what RXC or RXD does with a datagram of that class; both go through the same operation, so a
class row and its event agree. Log 2. -/

namespace Sys2Proof.Machine

/-- pt 84: pass the datagram on whole (R155). -/
def State.passOn (B : List Byte) (s : State) : State := s.emit (.pass B)

/-- pt 86, status 1: release DECLINED, then FLUSH in the same step (R158). -/
def State.decline (B : List Byte) (s : State) : State := (s.release .declined (.raw B)).flushAll

/-- pt 86, otherwise: SHORT before the status (R161.3) and before the inner header (R161.4), else HANDLE of the inner
packet with `rx = 1` (R159). -/
def State.recover (B : List Byte) (s : State) : State :=
  s.atLeast 6 B (State.atLeast 16 B (State.handle ⟨recoveredSn B, true, innerOf B⟩))

/-- pt 96 on the data channel: SHORT before the RTP header (R161.5), else HANDLE of the datagram with `rx = 0` (R153). -/
def State.audio (B : List Byte) (s : State) : State :=
  s.atLeast 12 B (State.handle ⟨audioSn B, false, B⟩)

/-- A control datagram of at least 2 bytes, by its payload type (R154). -/
def State.control (B : List Byte) (s : State) : State :=
  if payloadType B = ptSync then s.passOn B
  else if payloadType B = ptRrq then s.release .echo (.raw B)
  else if payloadType B = ptRecovery then
    if declines B then s.decline B else s.recover B
  else s.release .unknownPt (.raw B)

/-- A data datagram of at least 2 bytes, by its payload type (R153). -/
def State.data (B : List Byte) (s : State) : State :=
  if payloadType B = ptAudio then s.audio B else s.release .unknownPt (.raw B)

/-- RXC (R154): OVERSIZE, SHORT, then the payload type. -/
def execRxc (B : List Byte) (s : State) : Host.Outcome State Fault Refusal :=
  .next (s.withinDgram B (State.atLeast 2 B (State.control B)))

/-- RXD (R153): OVERSIZE, SHORT, then the payload type. -/
def execRxd (B : List Byte) (s : State) : Host.Outcome State Fault Refusal :=
  .next (s.withinDgram B (State.atLeast 2 B (State.data B)))

/-- RXC.TIMING (R155). -/
def execRxcTiming (B : List Byte) (s : State) : Host.Outcome State Fault Refusal :=
  .next (s.withinDgram B (State.passOn B))

/-- RXC.ECHO (R156). -/
def execRxcEcho (B : List Byte) (s : State) : Host.Outcome State Fault Refusal :=
  .next (s.withinDgram B (State.release .echo (.raw B)))

/-- RXC.DECLINE (R158). -/
def execRxcDecline (B : List Byte) (s : State) : Host.Outcome State Fault Refusal :=
  .next (s.withinDgram B (State.decline B))

/-- RXC.RECOVERED (R159, R161). -/
def execRxcRecovered (B : List Byte) (s : State) : Host.Outcome State Fault Refusal :=
  .next (s.withinDgram B (State.recover B))

/-- RXD.AUDIO (R153, R161). -/
def execRxdAudio (B : List Byte) (s : State) : Host.Outcome State Fault Refusal :=
  .next (s.withinDgram B (State.audio B))

/-- RXC.UNKNOWN (R160). -/
def execRxcUnknown (B : List Byte) (s : State) : Host.Outcome State Fault Refusal :=
  .next (s.withinDgram B (State.release .unknownPt (.raw B)))

/-- RXD.UNKNOWN (R160). -/
def execRxdUnknown (B : List Byte) (s : State) : Host.Outcome State Fault Refusal :=
  .next (s.withinDgram B (State.release .unknownPt (.raw B)))

/-- RRQ (R150, R151, 41_sequencer.md R125). Log 3. -/
def execRrq (first count : U16) (s : State) : Host.Outcome State Fault Refusal :=
  .next (s.rerequest first count)

end Sys2Proof.Machine
end

