-- ==== Sys2Proof/Machine/Comparator.lean ====
section
/-! DEFINITION. The meaning of DELTA (40_comparator.md R105). -/

namespace Sys2Proof.Machine

/-- DELTA: emit the circular distance from `b` to `a` under the configured rule; no other state is written (R105). -/
def execDelta (a b : SeqNo) (s : State) : Host.Outcome State Fault Refusal :=
  .next (s.emit (.deltaResult (delta s.cfg.deltaRule a b)))

end Sys2Proof.Machine
end

