-- ==== Sys2Proof/Machine/Sequencer.lean ====
section
/-! DEFINITION. The meanings of the reorder buffer's events: PKT, TICK, FLUSH, CLOSE (41_sequencer.md). -/

namespace Sys2Proof.Machine

/-- PKT (R118): OVERSIZE, or HANDLE of `{sn, rx, payload}`. -/
def execPkt (sn : SeqNo) (rx : Bool) (payload : List Byte) (s : State) : Host.Outcome State Fault Refusal :=
  .next (s.withinDgram payload (State.handle ⟨sn, rx, payload⟩))

/-! ### TICK -/

/-- The greatest `delta(k, low)` over the keys, if there is one (R121). -/
def farthest (d : SeqNo → Int) : List SeqNo → Option Int
  | []     => none
  | k :: r =>
    match farthest d r with
    | none   => some (d k)
    | some m => some (if m < d k then d k else m)

/-- The slots `add16(low, j)` for `0 ≤ j < span` (R121, R122). -/
def slotsFrom (low : SeqNo) (span : Nat) : List SeqNo := (List.range span).map (add16 low)

/-- A missing run: its start and its length (R122). -/
structure Run where
  start : SeqNo
  count : Nat
deriving DecidableEq, Repr

/-- The maximal runs of missing slots of a slot list, in order; `cur` is the run being built (R122). -/
def runsIn (held : Store Packet) : Option Run → List SeqNo → List Run
  | cur, []     => cur.toList
  | cur, k :: r =>
    if held.has k then cur.toList ++ runsIn held none r
    else
      match cur with
      | none   => runsIn held (some ⟨k, 1⟩) r
      | some c => runsIn held (some ⟨c.start, c.count + 1⟩) r

/-- MISSING_RUNS(low, span) (R122). -/
def missingRuns (held : Store Packet) (low : SeqNo) (span : Nat) : List Run :=
  runsIn held none (slotsFrom low span)

/-- The slots of a run. -/
def Run.slots (r : Run) : List SeqNo := slotsFrom r.start r.count

/-- `retry[i] <- retry.get0(i) + 1` (R123). The count does not overflow in a state that passes R45's check (R11). -/
def bump (retry : Store U32) (k : SeqNo) : Store U32 := retry.set k (retry.get0 k + 1)

/-- Add 1 to the count of every slot of a list (R123). -/
def bumpAll : Store U32 → List SeqNo → Store U32
  | retry, []     => retry
  | retry, k :: r => bumpAll (bump retry k) r

/-- Delete the counts of every slot of a list (R124). -/
def delAll : Store U32 → List SeqNo → Store U32
  | retry, []     => retry
  | retry, k :: r => delAll (retry.del k) r

/-- The least count over a list of slots (R123). A run has a slot, so the value for the empty list is never read. -/
def levelOf (retry : Store U32) : List SeqNo → Nat
  | []          => 0
  | [k]         => (retry.get0 k).toNat
  | k :: l :: r => min (retry.get0 k).toNat (levelOf retry (l :: r))

/-- Give-up (R124): EVICT, the run's counts deleted, and for a run at `low`, `low` moved past it and DRAIN. -/
def State.giveUp (r : Run) (s : State) : State :=
  let s := s.emit (.evict r.start (BitVec.ofNat 16 r.count))
  let s := { s with retry := delAll s.retry r.slots }
  if r.start = s.low then State.drain { s with low := add16 r.start r.count } else s

/-- One missing run (R123 to R126): count, then give up, or rerequest, or nothing. -/
def State.scanRun (r : Run) (s : State) : State :=
  let s := { s with retry := bumpAll s.retry r.slots }
  let level := levelOf s.retry r.slots
  if s.cfg.giveup ≤ level then s.giveUp r
  else if level ∈ s.cfg.rrqLevels then s.rerequest r.start (BitVec.ofNat 16 r.count)
  else s

/-- The runs in ascending order, each finished before the next (R126). -/
def State.scanRuns : List Run → State → State
  | [],     s => s
  | r :: l, s => State.scanRuns l (s.scanRun r)

/-- The runs of a TICK, computed once from the state at its start (R122); none while `held` is empty (R121). -/
def State.tickRuns (s : State) : List Run :=
  match farthest s.dist s.held.keys with
  | none   => []
  | some m => missingRuns s.held s.low (m + 1).toNat

/-- TICK (R120). -/
def execTick (s : State) : Host.Outcome State Fault Refusal := .next (s.scanRuns s.tickRuns)

/-- FLUSH (R127). -/
def execFlush (s : State) : Host.Outcome State Fault Refusal := .next s.flushAll

/-- CLOSE (R128). -/
def execClose (s : State) : Host.Outcome State Fault Refusal := .next s.closeAll

end Sys2Proof.Machine
end

