-- ==== Sys2Proof/Machine/Dispatch.lean ====
section
/-! DEFINITION. exec: one arm per constructor of Instr, each a direct call of that instruction's meaning. -/

namespace Sys2Proof.Machine

def exec (i : Instr) (s : State) : Host.Outcome State Fault Refusal :=
  match i with
  | .pkt sn rx payload => Sys2Proof.Machine.execPkt sn rx payload s
  | .tick => Sys2Proof.Machine.execTick s
  | .flush => Sys2Proof.Machine.execFlush s
  | .close => Sys2Proof.Machine.execClose s
  | .delta a b => Sys2Proof.Machine.execDelta a b s
  | .rxc datagram => Sys2Proof.Machine.execRxc datagram s
  | .rxd datagram => Sys2Proof.Machine.execRxd datagram s
  | .rxcTiming datagram => Sys2Proof.Machine.execRxcTiming datagram s
  | .rxcEcho datagram => Sys2Proof.Machine.execRxcEcho datagram s
  | .rxcDecline datagram => Sys2Proof.Machine.execRxcDecline datagram s
  | .rxcRecovered datagram => Sys2Proof.Machine.execRxcRecovered datagram s
  | .rxdAudio datagram => Sys2Proof.Machine.execRxdAudio datagram s
  | .rxcUnknown datagram => Sys2Proof.Machine.execRxcUnknown datagram s
  | .rxdUnknown datagram => Sys2Proof.Machine.execRxdUnknown datagram s
  | .rrq first count => Sys2Proof.Machine.execRrq first count s

end Sys2Proof.Machine
end

