-- ==== Sys2Proof/Machine/HostInterface.lean ====
section
/-! DEFINITION. What the host agents do to the block (60_exceptions.md R188): append to the inbound queue (10_state.md
R48), take records from the output trace in order (R49), hold or release the consumer (70_reset_and_hazards.md R204);
and what a record means to them: the agent it goes to (R49), the observer call it is (60_exceptions.md R190), the number
of a reason code (R181). No event does any of this: these are inputs, not steps. -/

namespace Sys2Proof.Machine

/-- A producer appends an event to the tail. "An append to a full queue has no step" (R48): none then. -/
def State.hostAppend (e : Slot) (s : State) : Option State :=
  if s.queue.length < s.cfg.queueDepth then some { s with queue := s.queue ++ [e] } else none

/-- The host agents take the next record in trace order (R49, 20_memory.md R68): none when every record is taken. -/
def State.hostTake (s : State) : Option (Record × State) :=
  match s.trace[s.taken]? with
  | some r => some (r, { s with taken := s.taken + 1 })
  | none   => none

/-- The consumer becomes ready to take a step's records at once, or stops being so (R204). -/
def State.setConsumerReady (b : Bool) (s : State) : State := { s with consumerReady := b }

/-- The end of a step: a ready consumer, and the other agents with it, have taken every record (R204 "handed to the
consumer synchronously"). Log 9. -/
def State.handOver (s : State) : State := if s.consumerReady then { s with taken := s.trace.length } else s

/-- The agents of a run (10_state.md R30), with the host for the records it takes itself (R49). -/
inductive Agent where
  | block
  | producer
  | consumer
  | transmitter
  | arena
  | host
deriving DecidableEq, Repr

/-- Which agent takes a record (R49). -/
def Record.agent : Record → Agent
  | .deliver _     => .consumer
  | .rrq _         => .transmitter
  | .release _ _   => .arena
  | .pass _        => .host
  | .input _ _     => .host
  | .evict _ _     => .host
  | .deltaResult _ => .host

/-- The observer calls (R190). -/
inductive Observer where
  | onInput
  | onOutput
  | onRerequest
  | onEvict
deriving DecidableEq, Repr

/-- The observer call a record is, if it is one (R190, 30_encoding.md R95). -/
def Record.observer : Record → Option Observer
  | .input _ _     => some .onInput
  | .deliver _     => some .onOutput
  | .rrq _         => some .onRerequest
  | .evict _ _     => some .onEvict
  | .release _ _   => none
  | .pass _        => none
  | .deltaResult _ => none

/-- The number of a reason code (R181). -/
def Reason.code : Reason → Nat
  | .retxBeforeInit => 1
  | .stale          => 2
  | .duplicate      => 3
  | .flushed        => 4
  | .closed         => 5
  | .echo           => 6
  | .declined       => 7
  | .unknownPt      => 8
  | .short          => 9
  | .oversize       => 10

end Sys2Proof.Machine
end

