-- ==== Sys2Proof/Machine/Fetch.lean ====
section
/-! DEFINITION. Taking an event from the queue head (10_state.md R48), the check that lets a step begin, and how a row
of the opcode table is placed so that the next step performs it (logs 4 and 5). The block fetches nothing (20_memory.md
R75): an event waits at the queue head. -/

namespace Sys2Proof.Machine

/-- The state in which an event is performed: the event has been taken, its slot is gone from the queue. -/
def State.takeEvent (rest : List Slot) (s : State) : State := { s with queue := rest }

/-- What follows the meaning of an event: a ready consumer takes the records (R204). Stops are passed on. -/
def settle : Host.Outcome State Fault Refusal → Host.Outcome State Fault Refusal
  | .next s    => .next s.handOver
  | .fault f   => .fault f
  | .refused r => .refused r

/-- Where the model has no step for the state, before any event is looked at: the configuration (00_scope.md R18) and
the start state (10_state.md R45) are refused; a CLOSED block takes no event (41_sequencer.md R129); a block in RUN with an
empty queue is idle, whatever the consumer has taken (70_reset_and_hazards.md R210); a stalled one takes no event from
its queue (R204). -/
def State.stop (s : State) : Option (Host.Outcome State Fault Refusal) :=
  if !configOk s.cfg then some (.refused .badConfig)
  else if !s.startOk then some (.refused .badState)
  else if s.mode = .closed then some (.fault .closed)
  else if s.queue.isEmpty then some (.fault .idle)
  else if s.stalled then some (.fault .stalled)
  else none

/-! ### Placing a row of the opcode table -/

/-- Put an event at the queue head. -/
def State.placeEvent (e : Slot) (s : State) : State := { s with queue := e :: s.queue }

/-- The slot in which a datagram reaches the block on a channel. -/
def slotOfDatagram (ch : Channel) (B : List Byte) : Slot :=
  match ch with
  | .data       => ⟨wordX 6 B.length, B⟩
  | .control    => ⟨wordX 5 B.length, B⟩
  | .controlOut => ⟨wordX 5 B.length, B⟩

/-- The slot of a TICK. -/
def slotTick : Slot := ⟨wordN 1, []⟩

/-- The retry store in which every slot of a list has count `n`; an absent key is the count 0. -/
def countsAt (n : Nat) (ks : List SeqNo) : Store U32 :=
  if n = 0 then [] else ks.foldl (fun S k => S.set k (BitVec.ofNat 32 n)) []

/-- RRQ is performed by TICK only (42_codec.md R150): a state in which the next event is a TICK that makes exactly the
rerequest `f`, its missing run being one short of the rerequest level `l`. -/
def State.armRerequest (f : RrqFields) (l : Nat) (s : State) : State :=
  let hi := add16 f.first f.count.toNat
  { s.placeEvent slotTick with
    initialized := true
    low   := f.first
    held  := [(hi, ⟨hi, false, []⟩)]
    retry := countsAt (l - 1) (slotsFrom f.first f.count.toNat)
    txseq := f.txseq }

/-- The first level at which a run is rerequested and not given up (R125). -/
def rerequestLevel (c : Config) : Option Nat :=
  c.rrqLevels.find? (fun l => decide (1 ≤ l) && decide (l < c.giveup))

/-- Place the rerequest `f`: arm a TICK where some TICK makes it, else loop its bytes back as a control datagram, the
only other way in which they reach the block (R162). -/
def State.placeRerequest (f : RrqFields) (s : State) : State :=
  match rerequestLevel s.cfg with
  | some l =>
    if 0 < delta s.cfg.deltaRule (add16 f.first f.count.toNat) f.first then s.armRerequest f l
    else s.placeEvent (slotOfDatagram .control (rrqBytes f.txseq f.first f.count))
  | none => s.placeEvent (slotOfDatagram .control (rrqBytes f.txseq f.first f.count))

/-- Place a row of the opcode table (numbered as the table numbers it) so that the next step performs it. -/
def State.placeTableWord (nbits w : Nat) (s : State) : State :=
  if nbits = 64 then
    match decodeRrq (windowBytes 8 w) with
    | some f => s.placeRerequest f
    | none   => s.placeEvent (slotOfWord (BitVec.ofNat 64 w))
  else
    s.placeEvent (slotOfDatagram (windowChannel (windowDatagram nbits w)) (windowDatagram nbits w))

end Sys2Proof.Machine
end

