-- ==== Sys2Proof/Machine/Step.lean ====
section
/-! DEFINITION. The step: one event taken from the head of the inbound queue and performed atomically (00_scope.md R6). -/

namespace Sys2Proof.Machine

/-- One step (R6): nothing while the state has no step (`State.stop`, the empty queue of 70_reset_and_hazards.md R210
among its reasons, so that the arm for it below is never reached); an illegal word is refused and not consumed (60_exceptions.md R182); else the event at the head is taken and
performed. -/
def step (s : State) : Host.Outcome State Fault Refusal :=
  match s.stop with
  | some o => o
  | none =>
    match s.queue with
    | []        => .fault .idle
    | e :: rest =>
      match decode e with
      | .error r => .refused (.illegalEvent r)
      | .ok i    => settle (exec i (s.takeEvent rest))

/-- `s` with a row of the opcode table placed where `step` takes its next event. Logs 4 and 5. -/
def State.withFetchWord (s : State) (nbits w : Nat) : State := s.placeTableWord nbits w

end Sys2Proof.Machine
end

