-- ==== Sys2Proof/Machine/HostRun.lean ====
section
/-! DEFINITION. The block together with its host: the moves either can make (60_exceptions.md R188), a run as a sequence
of moves in any order, and the host's duties over a run, the weak fairness of the tick producer among them
(70_reset_and_hazards.md R205, 41_sequencer.md R135). These are assumptions about the host, "not a step of the block":
`step` does not read them. Log 21. -/

namespace Sys2Proof.Machine

/-- What can happen next: the block's step, or something a host agent does. -/
inductive Move where
  /-- BLOCK takes and performs the event at the queue head (00_scope.md R6). -/
  | step
  /-- a producer appends an event (10_state.md R48) -/
  | append (e : Slot)
  /-- the host agents take the next record (R49) -/
  | take
  /-- the consumer becomes ready, or stops being so (70_reset_and_hazards.md R204) -/
  | consumer (ready : Bool)
deriving DecidableEq, Repr

/-- The state after a move; none where the move cannot be made. -/
def State.move (m : Move) (s : State) : Option State :=
  match m with
  | .step =>
    match Sys2Proof.Machine.step s with
    | .next t    => some t
    | .fault _   => none
    | .refused _ => none
  | .append e   => s.hostAppend e
  | .take       => s.hostTake.map Prod.snd
  | .consumer b => some (s.setConsumerReady b)

/-- `σ` is a run of the block and its host by the moves `μ`, in whatever order they come (20_memory.md R73). -/
def IsRun (σ : Nat → State) (μ : Nat → Move) : Prop := ∀ n, (σ n).move (μ n) = some (σ (n + 1))

/-- The queue only ever holds legal events: the host may "append any legal word" (60_exceptions.md R188). -/
def LegalEvents (σ : Nat → State) : Prop := ∀ n, ∀ e ∈ (σ n).queue, ∃ i, decode e = .ok i

/-- Weak fairness of the tick producer: while `held` stays non-empty, TICK is appended again and again
(70_reset_and_hazards.md R205, 41_sequencer.md R135, R188 "TICK supply"). -/
def TickFair (σ : Nat → State) (μ : Nat → Move) : Prop :=
  ∀ n, (∀ m, n ≤ m → (σ m).held ≠ []) → ∃ m, n ≤ m ∧ μ m = .append slotTick

/-- The block does not rest for ever while it has a step: taking an event is what it does (20_memory.md R72). -/
def BlockFair (σ : Nat → State) (μ : Nat → Move) : Prop :=
  ∀ n, (∀ m, n ≤ m → ∃ t, step (σ m) = .next t) → ∃ m, n ≤ m ∧ μ m = .step

/-- The consumer does not hold the block for ever: the host must "accept each record in order" (R188, R204). -/
def ConsumerFair (σ : Nat → State) (μ : Nat → Move) : Prop :=
  ∀ n, (∀ m, n ≤ m → (σ m).stalled = true) → ∃ m, n ≤ m ∧ μ m = .take

end Sys2Proof.Machine
end

