-- ==== Sys2Proof/Machine/TraceSyntax.lean ====
section
/-! DEFINITION. The spec's text form of events and its pseudo-events (30_encoding.md R96, R97), as queue slots. The
source has no assembler (92_eei_decisions.md D29): these are notation, no part of the block. -/

namespace Sys2Proof.Machine

/-- The slot of an event (the first seven constructors); a wire row is no event and has none. -/
def eventSlot (i : Instr) : Option Slot :=
  match encode 0 i with
  | .event e  => some e
  | .wire _ _ => none

/-- `PKT <sn>[, R]` with an empty payload (R96). -/
def pktSlot (sn : SeqNo) (rx : Bool) : Slot := ⟨wordP sn rx 0, []⟩

/-- `TICKS <n>` (R97). -/
def ticks (n : Nat) : List Slot := List.replicate n slotTick

/-- `PKTS <a>..<b>[, R]`: `((b - a) mod 65536) + 1` packets from `a` (R97). -/
def pkts (a b : SeqNo) (rx : Bool) : List Slot :=
  (List.range ((b - a).toNat + 1)).map (fun k => pktSlot (add16 a k) rx)

/-- The datagram of `AUDIO <sn>` (R97). -/
def audioDatagram (sn : SeqNo) : List Byte := [0x80, 0x60] ++ put16 sn ++ List.replicate 8 0

/-- `AUDIO <sn>` (R97). -/
def audioSlot (sn : SeqNo) : Slot := slotOfDatagram .data (audioDatagram sn)

/-- The datagram of `REPLY <sn>[, tx=<t>]` (R97). -/
def replyDatagram (sn t : U16) : List Byte :=
  [0x80, 0xD6] ++ put16 t ++ [0x80, 0x60] ++ put16 sn ++ List.replicate 8 0

/-- `REPLY <sn>[, tx=<t>]` (R97). -/
def replySlot (sn t : U16) : Slot := slotOfDatagram .control (replyDatagram sn t)

/-- The datagram of `DECLINE` (R97). -/
def declineDatagram : List Byte := [0x80, 0xD6, 0x00, 0x00, 0x00, 0x01]

/-- `DECLINE` (R97). -/
def declineSlot : Slot := slotOfDatagram .control declineDatagram

/-- One hexadecimal digit. -/
def hexDigit (n : Nat) : Char := Char.ofNat (if n < 10 then 48 + n else 55 + n)

/-- "A datagram is a list of hex bytes" (R96), each after a space. -/
def bytesText : List Byte → String
  | []     => ""
  | b :: r => String.ofList [' ', hexDigit (b.toNat / 16), hexDigit (b.toNat % 16)] ++ bytesText r

/-- The text form of an event (R96). The wire rows are no events and have none. -/
def eventText : Instr → Option String
  | .pkt sn rx B    =>
    some ("PKT " ++ toString sn.toNat ++ (if rx then ", R" else "")
      ++ (if B.isEmpty then "" else ", len=" ++ toString B.length))
  | .tick           => some "TICK"
  | .flush          => some "FLUSH"
  | .close          => some "CLOSE"
  | .delta a b      => some ("DELTA " ++ toString a.toNat ++ ", " ++ toString b.toNat)
  | .rxc B          => some ("RXC" ++ bytesText B)
  | .rxd B          => some ("RXD" ++ bytesText B)
  | .rxcTiming _    => none
  | .rxcEcho _      => none
  | .rxcDecline _   => none
  | .rxcRecovered _ => none
  | .rxdAudio _     => none
  | .rxcUnknown _   => none
  | .rxdUnknown _   => none
  | .rrq _ _        => none

end Sys2Proof.Machine
end

