-- ==== Sys2Proof/Safety.lean ====
section
/-! DEFINITION. The terms in which claims are stated: the invariant of 10_state.md R40 to R44 with what 41_sequencer.md
R131 derives, the records of one step, the reading of `low` off those records (R132), and sequences of events. -/

namespace Sys2Proof.Machine

/-- The invariants the spec states, 10_state.md R40 to R44, in that order. -/
def State.KeepsR40ToR44 (s : State) : Prop :=
  (∀ k : SeqNo, s.held.has k = true → 0 < s.dist k) ∧
  s.held.has s.low = false ∧
  (∀ k : SeqNo, s.retry.has k = true → s.held.has k = false ∧ 0 ≤ s.dist k ∧
    ∃ h : SeqNo, s.held.has h = true ∧ s.dist k < s.dist h) ∧
  (∀ (k : SeqNo) (c : U32), s.retry.get? k = some c → 1 ≤ c.toNat ∧ c.toNat ≤ s.cfg.giveup - 1) ∧
  (s.initialized = false → s.held = [] ∧ s.retry = [])

/-- The invariant of the state between steps. A run from reset never leaves it (10_state.md section 5). -/
structure State.Inv (s : State) : Prop where
  /-- the configuration is legal (00_scope.md R18) -/
  config      : configOk s.cfg = true
  /-- the held store is in canonical form (at most one packet per key, R35) -/
  heldWf      : s.held.wf = true
  /-- the retry store is in canonical form (R37) -/
  retryWf     : s.retry.wf = true
  /-- every held key is strictly ahead of `low` (R40) -/
  ahead       : ∀ k, s.held.has k = true → 0 < s.dist k
  /-- `low` is not held (R41) -/
  lowMissing  : s.held.has s.low = false
  /-- a retry key is not held, not behind `low`, and behind some held key (R42) -/
  retryInGap  : ∀ k, s.retry.has k = true →
    s.held.has k = false ∧ 0 ≤ s.dist k ∧ ∃ h, s.held.has h = true ∧ s.dist k < s.dist h
  /-- counts lie in `[1, GIVEUP - 1]` (R43) -/
  counts      : ∀ k c, s.retry.get? k = some c → 1 ≤ c.toNat ∧ c.toNat < s.cfg.giveup
  /-- both stores are empty before a session starts (R44) -/
  emptyBefore : s.initialized = false → s.held = [] ∧ s.retry = []
  /-- both stores are empty in CLOSED (60_exceptions.md R186) -/
  emptyAfter  : s.mode = .closed → s.held = [] ∧ s.retry = []
  /-- a packet is held under its own sequence number, and its payload fits (R35, R36) -/
  packets     : ∀ k p, s.held.get? k = some p → p.sn = k ∧ p.payload.length ≤ s.cfg.maxDgram
  /-- "all counts within one run are equal" (R131) -/
  runLevel    : ∀ (j : Nat) (h : SeqNo), s.held.has h = true → ((j + 1 : Nat) : Int) < s.dist h →
    s.held.has (add16 s.low j) = false → s.held.has (add16 s.low (j + 1)) = false →
    s.retry.get0 (add16 s.low j) = s.retry.get0 (add16 s.low (j + 1))
  /-- "counts never increase along the range" (R131) -/
  falling     : ∀ (i j : Nat) (h : SeqNo), i ≤ j → s.held.has h = true → (j : Int) < s.dist h →
    s.held.has (add16 s.low i) = false → s.held.has (add16 s.low j) = false →
    (s.retry.get0 (add16 s.low j)).toNat ≤ (s.retry.get0 (add16 s.low i)).toNat
  /-- no more records are taken than there are (the model's own `taken`) -/
  takenLe     : s.taken ≤ s.trace.length

/-- The records a step from `s` to `t` appended. -/
def newRecords (s t : State) : List Record := t.trace.drop s.trace.length

/-- Reading `low` off a list of records: a DELIVER carries exactly `low` and moves it to the successor; an EVICT starts
exactly at `low` and moves it past its run; other records leave it (R113, R124, R132). None when a record does not fit. -/
def replayLow : SeqNo → List Record → Option SeqNo
  | low, []               => some low
  | low, .deliver p :: r  => if p.sn = low then replayLow (add16 low 1) r else none
  | low, .evict f c :: r  => if f = low then replayLow (add16 low c.toNat) r else none
  | low, .input _ _ :: r     => replayLow low r
  | low, .rrq _ :: r         => replayLow low r
  | low, .release _ _ :: r   => replayLow low r
  | low, .pass _ :: r        => replayLow low r
  | low, .deltaResult _ :: r => replayLow low r

/-- The runs of the EVICT records of a list, in order. -/
def evictedRuns : List Record → List (SeqNo × U16)
  | []              => []
  | .evict f c :: r => (f, c) :: evictedRuns r
  | .input _ _ :: r     => evictedRuns r
  | .deliver _ :: r     => evictedRuns r
  | .rrq _ :: r         => evictedRuns r
  | .release _ _ :: r   => evictedRuns r
  | .pass _ :: r        => evictedRuns r
  | .deltaResult _ :: r => evictedRuns r

/-- The messages of the RRQ records of a list, in order. -/
def rrqMessages : List Record → List (List Byte)
  | []         => []
  | .rrq m :: r => m :: rrqMessages r
  | .input _ _ :: r     => rrqMessages r
  | .deliver _ :: r     => rrqMessages r
  | .evict _ _ :: r     => rrqMessages r
  | .release _ _ :: r   => rrqMessages r
  | .pass _ :: r        => rrqMessages r
  | .deltaResult _ :: r => rrqMessages r

/-- The level a missing run reaches in the next TICK when its counts are equal: one more than its first slot's count
(R123, R131). -/
def State.nextLevel (s : State) (r : Run) : Nat := (s.retry.get0 r.start).toNat + 1

/-- The state after a sequence of events, performed one after the other (20_memory.md R72 "a function of the sequence of
events in queue order"). -/
def State.afterEvents : List Instr → State → State
  | [],     s => s
  | i :: l, s =>
    match exec i s with
    | .next t    => State.afterEvents l t
    | .fault _   => s
    | .refused _ => s

/-- The state after `n` TICK events with nothing between them. -/
def State.afterTicks (n : Nat) (s : State) : State := s.afterEvents (List.replicate n .tick)

/-- The session goes on throughout a sequence of events: no FLUSH, CLOSE or declined recovery takes effect
(60_exceptions.md R186). -/
def State.StaysInStream (s : State) (es : List Instr) : Prop :=
  ∀ n, n ≤ es.length → (s.afterEvents (es.take n)).lifecycle = .stream

/-- How many sequence numbers the records of a list deliver or evict: `low` passes that many (R113, R124, R132). -/
def passedBy : List Record → Nat
  | []                  => 0
  | .deliver _ :: r     => passedBy r + 1
  | .evict _ c :: r     => passedBy r + c.toNat
  | .input _ _ :: r     => passedBy r
  | .rrq _ :: r         => passedBy r
  | .release _ _ :: r   => passedBy r
  | .pass _ :: r        => passedBy r
  | .deltaResult _ :: r => passedBy r

/-- The outcomes a safe step may have: a next state, a wait or the end of the run, or the refusal of an illegal event.
A fault or refusal of any other kind is unsafe. -/
def safeOutcome : Host.Outcome State Fault Refusal → Bool
  | .next _                     => true
  | .fault .closed              => true
  | .fault .idle                => true
  | .fault .stalled             => true
  | .refused (.illegalEvent _)  => true
  | .refused _                  => false

end Sys2Proof.Machine
end

