-- ==== Sys2Proof/Certificates/Slice0/Obligations.lean ====
section
/-! DEFINITION. The statements for the provers. Each docstring names the rule of spec/ it formalises. Every statement is
about every configuration unless it says otherwise; none rests on the value of the open queue depth. -/

open Sys2Proof Sys2Proof.Machine

/-! ## Encoding and decoding -/

/-- Words written out from the formats of 30_encoding.md R82 to R85 and windows from R90 to R92 decode to the
instructions they stand for. -/
def Obligations.WordsOfTheSpecDecode : Prop :=
  decode ⟨0x0000000000000004, []⟩ = .ok (.pkt 4 false []) ∧
  decode ⟨0x0000000300018064, [1, 2, 3]⟩ = .ok (.pkt 32868 true [1, 2, 3]) ∧
  decode ⟨0x1000000000000000, []⟩ = .ok .tick ∧
  decode ⟨0x2000000000000000, []⟩ = .ok .flush ∧
  decode ⟨0x3000000000000000, []⟩ = .ok .close ∧
  decode ⟨0x40000000000AFFFA, []⟩ = .ok (.delta 10 65530) ∧
  decode ⟨0x5000000600000000, [0x80, 0xD6, 0, 0, 0, 1]⟩ = .ok (.rxc [0x80, 0xD6, 0, 0, 0, 1]) ∧
  decode ⟨0x6000000200000000, [0x80, 0x60]⟩ = .ok (.rxd [0x80, 0x60]) ∧
  decodeWire .control [0x80, 0xD4] = .ok (.rxcTiming [0x80, 0xD4]) ∧
  decodeWire .control [0x80, 0x55] = .ok (.rxcEcho [0x80, 0x55]) ∧
  decodeWire .control [0x80, 0xD6, 0, 0, 0, 1] = .ok (.rxcDecline [0x80, 0xD6, 0, 0, 0, 1]) ∧
  decodeWire .control [0x80, 0xD6, 0, 0, 1, 0] = .ok (.rxcRecovered [0x80, 0xD6, 0, 0, 1, 0]) ∧
  decodeWire .control [0x80, 0x60] = .ok (.rxcUnknown [0x80, 0x60]) ∧
  decodeWire .data [0x80, 0xE0] = .ok (.rxdAudio [0x80, 0xE0]) ∧
  decodeWire .data [0x80, 0x54] = .ok (.rxdUnknown [0x80, 0x54]) ∧
  decodeWire .controlOut [0x80, 0xD5, 0, 0, 0xB5, 0xD2, 0, 1] = .ok (.rrq 46546 1)

/-- Decode and encode agree: for every well-formed instruction, at every value of every operand (30_encoding.md R82 to
R85, R89 to R92). -/
def Obligations.DecodeOfEncodeIsTheInstruction : Prop :=
  ∀ (tx : U16) (i : Instr), WellFormed i = true → decodeEncoded (encode tx i) = .ok i

/-- The other direction: a slot that decodes is the encoding of a well-formed instruction, so no bit of an event word
goes unread; and so is every datagram that fits LEN. That a slot whose buffer is not LEN bytes, or a bare word with a
buffer, does not decode is the model's choice (log 1). A rerequest window is left out: the marker bit of its byte 1 is not
read (42_codec.md R152), so two windows decode to one RRQ. -/
def Obligations.EncodeOfDecodeIsTheSlot : Prop :=
  (∀ (tx : U16) (e : Slot) (i : Instr), decode e = .ok i → WellFormed i = true ∧ encode tx i = .event e) ∧
  (∀ (tx : U16) (ch : Channel) (B : List Byte) (i : Instr), ch ≠ .controlOut → B.length ≤ 2047 →
    decodeWire ch B = .ok i → WellFormed i = true ∧ encode tx i = .wire ch B)

/-- The kind of an event is decided by `w[63:60]` alone, and no word matches two rows (R80, R81). -/
def Obligations.TagAloneDecidesTheEvent : Prop :=
  (∀ (e e' : Slot) (i i' : Instr), decode e = .ok i → decode e' = .ok i' → tagOf e.word = tagOf e'.word →
    i.mnemonic = i'.mnemonic) ∧
  (∀ (w : EventWord), ∀ r ∈ eventRows, ∀ r' ∈ eventRows, r.covers w = true → r'.covers w = true → r = r')

/-- The classes of a datagram are those of the opcode table, in the order of its priorities (R89, R160). -/
def Obligations.ClassifierFollowsTheTable : Prop :=
  ∀ B : List Byte, 2 ≤ B.length →
    (wireRows.find? (fun r => decide (r.channel = .control) && r.covers B)).map WireRow.mnemonic
      = some (classifyControl B).mnemonic ∧
    (wireRows.find? (fun r => decide (r.channel = .data) && r.covers B)).map WireRow.mnemonic
      = some (classifyData B).mnemonic

/-- 60_exceptions.md R182, with 30_encoding.md R87: a word that matches no row is refused, is not consumed, and the run
stays refused however long it goes on; and a reserved TAG matches no row. -/
def Obligations.IllegalWordsAreRefused : Prop :=
  (∀ w : EventWord, 7 ≤ (tagOf w).toNat → ∀ r ∈ eventRows, r.covers w = false) ∧
  ∀ (s : State) (e : Slot) (rest : List Slot), s.stop = none → s.queue = e :: rest →
    (∀ r ∈ eventRows, r.covers e.word = false) → ∀ k : Nat,
      Host.Core.run Sys2Proof.core (k + 1) s =
        .refused (.illegalEvent (if 7 ≤ (tagOf e.word).toNat then .reservedTag else .reservedBits))

/-- 00_scope.md R21 and 42_codec.md R157: `be16` and `put16` are big-endian, each undoes the other, and the status is
such a field; only the value 1 declines. -/
def Obligations.FieldsAreBigEndian : Prop :=
  (∀ (B : List Byte) (i : Nat) (h : i + 1 < B.length),
    (be16 B i).toNat = B[i].toNat * 256 + B[i + 1].toNat) ∧
  (∀ v : U16, put16 v = [BitVec.ofNat 8 (v.toNat / 256), BitVec.ofNat 8 (v.toNat % 256)] ∧ be16 (put16 v) 0 = v) ∧
  (∀ (B : List Byte) (h : 6 ≤ B.length),
    (statusOf B).toNat = B[4].toNat * 256 + B[5].toNat ∧
    (declines B = true ↔ B[4] = 0x00 ∧ B[5] = 0x01))

/-! ## The comparator -/

/-- 40_comparator.md R101: `delta` under SHORTEST, its least absolute value, its range, and its two ends. -/
def Obligations.ShortestDistance : Prop :=
  ∀ a b : SeqNo,
    (32768 < (a.toNat : Int) - b.toNat → delta .shortest a b = (a.toNat : Int) - b.toNat - 65536) ∧
    ((a.toNat : Int) - b.toNat < -32768 → delta .shortest a b = (a.toNat : Int) - b.toNat + 65536) ∧
    (-32768 ≤ (a.toNat : Int) - b.toNat → (a.toNat : Int) - b.toNat ≤ 32768 →
      delta .shortest a b = (a.toNat : Int) - b.toNat) ∧
    (∀ m : Int, |delta .shortest a b| ≤ |(a.toNat : Int) - b.toNat + 65536 * m|) ∧
    -32768 ≤ delta .shortest a b ∧ delta .shortest a b ≤ 32768 ∧
    (delta .shortest a b = 32768 ↔ (a.toNat : Int) - b.toNat = 32768) ∧
    (delta .shortest a b = -32768 ↔ (a.toNat : Int) - b.toNat = -32768)

/-- R102: `delta` under GUARD_8192, its range, and exactly where it agrees with SHORTEST. -/
def Obligations.GuardDistance : Prop :=
  (∀ a b : SeqNo,
    (a.toNat < 8192 ∧ 57344 ≤ b.toNat → delta .guard8192 a b = (a.toNat : Int) + 65536 - b.toNat) ∧
    (b.toNat < 8192 ∧ 57344 ≤ a.toNat → delta .guard8192 a b = (a.toNat : Int) - (b.toNat + 65536)) ∧
    (¬ (a.toNat < 8192 ∧ 57344 ≤ b.toNat) → ¬ (b.toNat < 8192 ∧ 57344 ≤ a.toNat) →
      delta .guard8192 a b = (a.toNat : Int) - b.toNat) ∧
    ¬ ((a.toNat < 8192 ∧ 57344 ≤ b.toNat) ∧ (b.toNat < 8192 ∧ 57344 ≤ a.toNat)) ∧
    -65535 ≤ delta .guard8192 a b ∧ delta .guard8192 a b ≤ 65535 ∧
    (|(a.toNat : Int) - b.toNat| ≤ 32768 → delta .guard8192 a b = delta .shortest a b) ∧
    ((a.toNat < 8192 ∧ 57344 ≤ b.toNat) ∨ (b.toNat < 8192 ∧ 57344 ≤ a.toNat) →
      delta .guard8192 a b = delta .shortest a b) ∧
    (32768 < |(a.toNat : Int) - b.toNat| → ¬ (a.toNat < 8192 ∧ 57344 ≤ b.toNat) → ¬ (b.toNat < 8192 ∧ 57344 ≤ a.toNat) →
      delta .guard8192 a b ≠ delta .shortest a b)) ∧
  delta .shortest 9000 60000 = 14536 ∧ delta .guard8192 9000 60000 = -51000

/-- R103: the laws of `delta`, under either rule. -/
def Obligations.DistanceLaws : Prop :=
  ∀ (r : DeltaRule) (a b : SeqNo),
    (delta r a b = 0 ↔ a = b) ∧
    delta r a b = -delta r b a ∧
    (0 ≤ delta r a b → a = add16 b (delta r a b).toNat) ∧
    (delta r a b < 0 → b = add16 a (-delta r a b).toNat) ∧
    (r = .shortest → |delta r a b| ≤ 32768)

/-- R104: circular order is not transitive. -/
def Obligations.CircularOrderIsNotTransitive : Prop :=
  delta .shortest 20000 0 = 20000 ∧ delta .shortest 40000 20000 = 20000 ∧ delta .shortest 0 40000 = 25536

/-- R105: DELTA emits the distance and changes nothing else, whatever `initialized` is; its word decodes to it, and one
with a reserved bit set does not; its corner cases. -/
def Obligations.DeltaEmitsTheDistance : Prop :=
  (∀ w : EventWord, tagOf w = 4 → w &&& 0x0FFFFFFF00000000 ≠ 0 → decode ⟨w, []⟩ = .error .reservedBits) ∧
  ∀ (a b : SeqNo) (s : State),
    exec (.delta a b) s = .next { s with trace := s.trace ++ [.deltaResult (delta s.cfg.deltaRule a b)] } ∧
    decode ⟨wordD a b, []⟩ = .ok (.delta a b) ∧
    delta s.cfg.deltaRule a a = 0 ∧
    (|(a.toNat : Int) - b.toNat| = 32768 → delta .shortest a b = (a.toNat : Int) - b.toNat)

/-! ## PKT and HANDLE -/

/-- 41_sequencer.md R118, first line: a payload over MAX_DGRAM is released OVERSIZE; no IN record, no other change. -/
def Obligations.OversizePacketIsReleased : Prop :=
  ∀ (s : State) (sn : SeqNo) (rx : Bool) (B : List Byte), s.cfg.maxDgram < B.length →
    exec (.pkt sn rx B) s = .next { s with trace := s.trace ++ [.release .oversize (.raw B)] }

/-- R111: before a session, a retransmitted packet is released and changes nothing; the first primary packet sets `low`,
initializes, and is delivered at once. The stores are empty there (10_state.md R44). -/
def Obligations.FirstPacketStartsTheSession : Prop :=
  ∀ (s : State) (sn : SeqNo) (B : List Byte), B.length ≤ s.cfg.maxDgram → s.initialized = false →
    exec (.pkt sn true B) s = .next { s with
      trace := s.trace ++ [.input sn true, .release .retxBeforeInit (.packet ⟨sn, true, B⟩)] } ∧
    (s.held = [] → s.retry = [] → exec (.pkt sn false B) s = .next { s with
      initialized := true, low := add16 sn 1,
      trace := s.trace ++ [.input sn false, .deliver ⟨sn, false, B⟩] })

/-- R113 and R114: a packet at `low` is delivered unchanged, then the contiguous held successors `qs`, in order, each
leaving the store; `low` moves past them all and the slot it then names is not held. -/
def Obligations.InOrderPacketDrains : Prop :=
  ∀ (s : State) (sn : SeqNo) (rx : Bool) (B : List Byte), B.length ≤ s.cfg.maxDgram → s.initialized = true →
    sn = s.low →
    ∃ (t : State) (qs : List Packet),
      exec (.pkt sn rx B) s = .next t ∧
      t = { s with
        low := add16 s.low (1 + qs.length), held := t.held, retry := s.retry.del sn,
        trace := s.trace ++ .input sn rx :: .deliver ⟨sn, rx, B⟩ :: qs.map .deliver } ∧
      (∀ (i : Nat) (h : i < qs.length), s.held.get? (add16 s.low (1 + i)) = some qs[i]) ∧
      t.held.get? t.low = none ∧
      (∀ k : SeqNo, t.held.get? k =
        if k ∈ slotsFrom (add16 s.low 1) qs.length then none else s.held.get? k)

/-- R115: a packet strictly behind `low` is released STALE, with no change beyond step 2 (none at all from a state of a
run); and which packets those are under SHORTEST. -/
def Obligations.StalePacketIsReleased : Prop :=
  ∀ (s : State) (sn : SeqNo) (rx : Bool) (B : List Byte), B.length ≤ s.cfg.maxDgram → s.initialized = true →
    (sn ≠ s.low → s.dist sn < 0 →
      exec (.pkt sn rx B) s = .next { s with
        retry := s.retry.del sn,
        trace := s.trace ++ [.input sn rx, .release .stale (.packet ⟨sn, rx, B⟩)] } ∧
      (s.Inv → s.retry.del sn = s.retry)) ∧
    (s.cfg.deltaRule = .shortest →
      (s.dist sn < 0 ↔ (1 ≤ (s.low - sn).toNat ∧ (s.low - sn).toNat ≤ 32767) ∨
        ((s.low - sn).toNat = 32768 ∧ sn.toNat < s.low.toNat)))

/-- R116: a second copy of a held packet is released DUPLICATE and the held one is kept. -/
def Obligations.DuplicateIsReleased : Prop :=
  ∀ (s : State) (sn : SeqNo) (rx : Bool) (B : List Byte), B.length ≤ s.cfg.maxDgram → s.initialized = true →
    0 < s.dist sn → s.held.has sn = true →
    exec (.pkt sn rx B) s = .next { s with
      retry := s.retry.del sn,
      trace := s.trace ++ [.input sn rx, .release .duplicate (.packet ⟨sn, rx, B⟩)] }

/-- R117: a packet ahead of `low` and not held is stored under its sequence number; the IN record is the only one. -/
def Obligations.PacketAheadIsHeld : Prop :=
  ∀ (s : State) (sn : SeqNo) (rx : Bool) (B : List Byte), B.length ≤ s.cfg.maxDgram → s.initialized = true →
    0 < s.dist sn → s.held.has sn = false →
    ∃ t : State, exec (.pkt sn rx B) s = .next t ∧
      t = { s with held := t.held, retry := s.retry.del sn, trace := s.trace ++ [.input sn rx] } ∧
      (∀ k : SeqNo, t.held.get? k = if k = sn then some ⟨sn, rx, B⟩ else s.held.get? k)

/-- R112: every packet that passes step 1 cancels the retry count of its slot and of no other; for a stale packet of a
run this changes nothing. -/
def Obligations.ArrivalCancelsTheRetry : Prop :=
  ∀ (s : State) (sn : SeqNo) (rx : Bool) (B : List Byte), B.length ≤ s.cfg.maxDgram →
    s.initialized = true ∨ rx = false →
    ∃ t : State, exec (.pkt sn rx B) s = .next t ∧
      (∀ k : SeqNo, t.retry.get? k = if k = sn then none else s.retry.get? k) ∧
      (s.Inv → s.initialized = true → s.dist sn < 0 → t.retry = s.retry)

/-- R110, last paragraph, and R134: HANDLE emits one IN record, then one RELEASE record, or DELIVER records, or nothing,
at most `1 + |held|` in all after IN; and it never writes `txseq` or `mode`. -/
def Obligations.HandleEmitsInThenReleaseOrDeliveries : Prop :=
  ∀ (s : State) (sn : SeqNo) (rx : Bool) (B : List Byte), B.length ≤ s.cfg.maxDgram →
    ∃ (t : State) (rest : List Record), exec (.pkt sn rx B) s = .next t ∧
      t.trace = s.trace ++ .input sn rx :: rest ∧
      ((∃ c x, rest = [.release c x]) ∨ ∃ ps : List Packet, rest = ps.map .deliver) ∧
      rest.length ≤ 1 + s.held.length ∧
      t.txseq = s.txseq ∧ t.mode = s.mode

/-- 10_state.md R36: the payload is opaque. Two packets that differ in payload only leave the same registers, the same
counts and the same held keys. -/
def Obligations.PayloadIsOpaque : Prop :=
  ∀ (s : State) (sn : SeqNo) (rx : Bool) (B B' : List Byte),
    B.length ≤ s.cfg.maxDgram → B'.length ≤ s.cfg.maxDgram →
    ∃ t t' : State, exec (.pkt sn rx B) s = .next t ∧ exec (.pkt sn rx B') s = .next t' ∧
      t.low = t'.low ∧ t.initialized = t'.initialized ∧ t.mode = t'.mode ∧ t.txseq = t'.txseq ∧
      t.retry = t'.retry ∧ t.held.keys = t'.held.keys

/-! ## TICK -/

/-- 41_sequencer.md R121: TICK does nothing while `held` is empty; else it scans from `low` to the one held key farthest
from it. -/
def Obligations.TickScansToTheFarthestHeldKey : Prop :=
  ∀ s : State, s.Inv →
    (s.held = [] → exec .tick s = .next s) ∧
    (s.held ≠ [] → ∃ hi : SeqNo, s.held.has hi = true ∧
      (∀ k : SeqNo, s.held.has k = true → k ≠ hi → s.dist k < s.dist hi) ∧
      s.tickRuns = missingRuns s.held s.low (s.dist hi + 1).toNat ∧
      2 ≤ s.dist hi + 1 ∧ (s.cfg.deltaRule = .shortest → s.dist hi + 1 ≤ 32769))

/-- R122: MISSING_RUNS splits the slots into exactly the missing ones, in ascending order, in runs that are non-empty
and maximal. TICK's runs are fixed by the state at its start; while something is held the first starts at `low`, every
one is followed by a held slot, and under SHORTEST its length fits the count field. -/
def Obligations.MissingRunsPartitionTheSlots : Prop :=
  (∀ (held : Store Packet) (low : SeqNo) (span : Nat),
    (missingRuns held low span).flatMap Run.slots = (slotsFrom low span).filter (fun k => !held.has k) ∧
    ∀ r ∈ missingRuns held low span, 1 ≤ r.count ∧ ∃ j : Nat,
      r.start = add16 low j ∧ j + r.count ≤ span ∧
      (j = 0 ∨ held.has (add16 low (j - 1)) = true) ∧
      (j + r.count = span ∨ held.has (add16 low (j + r.count)) = true)) ∧
  (∀ s : State, s.Inv → s.held ≠ [] →
    exec .tick s = .next (s.scanRuns s.tickRuns) ∧
    (∃ (c : Nat) (rest : List Run), s.tickRuns = ⟨s.low, c⟩ :: rest) ∧
    ∀ r ∈ s.tickRuns, 1 ≤ r.count ∧ s.held.has (add16 r.start r.count) = true ∧
      (s.cfg.deltaRule = .shortest → r.count ≤ 32768))

/-- R123: TICK adds 1 to the count of every missing slot of the range; the level of a run is then the least of its
counts. A run that reaches GIVEUP loses its counts in the same TICK (R124), and no other count is touched. -/
def Obligations.TickCountsEveryMissingSlot : Prop :=
  ∀ s : State, s.Inv → ∃ t : State, exec .tick s = .next t ∧
    (∀ r ∈ s.tickRuns, ∀ k ∈ r.slots,
      ((s.retry.get0 k).toNat + 1 < s.cfg.giveup → (t.retry.get0 k).toNat = (s.retry.get0 k).toNat + 1) ∧
      (s.cfg.giveup ≤ (s.retry.get0 k).toNat + 1 → t.retry.has k = false)) ∧
    (∀ k : SeqNo, (∀ r ∈ s.tickRuns, k ∉ r.slots) → t.retry.get? k = s.retry.get? k) ∧
    (∀ r ∈ s.tickRuns,
      (∀ k ∈ r.slots, levelOf (bumpAll s.retry r.slots) r.slots ≤ (s.retry.get0 k).toNat + 1) ∧
      ∃ k ∈ r.slots, levelOf (bumpAll s.retry r.slots) r.slots = (s.retry.get0 k).toNat + 1)

/-- R125 and 42_codec.md R151: exactly the runs whose level is below GIVEUP and in RRQ_LEVELS are rerequested, in
ascending order, with consecutive tx-seq values from `txseq`, which moves past them. Over all instructions, FLUSH
included, `txseq` counts the RRQ records from `TXSEQ_INIT`, and each carries the value it had. -/
def Obligations.TickRerequestsAtTheLevels : Prop :=
  (∀ s : State, s.Inv → ∃ (t : State) (q : List Run), exec .tick s = .next t ∧
    q = s.tickRuns.filter (fun r => decide (s.nextLevel r < s.cfg.giveup) && decide (s.nextLevel r ∈ s.cfg.rrqLevels)) ∧
    rrqMessages (newRecords s t) =
      q.mapIdx (fun n r => rrqBytes (add16 s.txseq n) r.start (BitVec.ofNat 16 r.count)) ∧
    t.txseq = add16 s.txseq q.length) ∧
  (∀ (i : Instr) (s t : State), exec i s = .next t →
    t.txseq = add16 s.txseq (rrqMessages (newRecords s t)).length ∧
    ∀ (n : Nat) (m : List Byte), (rrqMessages (newRecords s t))[n]? = some m → be16 m 2 = add16 s.txseq n) ∧
  (∀ c : Config, (State.resetWith c).txseq = c.txseqInit)

/-- 41_sequencer.md R131: the runs TICK evicts are a prefix of the runs, exactly those whose level reaches GIVEUP; after
them `low` is the start of the first run left, and where none is left nothing is held. -/
def Obligations.TickEvictsAPrefixAtLow : Prop :=
  ∀ s : State, s.Inv → ∃ (t : State) (n : Nat), exec .tick s = .next t ∧
    evictedRuns (newRecords s t) = (s.tickRuns.take n).map (fun r => (r.start, BitVec.ofNat 16 r.count)) ∧
    (∀ r ∈ s.tickRuns.take n, s.cfg.giveup ≤ s.nextLevel r) ∧
    (∀ r ∈ s.tickRuns.drop n, s.nextLevel r < s.cfg.giveup) ∧
    (∀ h : n < s.tickRuns.length, t.low = s.tickRuns[n].start) ∧
    (s.tickRuns.length ≤ n → t.held = [])

/-- R124, with one missing run: EVICT, then every held packet in order from the slot after the run; the counts are gone
and `low` stands after the last packet. -/
def Obligations.GiveUpSkipsTheGapAndDrains : Prop :=
  ∀ (s : State) (c : Nat), s.Inv → s.tickRuns = [⟨s.low, c⟩] → s.cfg.giveup ≤ (s.retry.get0 s.low).toNat + 1 →
    ∃ (t : State) (qs : List Packet), exec .tick s = .next t ∧
      t = { s with
        low := add16 s.low (c + qs.length), held := [], retry := [],
        trace := s.trace ++ .evict s.low (BitVec.ofNat 16 c) :: qs.map .deliver } ∧
      1 ≤ qs.length ∧ qs.length = s.held.length ∧
      (∀ (i : Nat) (h : i < qs.length), s.held.get? (add16 s.low (c + i)) = some qs[i])

/-- The frame of TICK (R120 "State written"): never `initialized` or `mode`, and a packet leaves `held` only by being
delivered. -/
def Obligations.TickRemovesOnlyWhatItDelivers : Prop :=
  ∀ s : State, ∃ t : State, exec .tick s = .next t ∧
    t.initialized = s.initialized ∧ t.mode = s.mode ∧
    (∀ (k : SeqNo) (p : Packet), t.held.get? k = some p → s.held.get? k = some p) ∧
    (∀ (k : SeqNo) (p : Packet), s.held.get? k = some p →
      t.held.get? k = some p ∨ Record.deliver p ∈ newRecords s t)

/-- 70_reset_and_hazards.md R205, the bound: a gap at `low` that never arrives is evicted by the TICK that brings its
count to GIVEUP, GIVEUP TICKs after it was first seen; first for TICKs with nothing between them, then with any other
events between them, of one session, so long as no packet under `low` comes. -/
def Obligations.GapEndsWithinGiveupTicks : Prop :=
  (∀ s : State, s.Inv → s.held ≠ [] →
    ∃ n : Nat, n + (s.retry.get0 s.low).toNat = s.cfg.giveup ∧
      (∃ c : U16, Record.evict s.low c ∈ newRecords s (s.afterTicks n)) ∧
      (s.afterTicks n).low ≠ s.low ∧ (∀ m : Nat, m < n → (s.afterTicks m).low = s.low)) ∧
  (∀ (s t : State) (es : List Instr), s.Inv → s.held ≠ [] → s.StaysInStream es → t = s.afterEvents es →
    (∀ rx : Bool, Record.input s.low rx ∉ newRecords s t) →
    ((s.retry.get0 s.low).toNat + es.count .tick < s.cfg.giveup →
      t.low = s.low ∧ t.held ≠ [] ∧ (t.retry.get0 s.low).toNat = (s.retry.get0 s.low).toNat + es.count .tick) ∧
    (s.cfg.giveup ≤ (s.retry.get0 s.low).toNat + es.count .tick →
      ∃ c : U16, Record.evict s.low c ∈ newRecords s t))

/-! ## FLUSH and CLOSE -/

/-- 41_sequencer.md R127: FLUSH releases every held packet in ascending distance, empties both stores and clears
`initialized` and `low`; its word decodes to it; before a session it emits nothing; the next packet starts a new session
if it is primary, and is released if it is not. -/
def Obligations.FlushReleasesAndResets : Prop :=
  ∀ s : State, s.held.wf = true →
    decode ⟨0x2000000000000000, []⟩ = .ok .flush ∧
    (∃ es : List (SeqNo × Packet), es.Perm s.held ∧ es.Pairwise (fun a b => s.dist a.1 < s.dist b.1) ∧
      exec .flush s = .next { s with
        trace := s.trace ++ es.map (fun e => .release .flushed (.packet e.2)),
        held := [], retry := [], initialized := false, low := 0 }) ∧
    (s.initialized = false → s.Inv →
      exec .flush s = .next { s with held := [], retry := [], initialized := false, low := 0 }) ∧
    (∀ (t : State) (sn : SeqNo) (B : List Byte), exec .flush s = .next t → B.length ≤ s.cfg.maxDgram →
      exec (.pkt sn false B) t = .next { t with
        initialized := true, low := add16 sn 1,
        trace := t.trace ++ [.input sn false, .deliver ⟨sn, false, B⟩] } ∧
      exec (.pkt sn true B) t = .next { t with
        trace := t.trace ++ [.input sn true, .release .retxBeforeInit (.packet ⟨sn, true, B⟩)] })

/-- R128: CLOSE releases every held packet in ascending distance, empties both stores, and closes; `initialized`, `low`
and `txseq` keep their values. -/
def Obligations.CloseReleasesAndCloses : Prop :=
  ∀ s : State, s.held.wf = true →
    decode ⟨0x3000000000000000, []⟩ = .ok .close ∧
    ∃ es : List (SeqNo × Packet), es.Perm s.held ∧ es.Pairwise (fun a b => s.dist a.1 < s.dist b.1) ∧
      exec .close s = .next { s with
        trace := s.trace ++ es.map (fun e => .release .closed (.packet e.2)),
        held := [], retry := [], mode := .closed }

/-- 70_reset_and_hazards.md R201: FLUSH returns `initialized`, `low`, `held` and `retry` to their reset values and leaves
`mode` and `txseq`. -/
def Obligations.FlushIsTheSoftReset : Prop :=
  ∀ s : State, ∃ t : State, exec .flush s = .next t ∧
    t = { State.resetWith s.cfg with
      mode := s.mode, txseq := s.txseq, queue := s.queue, trace := t.trace, taken := s.taken,
      consumerReady := s.consumerReady }

/-- 41_sequencer.md R129: a CLOSED block takes no event, however long the run goes on, a second CLOSE included: there is
no next state, so the queue keeps what it holds. (That having no step is told as a named fault is the model's, log 8.) -/
def Obligations.ClosedTakesNoEvent : Prop :=
  ∀ s : State, s.Inv → s.mode = .closed → ∀ k : Nat, Host.Core.run Sys2Proof.core (k + 1) s = .fault .closed

/-! ## The codec -/

/-- 30_encoding.md R90, 42_codec.md R150, R151: RRQ emits 8 bytes, `0x80D5_TTTT_FFFF_CCCC` as one big-endian number, and
advances `txseq` by 1. -/
def Obligations.RerequestHasTheLayout : Prop :=
  ∀ (first count : U16) (s : State), ∃ m : List Byte,
    exec (.rrq first count) s = .next { s with trace := s.trace ++ [.rrq m], txseq := s.txseq + 1 } ∧
    m = [0x80, 0xD5] ++ put16 s.txseq ++ put16 first ++ put16 count ∧
    m.length = 8 ∧
    windowNat 8 m = 0x80D5 * 2 ^ 48 + s.txseq.toNat * 2 ^ 32 + first.toNat * 2 ^ 16 + count.toNat

/-- 42_codec.md R162: the round trip; every RRQ record decodes to its fields; a rerequest looped back into RXC is
released ECHO and does nothing else. -/
def Obligations.RerequestRoundTrip : Prop :=
  (∀ t f c : U16, decodeRrq ([0x80] ++ [0xD5] ++ put16 t ++ put16 f ++ put16 c) = some ⟨t, f, c⟩) ∧
  (∀ (f c : U16) (s t : State) (m : List Byte), exec (.rrq f c) s = .next t → .rrq m ∈ newRecords s t →
    decodeRrq m = some ⟨s.txseq, f, c⟩) ∧
  (∀ (s t : State) (n : Nat) (m : List Byte), exec .tick s = .next t → (rrqMessages (newRecords s t))[n]? = some m →
    ∃ r ∈ s.tickRuns, decodeRrq m = some ⟨add16 s.txseq n, r.start, BitVec.ofNat 16 r.count⟩) ∧
  (∀ (s : State) (m : List Byte) (f : RrqFields), decodeRrq m = some f → 8 ≤ s.cfg.maxDgram →
    exec (.rxc m) s = .next { s with trace := s.trace ++ [.release .echo (.raw m)] })

/-- R153: RXD, line by line. -/
def Obligations.RxdFollowsItsRule : Prop :=
  ∀ (B : List Byte) (s : State),
    (s.cfg.maxDgram < B.length →
      exec (.rxd B) s = .next { s with trace := s.trace ++ [.release .oversize (.raw B)] }) ∧
    (B.length ≤ s.cfg.maxDgram → B.length < 2 →
      exec (.rxd B) s = .next { s with trace := s.trace ++ [.release .short (.raw B)] }) ∧
    (B.length ≤ s.cfg.maxDgram → 2 ≤ B.length → payloadType B ≠ 96 →
      exec (.rxd B) s = .next { s with trace := s.trace ++ [.release .unknownPt (.raw B)] }) ∧
    (B.length ≤ s.cfg.maxDgram → 2 ≤ B.length → payloadType B = 96 → B.length < 12 →
      exec (.rxd B) s = .next { s with trace := s.trace ++ [.release .short (.raw B)] }) ∧
    (B.length ≤ s.cfg.maxDgram → payloadType B = 96 → 12 ≤ B.length →
      ∃ t : State, exec (.rxd B) s = .next t ∧ exec (.pkt (be16 B 2) false B) s = .next t)

/-- R154: RXC, line by line. -/
def Obligations.RxcFollowsItsRule : Prop :=
  ∀ (B : List Byte) (s : State),
    (s.cfg.maxDgram < B.length →
      exec (.rxc B) s = .next { s with trace := s.trace ++ [.release .oversize (.raw B)] }) ∧
    (B.length ≤ s.cfg.maxDgram → B.length < 2 →
      exec (.rxc B) s = .next { s with trace := s.trace ++ [.release .short (.raw B)] }) ∧
    (B.length ≤ s.cfg.maxDgram → 2 ≤ B.length → payloadType B = 84 →
      exec (.rxc B) s = .next { s with trace := s.trace ++ [.pass B] }) ∧
    (B.length ≤ s.cfg.maxDgram → 2 ≤ B.length → payloadType B = 85 →
      exec (.rxc B) s = .next { s with trace := s.trace ++ [.release .echo (.raw B)] }) ∧
    (B.length ≤ s.cfg.maxDgram → 2 ≤ B.length → payloadType B = 86 → B.length < 6 →
      exec (.rxc B) s = .next { s with trace := s.trace ++ [.release .short (.raw B)] }) ∧
    (B.length ≤ s.cfg.maxDgram → 6 ≤ B.length → payloadType B = 86 → be16 B 4 = 1 →
      ∃ t : State, exec (.rxc B) s = .next t ∧
        exec .flush { s with trace := s.trace ++ [.release .declined (.raw B)] } = .next t) ∧
    (B.length ≤ s.cfg.maxDgram → 6 ≤ B.length → payloadType B = 86 → be16 B 4 ≠ 1 → B.length < 16 →
      exec (.rxc B) s = .next { s with trace := s.trace ++ [.release .short (.raw B)] }) ∧
    (B.length ≤ s.cfg.maxDgram → 16 ≤ B.length → payloadType B = 86 → be16 B 4 ≠ 1 →
      ∃ t : State, exec (.rxc B) s = .next t ∧ exec (.pkt (be16 B 6) true (B.drop 4)) s = .next t) ∧
    (B.length ≤ s.cfg.maxDgram → 2 ≤ B.length → payloadType B ≠ 84 → payloadType B ≠ 85 → payloadType B ≠ 86 →
      exec (.rxc B) s = .next { s with trace := s.trace ++ [.release .unknownPt (.raw B)] })

/-- R155, R156, R160: the classes that change no state but the trace. -/
def Obligations.PassedAndDiscardedClasses : Prop :=
  ∀ (B : List Byte) (s : State), B.length ≤ s.cfg.maxDgram →
    exec (.rxcTiming B) s = .next { s with trace := s.trace ++ [.pass B] } ∧
    exec (.rxcEcho B) s = .next { s with trace := s.trace ++ [.release .echo (.raw B)] } ∧
    exec (.rxcUnknown B) s = .next { s with trace := s.trace ++ [.release .unknownPt (.raw B)] } ∧
    exec (.rxdUnknown B) s = .next { s with trace := s.trace ++ [.release .unknownPt (.raw B)] }

/-- R158: a declined recovery is released DECLINED, and FLUSH follows in the same step, its records after that one. -/
def Obligations.DeclineReleasesThenFlushes : Prop :=
  ∀ (B : List Byte) (s : State), B.length ≤ s.cfg.maxDgram → s.held.wf = true →
    ∃ es : List (SeqNo × Packet), es.Perm s.held ∧ es.Pairwise (fun a b => s.dist a.1 < s.dist b.1) ∧
      exec (.rxcDecline B) s = .next { s with
        trace := s.trace ++ .release .declined (.raw B) :: es.map (fun e => .release .flushed (.packet e.2)),
        held := [], retry := [], initialized := false, low := 0 }

/-- R159 and R153: a recovered packet is the datagram without its 4-byte prefix, handled with `rx = 1` under the sequence
number at bytes 6 and 7; an audio datagram is handled whole, with `rx = 0`, under the one at bytes 2 and 3. One without a
whole RTP header is released SHORT (R161). -/
def Obligations.HandledClasses : Prop :=
  ∀ (B : List Byte) (s : State), B.length ≤ s.cfg.maxDgram →
    (16 ≤ B.length →
      ∃ t : State, exec (.rxcRecovered B) s = .next t ∧ exec (.pkt (be16 B 6) true (B.drop 4)) s = .next t) ∧
    (12 ≤ B.length →
      ∃ t : State, exec (.rxdAudio B) s = .next t ∧ exec (.pkt (be16 B 2) false B) s = .next t) ∧
    (B.length < 16 →
      exec (.rxcRecovered B) s = .next { s with trace := s.trace ++ [.release .short (.raw B)] }) ∧
    (B.length < 12 →
      exec (.rxdAudio B) s = .next { s with trace := s.trace ++ [.release .short (.raw B)] })

/-- A datagram's class does what its event does with it, the OVERSIZE check included. That the class rows are
instructions with that meaning is the model's reading (log 2). -/
def Obligations.ClassAgreesWithItsEvent : Prop :=
  ∀ (B : List Byte) (s : State), 2 ≤ B.length → ∃ t u : State,
    exec (.rxc B) s = .next t ∧ exec (classifyControl B) s = .next t ∧
    exec (.rxd B) s = .next u ∧ exec (classifyData B) s = .next u

/-! ## The machine as a whole -/

/-- 60_exceptions.md R180, 00_scope.md R6: every instruction completes from every state; the trace only grows, and no
instruction touches the configuration, the queue or the consumer's side. That an instruction's meaning is given in CLOSED
states and in states outside the invariant too is the model's choice (logs 17 and 18): `step` performs none there. -/
def Obligations.EveryInstructionCompletes : Prop :=
  ∀ (i : Instr) (s : State), ∃ t : State, exec i s = .next t ∧
    t.cfg = s.cfg ∧ t.queue = s.queue ∧ t.taken = s.taken ∧ t.consumerReady = s.consumerReady ∧
    t.trace = s.trace ++ newRecords s t

/-- What each instruction leaves unchanged (10_state.md R32 to R38, the "State written" lines). -/
def Obligations.OnlyTheNamedStateIsWritten : Prop :=
  ∀ (i : Instr) (s t : State), exec i s = .next t →
    match i with
    | .pkt _ _ _      => t.mode = s.mode ∧ t.txseq = s.txseq
    | .tick           => t.mode = s.mode ∧ t.initialized = s.initialized
    | .flush          => t.mode = s.mode ∧ t.txseq = s.txseq
    | .close          => t.initialized = s.initialized ∧ t.low = s.low ∧ t.txseq = s.txseq
    | .delta _ _      => t = { s with trace := t.trace }
    | .rxc _          => t.mode = s.mode ∧ t.txseq = s.txseq
    | .rxd _          => t.mode = s.mode ∧ t.txseq = s.txseq
    | .rxcTiming _    => t = { s with trace := t.trace }
    | .rxcEcho _      => t = { s with trace := t.trace }
    | .rxcDecline _   => t.mode = s.mode ∧ t.txseq = s.txseq
    | .rxcRecovered _ => t.mode = s.mode ∧ t.txseq = s.txseq
    | .rxdAudio _     => t.mode = s.mode ∧ t.txseq = s.txseq
    | .rxcUnknown _   => t = { s with trace := t.trace }
    | .rxdUnknown _   => t = { s with trace := t.trace }
    | .rrq _ _        => t = { s with trace := t.trace, txseq := t.txseq }

/-- A step runs the decoded event: it is exec of the event at the state in which the event has been taken from the
queue; then a ready consumer has taken every record, and otherwise none is taken (R6; `taken` and `consumerReady` are the
model's, log 9). -/
def Obligations.StepRunsTheDecodedEvent : Prop :=
  ∀ (s : State) (e : Slot) (rest : List Slot) (i : Instr),
    configOk s.cfg = true → s.startOk = true → s.mode = .run → s.stalled = false →
    s.queue = e :: rest → decode e = .ok i →
    ∃ u : State, exec i { s with queue := rest } = .next u ∧
      step s = .next { u with taken := if s.consumerReady then u.trace.length else u.taken }

/-- 20_memory.md R72: events are taken strictly in FIFO order: a step takes exactly the event at the head. -/
def Obligations.StepTakesTheHeadOfTheQueue : Prop :=
  ∀ s t : State, step s = .next t → ∃ (e : Slot) (i : Instr), s.queue = e :: t.queue ∧ decode e = .ok i

/-- 70_reset_and_hazards.md R204: while a DELIVER record has not been taken the block takes no event that waits; taking it changes
no other state, loses no record, and when every record is taken the stall is over. (The field `taken` and the named fault
are the model's, logs 8 and 9.) -/
def Obligations.StallIsAHoldNotALoss : Prop :=
  ∀ s : State, s.Inv → s.mode = .run →
    (s.stalled = true → s.queue ≠ [] → step s = .fault .stalled) ∧
    (∀ (r : Record) (u : State), s.hostTake = some (r, u) →
      s.trace[s.taken]? = some r ∧ u = { s with taken := s.taken + 1 }) ∧
    (s.hostTake = none → s.stalled = false)

/-- R210: a block with an empty queue in RUN is idle, whether or not every record has been taken: it waits, no step is
taken (model's choice of how to say so, log 8). -/
def Obligations.EmptyQueueIsIdle : Prop :=
  ∀ s : State, s.Inv → s.mode = .run → s.queue = [] → step s = .fault .idle

/-- 00_scope.md R18: a configuration that breaks a constraint is refused; one that keeps them is not, whether or not a
level reaches GIVEUP; levels that do never fire: a TICK does the same without them. That the check is made at every step,
and takes in the bounds of R11 and R14, is the model's (log 19). -/
def Obligations.BadConfigurationIsRefused : Prop :=
  ∀ s : State,
    (∃ t : State, exec .tick s = .next t ∧
      exec .tick { s with cfg := { s.cfg with rrqLevels := s.cfg.rrqLevels.filter (fun l => decide (l < s.cfg.giveup)) } }
        = .next { t with cfg := { s.cfg with
            rrqLevels := s.cfg.rrqLevels.filter (fun l => decide (l < s.cfg.giveup)) } }) ∧
    ((∃ l ∈ s.cfg.rrqLevels, l < 1) ∨ s.cfg.giveup < 1 ∨ 2 ^ 32 ≤ s.cfg.giveup ∨ s.cfg.maxDgram < 1 ∨
        2047 < s.cfg.maxDgram ∨ s.cfg.queueDepth < 1 →
      step s = .refused .badConfig) ∧
    ((∀ l ∈ s.cfg.rrqLevels, 1 ≤ l) → 1 ≤ s.cfg.giveup → s.cfg.giveup < 2 ^ 32 → 1 ≤ s.cfg.maxDgram →
      s.cfg.maxDgram ≤ 2047 → 1 ≤ s.cfg.queueDepth → configOk s.cfg = true ∧ step s ≠ .refused .badConfig)

/-- 10_state.md R45: a state that breaks R40 to R44 is refused, not stepped; one that keeps them is not refused for it.
(The stores are given in their canonical form, which is how the model writes a store down; the check is made at every
step, log 10.) -/
def Obligations.BadStateIsRefused : Prop :=
  ∀ s : State, configOk s.cfg = true → s.held.wf = true → s.retry.wf = true →
    (¬ s.KeepsR40ToR44 → step s = .refused .badState) ∧
    (s.KeepsR40ToR44 → step s ≠ .refused .badState)

/-- The invariant holds at reset, under every legal configuration (10_state.md section 5, R200). -/
def Obligations.ResetMeetsTheInvariant : Prop :=
  (∀ c : Config, configOk c = true → (State.resetWith c).Inv) ∧ State.reset.Inv

/-- 10_state.md section 5, R40 to R44, 60_exceptions.md R186, 41_sequencer.md R131: every step keeps the invariant, from
every state that has it. -/
def Obligations.StepKeepsTheInvariant : Prop :=
  ∀ s t : State, s.Inv → step s = .next t → t.Inv

/-- From every state with the invariant a step is safe: it answers a next state, waits, has ended, or refuses an illegal
event; the state and the configuration are never refused (R45, R180). -/
def Obligations.StepFromTheInvariantIsSafe : Prop :=
  ∀ s : State, s.Inv → safeOutcome (step s) = true

/-- 41_sequencer.md R132: each DELIVER carries exactly the value of `low` at that moment, which then moves to its
successor; only an EVICT at `low` skips. Reading the records of any instruction from `low` gives the new `low`. -/
def Obligations.DeliveriesFollowLow : Prop :=
  ∀ (i : Instr) (s t : State), s.Inv → s.initialized = true → exec i s = .next t → t.initialized = true →
    replayLow s.low (newRecords s t) = some t.low

/-- R133 (SHORTEST): once a sequence number is delivered, `low` draws away from it by exactly what later events of the
session deliver or evict, and a copy that comes after them is released STALE and changes nothing, so long as `low` is at
most 32767 past it. (At 32768 the tie of R101 decides, see R115 and log 22.) -/
def Obligations.DeliveredOnceIsStaleAfterwards : Prop :=
  ∀ (i : Instr) (es : List Instr) (s t u : State) (p : Packet) (rx : Bool) (B : List Byte),
    s.Inv → s.cfg.deltaRule = .shortest → exec i s = .next t → Record.deliver p ∈ newRecords s t →
    t.StaysInStream es → u = t.afterEvents es →
    (t.low - p.sn).toNat + passedBy (newRecords t u) ≤ 32767 → B.length ≤ u.cfg.maxDgram →
    (u.low - p.sn).toNat = (t.low - p.sn).toNat + passedBy (newRecords t u) ∧
    exec (.pkt p.sn rx B) u = .next { u with
      trace := u.trace ++ [.input p.sn rx, .release .stale (.packet ⟨p.sn, rx, B⟩)] }

/-- 00_scope.md R15: the stores hold at most 32768 entries under SHORTEST and 65535 under GUARD_8192. -/
def Obligations.StoresHaveBoundedSize : Prop :=
  ∀ s : State, s.Inv →
    (s.cfg.deltaRule = .shortest → s.held.length ≤ 32768 ∧ s.retry.length ≤ 32768) ∧
    s.held.length ≤ 65535 ∧ s.retry.length ≤ 65535

/-- 60_exceptions.md R186: how the lifecycle modes are entered and left. -/
def Obligations.LifecycleModes : Prop :=
  ∀ s t : State, s.Inv → step s = .next t →
    (t.lifecycle = .closed ↔ ∃ (e : Slot) (rest : List Slot), s.queue = e :: rest ∧ decode e = .ok .close) ∧
    (s.lifecycle = .uninit → t.lifecycle = .stream →
      ∃ p : Packet, p.rx = false ∧ newRecords s t = [.input p.sn false, .deliver p]) ∧
    (s.lifecycle = .stream → t.lifecycle = .uninit →
      ∃ (e : Slot) (rest : List Slot), s.queue = e :: rest ∧ (decode e = .ok .flush ∨
        ∃ B : List Byte, decode e = .ok (.rxc B) ∧ payloadType B = 86 ∧ statusOf B = 1)) ∧
    (t.lifecycle ≠ .stream → t.held = [] ∧ t.retry = [])

/-- 10_state.md R48: a producer appends to the tail when there is room; an append to a full queue has no step. -/
def Obligations.FullQueueHoldsTheProducer : Prop :=
  ∀ (s : State) (e : Slot),
    (s.queue.length < s.cfg.queueDepth → s.hostAppend e = some { s with queue := s.queue ++ [e] }) ∧
    (s.cfg.queueDepth ≤ s.queue.length → s.hostAppend e = none)

/-- 70_reset_and_hazards.md R200: every register at its reset value, under every configuration; the defaults of
00_scope.md R8 to R13. -/
def Obligations.ResetState : Prop :=
  (∀ c : Config, (State.resetWith c).mode = .run ∧ (State.resetWith c).initialized = false ∧
    (State.resetWith c).low = 0 ∧ (State.resetWith c).held = [] ∧ (State.resetWith c).retry = [] ∧
    (State.resetWith c).txseq = c.txseqInit ∧ (State.resetWith c).cfg = c ∧
    (State.resetWith c).queue = [] ∧ (State.resetWith c).trace = [] ∧
    (State.resetWith c).lifecycle = .uninit) ∧
  Config.default.txseqInit = 0 ∧ Config.default.deltaRule = .shortest ∧ Config.default.rrqLevels = [3, 11, 23] ∧
  Config.default.giveup = 37 ∧ Config.default.maxDgram = 1800

/-- 70_reset_and_hazards.md R205 and 41_sequencer.md R135, the liveness claim: in every run of the block and its host,
in whatever order they move, in which the tick producer is weakly fair, no gap lasts for ever: `low` moves on, or the
session ends. That the block, the consumer and the words in the queue do their part too is assumed beside it (log 21). -/
def Obligations.FairTicksEndEveryGap : Prop :=
  ∀ (σ : Nat → State) (μ : Nat → Move), IsRun σ μ → (σ 0).Inv → LegalEvents σ →
    TickFair σ μ → BlockFair σ μ → ConsumerFair σ μ →
    ∀ n, (σ n).held ≠ [] → ∃ m, n ≤ m ∧ ((σ m).low ≠ (σ n).low ∨ (σ m).lifecycle ≠ .stream)
end

