-- ==== Sys2Proof/Laws/Circular.lean ====
section
/-! SUPPORT. The arithmetic of sequence numbers: `add16` steps compose, and how the distance from `low` behaves along
the slots between `low` and a key ahead of it, under either comparator rule. -/

namespace Sys2Proof.Laws

open Sys2Proof.Machine

theorem toNat_add16 (a : U16) (k : Nat) : (add16 a k).toNat = (a.toNat + k) % 65536 := by
  simp [add16, BitVec.toNat_add, BitVec.toNat_ofNat]

@[simp] theorem add16_zero (a : U16) : add16 a 0 = a := by
  simp [add16]

theorem add16_add (a : U16) (i j : Nat) : add16 (add16 a i) j = add16 a (i + j) := by
  apply BitVec.eq_of_toNat_eq
  simp only [toNat_add16]
  omega

theorem add16_inj {a : U16} {i j : Nat} (hi : i < 65536) (hj : j < 65536) (h : add16 a i = add16 a j) : i = j := by
  have h := congrArg BitVec.toNat h
  simp only [toNat_add16] at h
  omega

/-- Every sequence number is some number of successor steps from any other. -/
theorem exists_add16 (a b : U16) : ∃ k, k < 65536 ∧ b = add16 a k := by
  refine ⟨(b.toNat + 65536 - a.toNat) % 65536, Nat.mod_lt _ (by decide), ?_⟩
  apply BitVec.eq_of_toNat_eq
  rw [toNat_add16]
  have := a.isLt
  have := b.isLt
  omega

/-- Both rules, as integers, on the two operands' values. -/
theorem delta_cases (r : DeltaRule) (a b : SeqNo) :
    (r = .shortest ∧ delta r a b = deltaShortest a b) ∨ (r = .guard8192 ∧ delta r a b = deltaGuard a b) := by
  cases r <;> simp [delta]

/-- The slots from `low` up to a key ahead of it lie at their own number of steps. -/
theorem delta_add16 (r : DeltaRule) (h low : SeqNo) (j : Nat) (hj : (j : Int) ≤ delta r h low) :
    delta r (add16 low j) low = j := by
  have hh := h.isLt
  have hl := low.isLt
  have hm := toNat_add16 low j
  cases r <;>
    simp only [delta, deltaShortest, deltaGuard, guardLift, guardBand, seqMod, hm] at hj ⊢ <;>
    split_ifs at hj ⊢ <;> omega

/-- Moving `low` up by `j`, not past a key ahead of it, brings that key `j` closer. -/
theorem delta_advance (r : DeltaRule) (h low : SeqNo) (j : Nat) (hj : (j : Int) ≤ delta r h low) :
    delta r h (add16 low j) = delta r h low - j := by
  have hh := h.isLt
  have hl := low.isLt
  have hm := toNat_add16 low j
  cases r <;>
    simp only [delta, deltaShortest, deltaGuard, guardLift, guardBand, seqMod, hm] at hj ⊢ <;>
    split_ifs at hj ⊢ <;> omega

/-- A key not behind `low` is `delta` successor steps from it. -/
theorem add16_delta (r : DeltaRule) (h low : SeqNo) (hj : 0 ≤ delta r h low) :
    add16 low (delta r h low).toNat = h := by
  apply BitVec.eq_of_toNat_eq
  have hh := h.isLt
  have hl := low.isLt
  rw [toNat_add16]
  cases r <;>
    simp only [delta, deltaShortest, deltaGuard, guardLift, guardBand, seqMod] at hj ⊢ <;>
    split_ifs at hj ⊢ <;> omega

end Sys2Proof.Laws
end

