-- ==== Sys2Proof/Laws/Decode.lean ====
section
/-! SUPPORT. What the decoder answers, said once: one inversion per format and one for the event decoder. -/

namespace Sys2Proof.Laws

theorem decodeBuffered_ok {m : EventWord} {e : Slot} {i j : Instr} :
    decodeBuffered m e i = .ok j ↔ e.word &&& m = 0 ∧ e.buf.length = lenOf e.word ∧ j = i := by
  unfold decodeBuffered
  split_ifs with h1 h2
  · exact ⟨fun h => by simp at h, fun h => absurd h.1 (by simpa using h1)⟩
  · exact ⟨fun h => by simp at h, fun h => absurd h.2.1 (by simpa using h2)⟩
  · exact ⟨fun h => ⟨by simpa using h1, by simpa using h2, (Except.ok.inj h).symm⟩, fun h => by rw [h.2.2]⟩

theorem decodeBare_ok {m : EventWord} {e : Slot} {i j : Instr} :
    decodeBare m e i = .ok j ↔ e.word &&& m = 0 ∧ e.buf = [] ∧ j = i := by
  unfold decodeBare
  split_ifs with h1 h2
  · exact ⟨fun h => by simp at h, fun h => absurd h.1 (by simpa using h1)⟩
  · exact ⟨fun h => by simp at h, fun h => absurd h.2.1 (by simpa using h2)⟩
  · exact ⟨fun h => ⟨by simpa using h1, by simpa using h2, (Except.ok.inj h).symm⟩, fun h => by rw [h.2.2]⟩

/-- A decoded event is one of seven, with its tag, its reserved bits and its buffer (30_encoding.md R81 to R88). -/
theorem decode_ok_cases {e : Slot} {i : Instr} (h : decode e = .ok i) :
    (tagOf e.word = 0 ∧ e.word &&& 0x0FFFF800FFFE0000 = 0 ∧ e.buf.length = lenOf e.word ∧
      i = .pkt (snOf e.word) (rxOf e.word) e.buf) ∨
    (tagOf e.word = 1 ∧ e.word &&& 0x0FFFFFFFFFFFFFFF = 0 ∧ e.buf = [] ∧ i = .tick) ∨
    (tagOf e.word = 2 ∧ e.word &&& 0x0FFFFFFFFFFFFFFF = 0 ∧ e.buf = [] ∧ i = .flush) ∨
    (tagOf e.word = 3 ∧ e.word &&& 0x0FFFFFFFFFFFFFFF = 0 ∧ e.buf = [] ∧ i = .close) ∨
    (tagOf e.word = 4 ∧ e.word &&& 0x0FFFFFFF00000000 = 0 ∧ e.buf = [] ∧
      i = .delta (aOf e.word) (bOf e.word)) ∨
    (tagOf e.word = 5 ∧ e.word &&& 0x0FFFF800FFFFFFFF = 0 ∧ e.buf.length = lenOf e.word ∧ i = .rxc e.buf) ∨
    (tagOf e.word = 6 ∧ e.word &&& 0x0FFFF800FFFFFFFF = 0 ∧ e.buf.length = lenOf e.word ∧ i = .rxd e.buf) := by
  have ht : ∀ n : Nat, n < 16 → (tagOf e.word).toNat = n → tagOf e.word = BitVec.ofNat 4 n := by
    intro n hn h
    apply BitVec.eq_of_toNat_eq
    simp [h, Nat.mod_eq_of_lt hn]
  unfold decode at h
  split at h
  · exact .inl ⟨ht 0 (by decide) ‹_›, decodeBuffered_ok.mp h⟩
  · exact .inr (.inl ⟨ht 1 (by decide) ‹_›, decodeBare_ok.mp h⟩)
  · exact .inr (.inr (.inl ⟨ht 2 (by decide) ‹_›, decodeBare_ok.mp h⟩))
  · exact .inr (.inr (.inr (.inl ⟨ht 3 (by decide) ‹_›, decodeBare_ok.mp h⟩)))
  · exact .inr (.inr (.inr (.inr (.inl ⟨ht 4 (by decide) ‹_›, decodeBare_ok.mp h⟩))))
  · exact .inr (.inr (.inr (.inr (.inr (.inl ⟨ht 5 (by decide) ‹_›, decodeBuffered_ok.mp h⟩)))))
  · exact .inr (.inr (.inr (.inr (.inr (.inr ⟨ht 6 (by decide) ‹_›, decodeBuffered_ok.mp h⟩)))))
  · exact absurd h (by simp)

end Sys2Proof.Laws
end

