-- ==== Sys2Proof/Laws/Store.lean ====
section
/-! SUPPORT. The laws of the associative stores (00_scope.md R23): read after write, every other key alone, and that
every operation keeps the canonical form. -/

namespace Sys2Proof.Laws

open Sys2Proof.Machine

variable {α : Type} (S : Store α) (k x : SeqNo) (v : α)

@[simp] theorem get?_nil : Store.get? ([] : Store α) k = none := rfl
@[simp] theorem has_nil : Store.has ([] : Store α) k = false := rfl

theorem get?_cons (u : α) (r : Store α) :
    Store.get? ((k, u) :: r) x = if k = x then some u else Store.get? r x := rfl

theorem has_iff : S.has k = true ↔ ∃ u, S.get? k = some u := Option.isSome_iff_exists

theorem has_eq_false : S.has k = false ↔ S.get? k = none := by
  simp [Store.has]

@[simp] theorem get?_set_self : (S.set k v).get? k = some v := by
  induction S with
  | nil => simp [Store.set, Store.get?]
  | cons e r ih =>
    obtain ⟨a, u⟩ := e
    unfold Store.set
    split
    · simp [Store.get?, *]
    · split
      · simp [Store.get?]
      · simp [Store.get?, *]

theorem get?_set_ne (h : x ≠ k) : (S.set k v).get? x = S.get? x := by
  induction S with
  | nil => simp [Store.set, Store.get?, Ne.symm h]
  | cons e r ih =>
    obtain ⟨a, u⟩ := e
    unfold Store.set
    split
    · rename_i e
      subst e
      simp [Store.get?, Ne.symm h]
    · split
      · simp [Store.get?, Ne.symm h]
      · simp [Store.get?, ih]

/-- The whole store after a write, by key. -/
theorem get?_set : (S.set k v).get? x = if x = k then some v else S.get? x := by
  by_cases h : x = k
  · subst h; simp
  · simp [h, get?_set_ne S k x v h]

@[simp] theorem get?_del_self : (S.del k).get? k = none := by
  induction S with
  | nil => rfl
  | cons e r ih =>
    obtain ⟨a, u⟩ := e
    unfold Store.del
    split
    · exact ih
    · simp [Store.get?, *]

theorem get?_del_ne (h : x ≠ k) : (S.del k).get? x = S.get? x := by
  induction S with
  | nil => rfl
  | cons e r ih =>
    obtain ⟨a, u⟩ := e
    unfold Store.del
    split
    · rename_i e
      subst e
      simp [Store.get?, Ne.symm h, ih]
    · simp [Store.get?, ih]

/-- The whole store after a removal, by key. -/
theorem get?_del : (S.del k).get? x = if x = k then none else S.get? x := by
  by_cases h : x = k
  · subst h; simp
  · simp [h, get?_del_ne S k x h]

theorem has_set : (S.set k v).has x = (decide (x = k) || S.has x) := by
  by_cases h : x = k <;> simp [Store.has, get?_set, h]

theorem has_del : (S.del k).has x = (!decide (x = k) && S.has x) := by
  by_cases h : x = k <;> simp [Store.has, get?_del, h]

/-- "it does nothing when `k` is absent" (R23). -/
theorem del_of_absent (h : S.has k = false) : S.del k = S := by
  induction S with
  | nil => rfl
  | cons e r ih =>
    obtain ⟨a, u⟩ := e
    have h' : a ≠ k := by
      intro e
      subst e
      simp [Store.has, Store.get?] at h
    have : Store.has r k = false := by simpa [Store.has, Store.get?, h'] using h
    simp [Store.del, h', ih this]

theorem mem_keys_iff_has : k ∈ S.keys ↔ S.has k = true := by
  induction S with
  | nil => simp [Store.keys, Store.has, Store.get?]
  | cons e r ih =>
    obtain ⟨a, u⟩ := e
    by_cases h : a = k
    · simp [Store.keys, Store.has, Store.get?, h]
    · have h' : k ≠ a := Ne.symm h
      simpa [Store.keys, Store.has, Store.get?, h, h'] using ih

/-! ### The canonical form -/

/-- `Store.wf`, as one statement about the list. -/
theorem wf_iff : S.wf = true ↔ S.Pairwise (fun a b => a.1.toNat < b.1.toNat) := by
  induction S with
  | nil => simp [Store.wf]
  | cons e r ih =>
    cases r with
    | nil => simp [Store.wf]
    | cons f r =>
      obtain ⟨a, u⟩ := e
      obtain ⟨b, w⟩ := f
      rw [List.pairwise_cons, ← ih]
      simp only [Store.wf, Bool.and_eq_true, decide_eq_true_eq]
      constructor
      · rintro ⟨h, hr⟩
        refine ⟨?_, hr⟩
        have hp := ih.mp hr
        rw [List.pairwise_cons] at hp
        intro c hc
        rcases List.mem_cons.mp hc with rfl | hc
        · exact h
        · exact lt_trans h (hp.1 c hc)
      · rintro ⟨h, hr⟩
        exact ⟨h _ (List.mem_cons_self ..), hr⟩

theorem wf_tail {e : SeqNo × α} {r : Store α} (h : Store.wf (e :: r) = true) : Store.wf r = true := by
  rw [wf_iff] at h ⊢
  exact (List.pairwise_cons.mp h).2

theorem mem_del {e : SeqNo × α} (h : e ∈ S.del k) : e ∈ S := by
  induction S with
  | nil => exact h
  | cons f r ih =>
    obtain ⟨a, u⟩ := f
    unfold Store.del at h
    split at h
    · exact List.mem_cons_of_mem _ (ih h)
    · rcases List.mem_cons.mp h with rfl | h
      · exact List.mem_cons_self ..
      · exact List.mem_cons_of_mem _ (ih h)

theorem del_wf (h : S.wf = true) : (S.del k).wf = true := by
  rw [wf_iff] at h ⊢
  induction S with
  | nil => simp [Store.del]
  | cons f r ih =>
    obtain ⟨a, u⟩ := f
    rw [List.pairwise_cons] at h
    unfold Store.del
    split
    · exact ih h.2
    · exact List.pairwise_cons.mpr ⟨fun e he => h.1 e (mem_del r k he), ih h.2⟩

theorem mem_set {e : SeqNo × α} (h : e ∈ S.set k v) : e = (k, v) ∨ e ∈ S := by
  induction S with
  | nil => simpa [Store.set] using h
  | cons f r ih =>
    obtain ⟨a, u⟩ := f
    unfold Store.set at h
    split at h
    · rename_i e
      subst e
      rcases List.mem_cons.mp h with rfl | h
      · exact .inl rfl
      · exact .inr (List.mem_cons_of_mem _ h)
    · split at h
      · rcases List.mem_cons.mp h with rfl | h
        · exact .inl rfl
        · exact .inr h
      · rcases List.mem_cons.mp h with rfl | h
        · exact .inr (List.mem_cons_self ..)
        · exact (ih h).imp id (List.mem_cons_of_mem _)

theorem set_wf (h : S.wf = true) : (S.set k v).wf = true := by
  rw [wf_iff] at h ⊢
  induction S with
  | nil => simp [Store.set]
  | cons f r ih =>
    obtain ⟨a, u⟩ := f
    have hc := List.pairwise_cons.mp h
    unfold Store.set
    split
    · exact List.pairwise_cons.mpr ⟨hc.1, hc.2⟩
    · split
      · rename_i hlt
        refine List.pairwise_cons.mpr ⟨?_, h⟩
        intro e he
        rcases List.mem_cons.mp he with rfl | he
        · exact hlt
        · exact lt_trans hlt (hc.1 e he)
      · rename_i hne hge
        refine List.pairwise_cons.mpr ⟨?_, ih hc.2⟩
        intro e he
        rcases mem_set r k v he with rfl | he
        · have : a.toNat ≠ k.toNat := fun e => hne (BitVec.eq_of_toNat_eq e)
          simp only
          omega
        · exact hc.1 e he

theorem length_del_le : (S.del k).length ≤ S.length := by
  induction S with
  | nil => simp [Store.del]
  | cons f r ih =>
    obtain ⟨a, u⟩ := f
    unfold Store.del
    split <;> simp only [List.length_cons] <;> omega

theorem length_del_lt (h : S.has k = true) : (S.del k).length < S.length := by
  induction S with
  | nil => simp [Store.has, Store.get?] at h
  | cons f r ih =>
    obtain ⟨a, u⟩ := f
    unfold Store.del
    split
    · have := length_del_le r k
      simp only [List.length_cons]
      omega
    · rename_i hne
      have : Store.has r k = true := by simpa [Store.has, Store.get?, hne] using h
      have := ih this
      simp only [List.length_cons]
      omega

theorem get?_eq_none_of_lt (h : ∀ e ∈ S, k.toNat < e.1.toNat) : S.get? k = none := by
  induction S with
  | nil => rfl
  | cons f r ih =>
    obtain ⟨a, u⟩ := f
    have ha : k.toNat < a.toNat := h (a, u) (List.mem_cons_self ..)
    have : a ≠ k := by
      intro e
      subst e
      omega
    simp [Store.get?, this, ih fun e he => h e (List.mem_cons_of_mem _ he)]

/-- Equal stores are equal lists: two stores in canonical form that agree on every key are the same. -/
theorem store_ext {S T : Store α} (hS : S.wf = true) (hT : T.wf = true)
    (h : ∀ k, S.get? k = T.get? k) : S = T := by
  induction S generalizing T with
  | nil =>
    cases T with
    | nil => rfl
    | cons f r => simpa [Store.get?] using h f.1
  | cons e r ih =>
    cases T with
    | nil => simpa [Store.get?] using h e.1
    | cons f q =>
      obtain ⟨a, u⟩ := e
      obtain ⟨b, w⟩ := f
      have ha := (List.pairwise_cons.mp ((wf_iff _).mp hS)).1
      have hb := (List.pairwise_cons.mp ((wf_iff _).mp hT)).1
      have hab : a = b := by
        by_contra hne
        rcases Nat.lt_or_ge a.toNat b.toNat with hlt | hge
        · have h1 := h a
          have : Store.get? q a = none := get?_eq_none_of_lt q a fun e he => lt_trans hlt (hb e he)
          simp [Store.get?, Ne.symm hne, this] at h1
        · have hlt : b.toNat < a.toNat := by
            have : a.toNat ≠ b.toNat := fun e => hne (BitVec.eq_of_toNat_eq e)
            omega
          have h1 := h b
          have : Store.get? r b = none := get?_eq_none_of_lt r b fun e he => lt_trans hlt (ha e he)
          simp [Store.get?, hne, this] at h1
      subst hab
      have huw : u = w := by simpa [Store.get?] using h a
      subst huw
      congr 1
      refine ih (wf_tail hS) (wf_tail hT) fun x => ?_
      by_cases hx : a = x
      · subst hx
        rw [get?_eq_none_of_lt r a ha, get?_eq_none_of_lt q a hb]
      · simpa [Store.get?, hx] using h x

end Sys2Proof.Laws
end

