-- ==== Sys2Proof/Laws/Inv.lean ====
section
/-! SUPPORT. A check that decides the invariant of Safety.lean on one concrete state. -/

namespace Sys2Proof.Laws

open Sys2Proof.Machine

/-- Along the slots from `low` up to the held key `h`, neighbouring missing slots have equal counts and no missing slot
has a higher count than an earlier one. -/
def levelsOk (s : State) (h : SeqNo) : Bool :=
  (List.range (s.dist h).toNat).all (fun j =>
    (s.held.has (add16 s.low j)
      || ((List.range (j + 1)).all (fun i => s.held.has (add16 s.low i)
            || decide ((s.retry.get0 (add16 s.low j)).toNat ≤ (s.retry.get0 (add16 s.low i)).toNat)))
        && (!decide (((j + 1 : Nat) : Int) < s.dist h) || s.held.has (add16 s.low (j + 1))
            || decide (s.retry.get0 (add16 s.low j) = s.retry.get0 (add16 s.low (j + 1))))))

/-- The whole check. -/
def invCheck (s : State) : Bool :=
  configOk s.cfg && s.startOk
    && (decide (s.mode = .run) || (s.held.isEmpty && s.retry.isEmpty))
    && s.held.all (fun e => decide (e.2.sn = e.1) && decide (e.2.payload.length ≤ s.cfg.maxDgram))
    && s.held.keys.all (levelsOk s)
    && decide (s.taken ≤ s.trace.length)

theorem mem_of_get? {α : Type} {S : Store α} {k : SeqNo} {v : α} (h : S.get? k = some v) : (k, v) ∈ S := by
  induction S with
  | nil => simp at h
  | cons e r ih =>
    obtain ⟨x, u⟩ := e
    by_cases hx : x = k
    · simp [Store.get?, hx] at h; simp [hx, h]
    · simp [Store.get?, hx] at h; exact List.mem_cons_of_mem _ (ih h)

theorem inv_of_check {s : State} (h : invCheck s = true) : s.Inv := by
  simp only [invCheck, State.startOk, Bool.and_eq_true, Bool.or_eq_true, List.all_eq_true, decide_eq_true_eq,
    Bool.not_eq_true', List.isEmpty_iff] at h
  obtain ⟨⟨⟨⟨⟨hc, ⟨⟨⟨⟨⟨⟨hw, rw'⟩, ha⟩, hl⟩, hr⟩, hn⟩, he⟩⟩, hm⟩, hp⟩, hv⟩, ht⟩ := h
  have levels : ∀ (j : Nat) (k : SeqNo), s.held.has k = true → (j : Int) < s.dist k →
      s.held.has (add16 s.low j) = false →
      (∀ i, i ≤ j → s.held.has (add16 s.low i) = false →
        (s.retry.get0 (add16 s.low j)).toNat ≤ (s.retry.get0 (add16 s.low i)).toNat) ∧
      (((j + 1 : Nat) : Int) < s.dist k → s.held.has (add16 s.low (j + 1)) = false →
        s.retry.get0 (add16 s.low j) = s.retry.get0 (add16 s.low (j + 1))) := by
    intro j k hk hj hmiss
    have := hv k ((mem_keys_iff_has _ _).2 hk)
    simp only [levelsOk, List.all_eq_true, List.mem_range, Bool.or_eq_true, Bool.and_eq_true,
      decide_eq_true_eq, Bool.not_eq_true', decide_eq_false_iff_not] at this
    rcases this j (by omega) with h0 | ⟨h1, h2⟩
    · simp [hmiss] at h0
    · refine ⟨fun i hi hmi => ?_, fun hlt hmj => ?_⟩
      · rcases h1 i (by omega) with h | h
        · simp [hmi] at h
        · exact h
      · rcases h2 with (h | h) | h
        · exact absurd hlt h
        · simp [hmj] at h
        · exact h
  exact
  { config := hc
    heldWf := hw
    retryWf := rw'
    ahead := fun k hk => ha k ((mem_keys_iff_has _ _).2 hk)
    lowMissing := hl
    retryInGap := fun k hk => by
      have := hr k ((mem_keys_iff_has _ _).2 hk)
      simp only [State.retryKeyOk, Bool.and_eq_true, Bool.not_eq_true', decide_eq_true_eq, List.any_eq_true] at this
      obtain ⟨⟨h1, h2⟩, x, hx, h3⟩ := this
      exact ⟨h1, h2, x, (mem_keys_iff_has _ _).1 hx, h3⟩
    counts := fun k c hk => hn _ (mem_of_get? hk)
    emptyBefore := fun hi => by
      rcases he with h | h
      · simp [hi] at h
      · exact h
    emptyAfter := fun hi => by
      rcases hm with h | h
      · simp [hi] at h
      · exact h
    packets := fun k p hk => hp _ (mem_of_get? hk)
    runLevel := fun j k hk hj h1 h2 => (levels j k hk (by omega) h1).2 hj h2
    falling := fun i j k hij hk hj h1 h2 => (levels j k hk hj h2).1 i hij h1
    takenLe := ht }

end Sys2Proof.Laws
end

