-- ==== Sys2Proof/Laws/State.lean ====
section
/-! SUPPORT. One lemma per field per state update, each true by rfl: no later proof unfolds an update of the record. -/

namespace Sys2Proof.Laws

open Sys2Proof.Machine

variable (s : State)

/-! ### emit -/

@[simp] theorem emit_cfg (r : Record) : (s.emit r).cfg = s.cfg := rfl
@[simp] theorem emit_mode (r : Record) : (s.emit r).mode = s.mode := rfl
@[simp] theorem emit_initialized (r : Record) : (s.emit r).initialized = s.initialized := rfl
@[simp] theorem emit_low (r : Record) : (s.emit r).low = s.low := rfl
@[simp] theorem emit_held (r : Record) : (s.emit r).held = s.held := rfl
@[simp] theorem emit_retry (r : Record) : (s.emit r).retry = s.retry := rfl
@[simp] theorem emit_txseq (r : Record) : (s.emit r).txseq = s.txseq := rfl
@[simp] theorem emit_queue (r : Record) : (s.emit r).queue = s.queue := rfl
@[simp] theorem emit_trace (r : Record) : (s.emit r).trace = s.trace ++ [r] := rfl
@[simp] theorem emit_taken (r : Record) : (s.emit r).taken = s.taken := rfl
@[simp] theorem emit_consumerReady (r : Record) : (s.emit r).consumerReady = s.consumerReady := rfl
@[simp] theorem emit_dist (r : Record) (k : SeqNo) : (s.emit r).dist k = s.dist k := rfl

/-! ### release -/

@[simp] theorem release_cfg (c : Reason) (x : Item) : (s.release c x).cfg = s.cfg := rfl
@[simp] theorem release_mode (c : Reason) (x : Item) : (s.release c x).mode = s.mode := rfl
@[simp] theorem release_initialized (c : Reason) (x : Item) : (s.release c x).initialized = s.initialized := rfl
@[simp] theorem release_low (c : Reason) (x : Item) : (s.release c x).low = s.low := rfl
@[simp] theorem release_held (c : Reason) (x : Item) : (s.release c x).held = s.held := rfl
@[simp] theorem release_retry (c : Reason) (x : Item) : (s.release c x).retry = s.retry := rfl
@[simp] theorem release_txseq (c : Reason) (x : Item) : (s.release c x).txseq = s.txseq := rfl
@[simp] theorem release_queue (c : Reason) (x : Item) : (s.release c x).queue = s.queue := rfl
@[simp] theorem release_trace (c : Reason) (x : Item) : (s.release c x).trace = s.trace ++ [.release c x] := rfl
@[simp] theorem release_taken (c : Reason) (x : Item) : (s.release c x).taken = s.taken := rfl
@[simp] theorem release_consumerReady (c : Reason) (x : Item) :
    (s.release c x).consumerReady = s.consumerReady := rfl

/-! ### deliver -/

@[simp] theorem deliver_cfg (p : Packet) : (s.deliver p).cfg = s.cfg := rfl
@[simp] theorem deliver_mode (p : Packet) : (s.deliver p).mode = s.mode := rfl
@[simp] theorem deliver_initialized (p : Packet) : (s.deliver p).initialized = s.initialized := rfl
@[simp] theorem deliver_low (p : Packet) : (s.deliver p).low = add16 s.low 1 := rfl
@[simp] theorem deliver_held (p : Packet) : (s.deliver p).held = s.held := rfl
@[simp] theorem deliver_retry (p : Packet) : (s.deliver p).retry = s.retry := rfl
@[simp] theorem deliver_txseq (p : Packet) : (s.deliver p).txseq = s.txseq := rfl
@[simp] theorem deliver_queue (p : Packet) : (s.deliver p).queue = s.queue := rfl
@[simp] theorem deliver_trace (p : Packet) : (s.deliver p).trace = s.trace ++ [.deliver p] := rfl
@[simp] theorem deliver_taken (p : Packet) : (s.deliver p).taken = s.taken := rfl
@[simp] theorem deliver_consumerReady (p : Packet) : (s.deliver p).consumerReady = s.consumerReady := rfl

/-! ### releaseHeld, flushAll, closeAll -/

@[simp] theorem flushAll_cfg : s.flushAll.cfg = s.cfg := rfl
@[simp] theorem flushAll_mode : s.flushAll.mode = s.mode := rfl
@[simp] theorem flushAll_initialized : s.flushAll.initialized = false := rfl
@[simp] theorem flushAll_low : s.flushAll.low = 0 := rfl
@[simp] theorem flushAll_held : s.flushAll.held = [] := rfl
@[simp] theorem flushAll_retry : s.flushAll.retry = [] := rfl
@[simp] theorem flushAll_txseq : s.flushAll.txseq = s.txseq := rfl
@[simp] theorem flushAll_queue : s.flushAll.queue = s.queue := rfl
@[simp] theorem flushAll_trace : s.flushAll.trace = s.trace ++ s.heldReleases .flushed := rfl
@[simp] theorem flushAll_taken : s.flushAll.taken = s.taken := rfl
@[simp] theorem flushAll_consumerReady : s.flushAll.consumerReady = s.consumerReady := rfl
@[simp] theorem closeAll_cfg : s.closeAll.cfg = s.cfg := rfl
@[simp] theorem closeAll_mode : s.closeAll.mode = .closed := rfl
@[simp] theorem closeAll_initialized : s.closeAll.initialized = s.initialized := rfl
@[simp] theorem closeAll_low : s.closeAll.low = s.low := rfl
@[simp] theorem closeAll_held : s.closeAll.held = [] := rfl
@[simp] theorem closeAll_retry : s.closeAll.retry = [] := rfl
@[simp] theorem closeAll_txseq : s.closeAll.txseq = s.txseq := rfl
@[simp] theorem closeAll_queue : s.closeAll.queue = s.queue := rfl
@[simp] theorem closeAll_trace : s.closeAll.trace = s.trace ++ s.heldReleases .closed := rfl
@[simp] theorem closeAll_taken : s.closeAll.taken = s.taken := rfl
@[simp] theorem closeAll_consumerReady : s.closeAll.consumerReady = s.consumerReady := rfl

/-! ### rerequest -/

@[simp] theorem rerequest_cfg (f c : U16) : (s.rerequest f c).cfg = s.cfg := rfl
@[simp] theorem rerequest_mode (f c : U16) : (s.rerequest f c).mode = s.mode := rfl
@[simp] theorem rerequest_initialized (f c : U16) : (s.rerequest f c).initialized = s.initialized := rfl
@[simp] theorem rerequest_low (f c : U16) : (s.rerequest f c).low = s.low := rfl
@[simp] theorem rerequest_held (f c : U16) : (s.rerequest f c).held = s.held := rfl
@[simp] theorem rerequest_retry (f c : U16) : (s.rerequest f c).retry = s.retry := rfl
@[simp] theorem rerequest_txseq (f c : U16) : (s.rerequest f c).txseq = add16 s.txseq 1 := rfl
@[simp] theorem rerequest_queue (f c : U16) : (s.rerequest f c).queue = s.queue := rfl
@[simp] theorem rerequest_trace (f c : U16) :
    (s.rerequest f c).trace = s.trace ++ [.rrq (encodeRrq s.txseq f c)] := rfl
@[simp] theorem rerequest_taken (f c : U16) : (s.rerequest f c).taken = s.taken := rfl
@[simp] theorem rerequest_consumerReady (f c : U16) : (s.rerequest f c).consumerReady = s.consumerReady := rfl

/-! ### takeEvent, placeEvent, handOver -/

@[simp] theorem takeEvent_cfg (q : List Slot) : (s.takeEvent q).cfg = s.cfg := rfl
@[simp] theorem takeEvent_mode (q : List Slot) : (s.takeEvent q).mode = s.mode := rfl
@[simp] theorem takeEvent_initialized (q : List Slot) : (s.takeEvent q).initialized = s.initialized := rfl
@[simp] theorem takeEvent_low (q : List Slot) : (s.takeEvent q).low = s.low := rfl
@[simp] theorem takeEvent_held (q : List Slot) : (s.takeEvent q).held = s.held := rfl
@[simp] theorem takeEvent_retry (q : List Slot) : (s.takeEvent q).retry = s.retry := rfl
@[simp] theorem takeEvent_txseq (q : List Slot) : (s.takeEvent q).txseq = s.txseq := rfl
@[simp] theorem takeEvent_queue (q : List Slot) : (s.takeEvent q).queue = q := rfl
@[simp] theorem takeEvent_trace (q : List Slot) : (s.takeEvent q).trace = s.trace := rfl
@[simp] theorem takeEvent_taken (q : List Slot) : (s.takeEvent q).taken = s.taken := rfl
@[simp] theorem takeEvent_consumerReady (q : List Slot) : (s.takeEvent q).consumerReady = s.consumerReady := rfl
@[simp] theorem placeEvent_queue (e : Slot) : (s.placeEvent e).queue = e :: s.queue := rfl

/-- `handOver` changes `taken` only. -/
theorem handOver_eq : s.handOver = { s with taken := if s.consumerReady then s.trace.length else s.taken } := by
  unfold State.handOver
  split <;> rfl

@[simp] theorem handOver_cfg : s.handOver.cfg = s.cfg := by rw [handOver_eq]
@[simp] theorem handOver_mode : s.handOver.mode = s.mode := by rw [handOver_eq]
@[simp] theorem handOver_initialized : s.handOver.initialized = s.initialized := by rw [handOver_eq]
@[simp] theorem handOver_low : s.handOver.low = s.low := by rw [handOver_eq]
@[simp] theorem handOver_held : s.handOver.held = s.held := by rw [handOver_eq]
@[simp] theorem handOver_retry : s.handOver.retry = s.retry := by rw [handOver_eq]
@[simp] theorem handOver_txseq : s.handOver.txseq = s.txseq := by rw [handOver_eq]
@[simp] theorem handOver_queue : s.handOver.queue = s.queue := by rw [handOver_eq]
@[simp] theorem handOver_trace : s.handOver.trace = s.trace := by rw [handOver_eq]
@[simp] theorem handOver_consumerReady : s.handOver.consumerReady = s.consumerReady := by rw [handOver_eq]

end Sys2Proof.Laws
end

