-- ==== Sys2Proof/Laws/Ops.lean ====
section
/-! SUPPORT. One lemma per shared operation, saying once everything it can do; proofs about events cite these. -/

namespace Sys2Proof.Laws

open Sys2Proof.Machine

/-! ### Slots and DRAIN -/

@[simp] theorem slotsFrom_zero (low : SeqNo) : slotsFrom low 0 = [] := rfl

@[simp] theorem length_slotsFrom (low : SeqNo) (n : Nat) : (slotsFrom low n).length = n := by
  simp [slotsFrom]

theorem mem_slotsFrom {low k : SeqNo} {n : Nat} : k ∈ slotsFrom low n ↔ ∃ i, i < n ∧ k = add16 low i := by
  simp [slotsFrom, eq_comm]

/-- The slots from `low`: `low` itself, then those from its successor. -/
theorem slotsFrom_succ (low : SeqNo) (n : Nat) :
    slotsFrom low (n + 1) = low :: slotsFrom (add16 low 1) n := by
  unfold slotsFrom
  rw [List.range_succ_eq_map]
  simp only [List.map_cons, add16_zero, List.map_map]
  congr 1
  apply List.map_congr_left
  intro i _
  simp only [Function.comp_apply, add16_add]
  congr 1
  omega

/-- What DRAIN does: the packets `qs` held at `low, low + 1, …` are delivered in that order and leave the store, `low`
moves past them and is then not held. Nothing else changes. -/
structure Drained (s t : State) (qs : List Packet) : Prop where
  eq      : t = { s with low := add16 s.low qs.length, held := t.held, trace := s.trace ++ qs.map .deliver }
  were    : ∀ i (h : i < qs.length), s.held.get? (add16 s.low i) = some qs[i]
  absent  : t.held.get? t.low = none
  held    : ∀ k, t.held.get? k = if k ∈ slotsFrom s.low qs.length then none else s.held.get? k
  wf      : s.held.wf = true → t.held.wf = true

theorem drainLoop_spec (n : Nat) (s : State) (hn : s.held.length ≤ n) : ∃ qs, Drained s (s.drainLoop n) qs := by
  induction n generalizing s with
  | zero =>
    have hs : s.held = [] := List.length_eq_zero_iff.mp (by omega)
    exact ⟨[], ⟨by simp [State.drainLoop], by simp, by simp [State.drainLoop, hs], by simp [State.drainLoop], id⟩⟩
  | succ n ih =>
    unfold State.drainLoop
    cases hq : s.held.get? s.low with
    | none => exact ⟨[], ⟨by simp, by simp, by simpa using hq, by simp, id⟩⟩
    | some q =>
      have hlt := length_del_lt s.held s.low (by simp [Store.has, hq])
      obtain ⟨qs, h⟩ := ih (State.deliver q { s with held := s.held.del s.low }) (by simp; omega)
      refine ⟨q :: qs, ⟨?_, ?_, h.absent, ?_, fun hw => h.wf (del_wf _ _ hw)⟩⟩
      · refine h.eq.trans ?_
        simp only [deliver_low, add16_add, List.length_cons, Nat.add_comm 1, deliver_trace]
        simp [State.deliver, State.emit]
      · intro i hi
        cases i with
        | zero => simpa using hq
        | succ i =>
          have hi' : i < qs.length := by simpa using hi
          have hw := h.were i hi'
          simp only [deliver_held, deliver_low, add16_add, Nat.add_comm 1, get?_del] at hw
          split at hw
          · simp at hw
          · simpa using hw
      · intro k
        rw [h.held k]
        simp only [deliver_low, deliver_held, List.length_cons, slotsFrom_succ, List.mem_cons, get?_del]
        by_cases hk : k = s.low <;> by_cases hm : k ∈ slotsFrom (add16 s.low 1) qs.length <;> simp [hk, hm]

theorem drain_spec (s : State) : ∃ qs, Drained s s.drain qs := drainLoop_spec _ s le_rfl

theorem Drained.frame {s t : State} {qs : List Packet} (h : Drained s t qs) :
    t.cfg = s.cfg ∧ t.mode = s.mode ∧ t.initialized = s.initialized ∧ t.low = add16 s.low qs.length ∧
      t.retry = s.retry ∧ t.txseq = s.txseq ∧ t.queue = s.queue ∧ t.trace = s.trace ++ qs.map .deliver ∧
      t.taken = s.taken ∧ t.consumerReady = s.consumerReady := by
  rw [h.eq]
  exact ⟨rfl, rfl, rfl, rfl, rfl, rfl, rfl, rfl, rfl, rfl⟩

/-- DRAIN does nothing where `low` is not held. -/
theorem drain_of_absent (s : State) (h : s.held.get? s.low = none) : s.drain = s := by
  unfold State.drain
  cases hn : s.held.length with
  | zero => rfl
  | succ n => simp [State.drainLoop, h]

/-! ### HANDLE -/

/-- Steps 2 to 5 of HANDLE: the four ways they end. -/
theorem place_cases (p : Packet) (s : State) :
    (p.sn = s.low ∧ s.place p = (State.deliver p { s with retry := s.retry.del p.sn }).drain) ∨
    (p.sn ≠ s.low ∧ s.dist p.sn < 0 ∧
      s.place p = State.release .stale (.packet p) { s with retry := s.retry.del p.sn }) ∨
    (p.sn ≠ s.low ∧ 0 ≤ s.dist p.sn ∧ s.held.has p.sn = true ∧
      s.place p = State.release .duplicate (.packet p) { s with retry := s.retry.del p.sn }) ∨
    (p.sn ≠ s.low ∧ 0 ≤ s.dist p.sn ∧ s.held.has p.sn = false ∧
      s.place p = { s with retry := s.retry.del p.sn, held := s.held.set p.sn p }) := by
  have hd : ∀ R : Store U32, State.dist { s with retry := R } = s.dist := fun _ => rfl
  unfold State.place
  simp only [hd]
  by_cases h1 : p.sn = s.low
  · exact .inl ⟨h1, by simp [h1]⟩
  · by_cases h2 : s.dist p.sn < 0
    · exact .inr (.inl ⟨h1, h2, by simp [h1, h2]⟩)
    · by_cases h3 : s.held.has p.sn = true
      · exact .inr (.inr (.inl ⟨h1, by omega, h3, by simp [h1, h2, h3]⟩))
      · exact .inr (.inr (.inr ⟨h1, by omega, by simpa using h3, by simp [h1, h2, h3]⟩))

/-- HANDLE: what step 1 decides. -/
theorem handle_cases (p : Packet) (s : State) :
    (s.initialized = true ∧ s.handle p = (s.emit (.input p.sn p.rx)).place p) ∨
    (s.initialized = false ∧ p.rx = true ∧
      s.handle p = (s.emit (.input p.sn p.rx)).release .retxBeforeInit (.packet p)) ∨
    (s.initialized = false ∧ p.rx = false ∧
      s.handle p = State.place p { s.emit (.input p.sn p.rx) with low := p.sn, initialized := true }) := by
  unfold State.handle
  by_cases h1 : s.initialized = true
  · exact .inl ⟨h1, by simp [h1]⟩
  · by_cases h2 : p.rx = true
    · exact .inr (.inl ⟨by simpa using h1, h2, by simp [h1, h2]⟩)
    · exact .inr (.inr ⟨by simpa using h1, by simpa using h2, by simp [h1, h2]⟩)

/-! ### The datagram length checks -/

theorem withinDgram_of_le (B : List Byte) (body : State → State) (s : State) (h : B.length ≤ s.cfg.maxDgram) :
    s.withinDgram B body = body s := by
  simp [State.withinDgram, Nat.not_lt.mpr h]

theorem withinDgram_of_lt (B : List Byte) (body : State → State) (s : State) (h : s.cfg.maxDgram < B.length) :
    s.withinDgram B body = s.release .oversize (.raw B) := by
  simp [State.withinDgram, h]

theorem atLeast_of_le (n : Nat) (B : List Byte) (body : State → State) (s : State) (h : n ≤ B.length) :
    s.atLeast n B body = body s := by
  simp [State.atLeast, Nat.not_lt.mpr h]

theorem atLeast_of_lt (n : Nat) (B : List Byte) (body : State → State) (s : State) (h : B.length < n) :
    s.atLeast n B body = s.release .short (.raw B) := by
  simp [State.atLeast, h]

/-! ### TICK -/

theorem mem_runSlots {r : Run} {k : SeqNo} : k ∈ r.slots ↔ ∃ i, i < r.count ∧ k = add16 r.start i := mem_slotsFrom

theorem bumpAll_wf (R : Store U32) (ks : List SeqNo) (h : R.wf = true) : (bumpAll R ks).wf = true := by
  induction ks generalizing R with
  | nil => exact h
  | cons k r ih => exact ih _ (set_wf _ _ _ h)

theorem delAll_wf (R : Store U32) (ks : List SeqNo) (h : R.wf = true) : (delAll R ks).wf = true := by
  induction ks generalizing R with
  | nil => exact h
  | cons k r ih => exact ih _ (del_wf _ _ h)

theorem get?_delAll (R : Store U32) (ks : List SeqNo) (x : SeqNo) :
    (delAll R ks).get? x = if x ∈ ks then none else R.get? x := by
  induction ks generalizing R with
  | nil => simp [delAll]
  | cons k r ih =>
    simp only [delAll, ih, get?_del, List.mem_cons]
    by_cases h1 : x ∈ r <;> by_cases h2 : x = k <;> simp [h1, h2]

theorem get?_bump (R : Store U32) (k x : SeqNo) :
    (bump R k).get? x = if x = k then some (R.get0 k + 1) else R.get? x := get?_set ..

theorem get?_bumpAll_of_not_mem (R : Store U32) (ks : List SeqNo) (x : SeqNo) (h : x ∉ ks) :
    (bumpAll R ks).get? x = R.get? x := by
  induction ks generalizing R with
  | nil => rfl
  | cons k r ih =>
    rw [List.mem_cons, not_or] at h
    rw [bumpAll, ih _ h.2, get?_bump, if_neg h.1]

/-- Over distinct slots, each count goes up by exactly one (R123). -/
theorem get?_bumpAll_of_mem (R : Store U32) (ks : List SeqNo) (x : SeqNo) (hd : ks.Nodup) (h : x ∈ ks) :
    (bumpAll R ks).get? x = some (R.get0 x + 1) := by
  induction ks generalizing R with
  | nil => simp at h
  | cons k r ih =>
    rw [List.nodup_cons] at hd
    rw [bumpAll]
    by_cases hx : x = k
    · subst hx
      rw [get?_bumpAll_of_not_mem _ _ _ hd.1, get?_bump, if_pos rfl]
    · have hm : x ∈ r := (List.mem_cons.mp h).resolve_left hx
      rw [ih _ hd.2 hm, Store.get0, get?_bump, if_neg hx, Store.get0]

/-- One missing run: counted, then one of three ends (R123 to R125). -/
theorem scanRun_cases (r : Run) (s : State) :
    ∃ u : State, u = { s with retry := bumpAll s.retry r.slots } ∧
      ((s.cfg.giveup ≤ levelOf u.retry r.slots ∧ s.scanRun r = u.giveUp r) ∨
       (levelOf u.retry r.slots < s.cfg.giveup ∧ levelOf u.retry r.slots ∈ s.cfg.rrqLevels ∧
          s.scanRun r = u.rerequest r.start (BitVec.ofNat 16 r.count)) ∨
       (levelOf u.retry r.slots < s.cfg.giveup ∧ levelOf u.retry r.slots ∉ s.cfg.rrqLevels ∧ s.scanRun r = u)) := by
  refine ⟨_, rfl, ?_⟩
  unfold State.scanRun
  by_cases h1 : s.cfg.giveup ≤ levelOf (bumpAll s.retry r.slots) r.slots
  · exact .inl ⟨h1, by simp [h1]⟩
  · by_cases h2 : levelOf (bumpAll s.retry r.slots) r.slots ∈ s.cfg.rrqLevels
    · exact .inr (.inl ⟨by simpa using h1, h2, by simp [h1, h2]⟩)
    · exact .inr (.inr ⟨by simpa using h1, h2, by simp [h1, h2]⟩)

/-- Give-up: EVICT, the counts deleted, and at `low` the gap skipped and DRAIN (R124). -/
theorem giveUp_cases (r : Run) (s : State) :
    ∃ u : State, u = { s.emit (.evict r.start (BitVec.ofNat 16 r.count)) with retry := delAll s.retry r.slots } ∧
      ((r.start = s.low ∧ s.giveUp r = State.drain { u with low := add16 r.start r.count }) ∨
       (r.start ≠ s.low ∧ s.giveUp r = u)) := by
  refine ⟨_, rfl, ?_⟩
  unfold State.giveUp
  by_cases h : r.start = s.low
  · exact .inl ⟨h, by simp [h]⟩
  · exact .inr ⟨h, by simp [h]⟩

/-- TICK with `held` empty scans no run (R121). -/
@[simp] theorem tickRuns_of_empty (s : State) (h : s.held = []) : s.tickRuns = [] := by
  simp [State.tickRuns, h, Store.keys, farthest]

/-! ### What no operation of HANDLE or TICK touches -/

/-- The fields no event writes, and that the trace only grows (10_state.md R39, R48, R49). -/
structure Kept (s t : State) : Prop where
  cfg           : t.cfg = s.cfg
  queue         : t.queue = s.queue
  taken         : t.taken = s.taken
  consumerReady : t.consumerReady = s.consumerReady
  trace         : ∃ new, t.trace = s.trace ++ new

theorem Kept.refl (s : State) : Kept s s := ⟨rfl, rfl, rfl, rfl, [], by simp⟩

theorem Kept.trans {s t u : State} (h : Kept s t) (k : Kept t u) : Kept s u := by
  obtain ⟨a, ha⟩ := h.trace
  obtain ⟨b, hb⟩ := k.trace
  exact ⟨k.cfg.trans h.cfg, k.queue.trans h.queue, k.taken.trans h.taken,
    k.consumerReady.trans h.consumerReady, a ++ b, by simp [hb, ha]⟩

/-- The same, the later part first. -/
theorem Kept.after {s t u : State} (k : Kept t u) (h : Kept s t) : Kept s u := h.trans k

theorem kept_emit (s : State) (r : Record) : Kept s (s.emit r) := ⟨rfl, rfl, rfl, rfl, [r], rfl⟩

theorem kept_release (s : State) (c : Reason) (x : Item) : Kept s (s.release c x) := kept_emit ..

theorem Drained.kept {s t : State} {qs : List Packet} (h : Drained s t qs) : Kept s t := by
  obtain ⟨h1, -, -, -, -, -, h2, h3, h4, h5⟩ := h.frame
  exact ⟨h1, h2, h4, h5, _, h3⟩

theorem kept_drain (s : State) : Kept s s.drain := by
  obtain ⟨qs, h⟩ := drain_spec s
  exact h.kept

theorem kept_place (p : Packet) (s : State) : Kept s (s.place p) := by
  obtain ⟨-, h⟩ | ⟨-, -, h⟩ | ⟨-, -, -, h⟩ | ⟨-, -, -, h⟩ := place_cases p s <;> rw [h]
  · exact (kept_drain _).after ⟨rfl, rfl, rfl, rfl, [.deliver p], rfl⟩
  · exact ⟨rfl, rfl, rfl, rfl, _, rfl⟩
  · exact ⟨rfl, rfl, rfl, rfl, _, rfl⟩
  · exact ⟨rfl, rfl, rfl, rfl, [], by simp⟩

theorem kept_handle (p : Packet) (s : State) : Kept s (s.handle p) := by
  obtain ⟨-, h⟩ | ⟨-, -, h⟩ | ⟨-, -, h⟩ := handle_cases p s <;> rw [h]
  · exact (kept_emit ..).trans (kept_place ..)
  · exact (kept_emit ..).trans (kept_release ..)
  · exact (kept_place ..).after ⟨rfl, rfl, rfl, rfl, _, rfl⟩

theorem kept_flushAll (s : State) : Kept s s.flushAll := ⟨rfl, rfl, rfl, rfl, _, rfl⟩

theorem kept_closeAll (s : State) : Kept s s.closeAll := ⟨rfl, rfl, rfl, rfl, _, rfl⟩

theorem kept_rerequest (s : State) (f c : U16) : Kept s (s.rerequest f c) := ⟨rfl, rfl, rfl, rfl, _, rfl⟩

theorem kept_giveUp (r : Run) (s : State) : Kept s (s.giveUp r) := by
  obtain ⟨u, hu, ⟨-, h⟩ | ⟨-, h⟩⟩ := giveUp_cases r s <;> rw [h, hu]
  · exact (kept_drain _).after ⟨rfl, rfl, rfl, rfl, _, rfl⟩
  · exact ⟨rfl, rfl, rfl, rfl, _, rfl⟩

theorem kept_scanRun (r : Run) (s : State) : Kept s (s.scanRun r) := by
  obtain ⟨u, hu, ⟨-, h⟩ | ⟨-, -, h⟩ | ⟨-, -, h⟩⟩ := scanRun_cases r s <;> rw [h, hu]
  · exact (kept_giveUp ..).after ⟨rfl, rfl, rfl, rfl, [], by simp⟩
  · exact ⟨rfl, rfl, rfl, rfl, _, rfl⟩
  · exact ⟨rfl, rfl, rfl, rfl, [], by simp⟩

theorem kept_scanRuns (l : List Run) (s : State) : Kept s (s.scanRuns l) := by
  induction l generalizing s with
  | nil => exact Kept.refl s
  | cons r l ih => exact (kept_scanRun r s).trans (ih _)

theorem kept_withinDgram (B : List Byte) (body : State → State) (s : State) (h : Kept s (body s)) :
    Kept s (s.withinDgram B body) := by
  unfold State.withinDgram
  split
  · exact kept_release ..
  · exact h

theorem kept_atLeast (n : Nat) (B : List Byte) (body : State → State) (s : State) (h : Kept s (body s)) :
    Kept s (s.atLeast n B body) := by
  unfold State.atLeast
  split
  · exact kept_release ..
  · exact h

end Sys2Proof.Laws
end

