-- ==== Sys2Proof/Laws/PerInstr.lean ====
section
/-! SUPPORT. For every instruction: what the encoder writes matches the instruction's row of spec/opcode_table.json. -/

namespace Sys2Proof.Laws

open Sys2Proof.Machine

/-- An event word matches the row of its mnemonic; a wire row's bytes match the row of its mnemonic on its channel. -/
def MatchesRow.Statement (i : Instr) : Prop :=
  WellFormed i = true → ∀ tx : U16,
    match encode tx i with
    | .event e   => ∃ r ∈ eventRows, r.mnemonic = i.mnemonic ∧ r.covers e.word = true
    | .wire ch B => ∃ r ∈ wireRows, r.mnemonic = i.mnemonic ∧ r.channel = ch ∧ r.covers B = true

/-! ### Event words -/

theorem wordP_and (sn : SeqNo) (rx : Bool) (n : Nat) : wordP sn rx n &&& 0xFFFFF800FFFE0000 = 0 := by
  have hm : (0xFFFFF800FFFE0000 : EventWord) =
      (0xF#4 ++ 0x1FFFF#17 ++ 0#11 ++ 0x7FFF#15 ++ 0#1 ++ 0#16 : BitVec (4 + 17 + 11 + 15 + 1 + 16)) := by decide
  rw [hm]
  show (0#4 ++ 0#17 ++ BitVec.ofNat 11 n ++ 0#15 ++ BitVec.ofBool rx ++ sn : BitVec (4 + 17 + 11 + 15 + 1 + 16)) &&&
    (0xF#4 ++ 0x1FFFF#17 ++ 0#11 ++ 0x7FFF#15 ++ 0#1 ++ 0#16) = 0
  simp only [BitVec.and_append, BitVec.and_zero, BitVec.zero_and]
  decide

theorem wordX_and (tag : BitVec 4) (n : Nat) :
    wordX tag n &&& 0xFFFFF800FFFFFFFF = wordN tag := by
  have hm : (0xFFFFF800FFFFFFFF : EventWord) =
      (0xF#4 ++ 0x1FFFF#17 ++ 0#11 ++ 0xFFFFFFFF#32 : BitVec (4 + 17 + 11 + 32)) := by decide
  rw [hm]
  show (tag ++ 0#17 ++ BitVec.ofNat 11 n ++ 0#32 : BitVec (4 + 17 + 11 + 32)) &&&
    (0xF#4 ++ 0x1FFFF#17 ++ 0#11 ++ 0xFFFFFFFF#32) = _
  simp only [BitVec.and_append, BitVec.and_zero, BitVec.zero_and]
  revert tag
  decide

theorem wordD_and (a b : SeqNo) : wordD a b &&& 0xFFFFFFFF00000000 = 0x4000000000000000 := by
  have hm : (0xFFFFFFFF00000000 : EventWord) =
      (0xF#4 ++ 0xFFFFFFF#28 ++ 0#16 ++ 0#16 : BitVec (4 + 28 + 16 + 16)) := by decide
  rw [hm]
  show (4#4 ++ 0#28 ++ a ++ b : BitVec (4 + 28 + 16 + 16)) &&& (0xF#4 ++ 0xFFFFFFF#28 ++ 0#16 ++ 0#16) = _
  simp only [BitVec.and_append, BitVec.and_zero, BitVec.zero_and]
  decide
/-! ### Byte windows -/

/-- A mask taken apart at a bit position. -/
theorem land_split (a b c d n : Nat) (hb : b < 2 ^ n) (hd : d < 2 ^ n) :
    (a * 2 ^ n + b) &&& (c * 2 ^ n + d) = (a &&& c) * 2 ^ n + (b &&& d) := by
  apply Nat.eq_of_testBit_eq
  intro i
  rw [Nat.testBit_and, Nat.mul_comm a, Nat.mul_comm c, Nat.mul_comm (a &&& c),
    Nat.testBit_two_pow_mul_add _ hb, Nat.testBit_two_pow_mul_add _ hd,
    Nat.testBit_two_pow_mul_add _ (lt_of_le_of_lt Nat.and_le_left hb)]
  split <;> simp [Nat.testBit_and]

theorem payloadType_toNat (B : List Byte) : (payloadType B).toNat = (byteAt B 1).toNat % 128 := by
  simp [payloadType, BitVec.extractLsb'_toNat]

theorem windowNat_two (B : List Byte) (h : 2 ≤ B.length) :
    windowNat 2 B = (byteAt B 0).toNat * 2 ^ 8 + (byteAt B 1).toNat := by
  match B, h with
  | b0 :: b1 :: r, _ => simp [windowNat, byteAt]

/-- The rows with mask `0x007F` read the payload type. -/
theorem windowNat_type (B : List Byte) (h : 2 ≤ B.length) :
    windowNat 2 B &&& 0x7F = (payloadType B).toNat := by
  rw [windowNat_two B h, payloadType_toNat, show (0x7F : Nat) = 2 ^ 7 - 1 by decide, Nat.and_two_pow_sub_one_eq_mod]
  omega

/-- Two bytes joined, as a number (00_scope.md R21). -/
theorem toNat_join (a b : Byte) : (a ++ b : U16).toNat = a.toNat * 2 ^ 8 + b.toNat := by
  show (a ++ b : BitVec (8 + 8)).toNat = _
  rw [BitVec.toNat_append, ← Nat.shiftLeft_add_eq_or_of_lt b.isLt, Nat.shiftLeft_eq]

/-- The row of DECLINE reads the payload type and the status. -/
theorem windowNat_decline (B : List Byte) (h : 6 ≤ B.length) :
    windowNat 6 B &&& 0x007F0000FFFF = (payloadType B).toNat * 2 ^ 32 + (statusOf B).toNat := by
  match B, h with
  | b0 :: b1 :: b2 :: b3 :: b4 :: b5 :: r, _ =>
    have hw : windowNat 6 (b0 :: b1 :: b2 :: b3 :: b4 :: b5 :: r) =
        ((b0.toNat * 2 ^ 8 + b1.toNat) * 2 ^ 16 + (b2.toNat * 2 ^ 8 + b3.toNat)) * 2 ^ 16
          + (b4.toNat * 2 ^ 8 + b5.toNat) := by
      simp only [windowNat]
      omega
    have h2 := b2.isLt
    have h3 := b3.isLt
    have h4 := b4.isLt
    have h5 := b5.isLt
    have hs : (statusOf (b0 :: b1 :: b2 :: b3 :: b4 :: b5 :: r)).toNat = b4.toNat * 2 ^ 8 + b5.toNat := by
      simp only [statusOf, be16, toNat_join]
      simp [byteAt]
    rw [hw, hs, payloadType_toNat, show (0x007F0000FFFF : Nat) = (0x7F * 2 ^ 16 + 0) * 2 ^ 16 + (2 ^ 16 - 1) by decide,
      land_split _ _ _ _ _ (by omega) (by decide), land_split _ _ _ _ _ (by omega) (by decide),
      Nat.and_two_pow_sub_one_eq_mod, show (0x7F : Nat) = 2 ^ 7 - 1 by decide, Nat.and_two_pow_sub_one_eq_mod]
    simp only [byteAt, List.getD_cons_succ, List.getD_cons_zero, Nat.and_zero]
    omega

theorem covers_type {m : String} {c : Channel} {v : Nat} (B : List Byte) (h : 2 ≤ B.length)
    (hv : (payloadType B).toNat = v) : (WireRow.mk m c v 0x7F 2).covers B = true := by
  simp [WireRow.covers, h, windowNat_type, hv]

theorem covers_any {m : String} {c : Channel} (B : List Byte) (h : 2 ≤ B.length) :
    (WireRow.mk m c 0 0 2).covers B = true := by
  simp [WireRow.covers, h]

theorem hasType_length {B : List Byte} (h : hasType B = true) : 2 ≤ B.length := by
  simp [hasType] at h
  exact h.2

/-! ### One lemma per constructor -/

namespace MatchesRow

theorem pkt (sn : SeqNo) (rx : Bool) (B : List Byte) : Statement (.pkt sn rx B) := fun _ _ =>
  ⟨⟨"PKT", 0x0000000000000000, 0xFFFFF800FFFE0000⟩, by decide, rfl, beq_iff_eq.mpr (wordP_and ..)⟩

theorem tick : Statement .tick := fun _ _ =>
  ⟨⟨"TICK", 0x1000000000000000, 0xFFFFFFFFFFFFFFFF⟩, by decide, rfl, by decide⟩

theorem flush : Statement .flush := fun _ _ =>
  ⟨⟨"FLUSH", 0x2000000000000000, 0xFFFFFFFFFFFFFFFF⟩, by decide, rfl, by decide⟩

theorem close : Statement .close := fun _ _ =>
  ⟨⟨"CLOSE", 0x3000000000000000, 0xFFFFFFFFFFFFFFFF⟩, by decide, rfl, by decide⟩

theorem delta (a b : SeqNo) : Statement (.delta a b) := fun _ _ =>
  ⟨⟨"DELTA", 0x4000000000000000, 0xFFFFFFFF00000000⟩, by decide, rfl, beq_iff_eq.mpr (wordD_and ..)⟩

theorem rxc (B : List Byte) : Statement (.rxc B) := fun _ _ =>
  ⟨⟨"RXC", 0x5000000000000000, 0xFFFFF800FFFFFFFF⟩, by decide, rfl, beq_iff_eq.mpr ((wordX_and ..).trans (by decide))⟩

theorem rxd (B : List Byte) : Statement (.rxd B) := fun _ _ =>
  ⟨⟨"RXD", 0x6000000000000000, 0xFFFFF800FFFFFFFF⟩, by decide, rfl, beq_iff_eq.mpr ((wordX_and ..).trans (by decide))⟩

theorem rxcTiming (B : List Byte) : Statement (.rxcTiming B) := by
  intro h _
  simp only [WellFormed, Bool.and_eq_true, beq_iff_eq] at h
  exact ⟨⟨"RXC.TIMING", .control, 0x54, 0x7F, 2⟩, by decide, rfl, rfl,
    covers_type B (hasType_length h.1) (by rw [h.2]; rfl)⟩

theorem rxcEcho (B : List Byte) : Statement (.rxcEcho B) := by
  intro h _
  simp only [WellFormed, Bool.and_eq_true, beq_iff_eq] at h
  exact ⟨⟨"RXC.ECHO", .control, 0x55, 0x7F, 2⟩, by decide, rfl, rfl,
    covers_type B (hasType_length h.1) (by rw [h.2]; rfl)⟩

theorem rxcDecline (B : List Byte) : Statement (.rxcDecline B) := by
  intro h _
  simp only [WellFormed, declines, Bool.and_eq_true, beq_iff_eq, decide_eq_true_eq] at h
  refine ⟨⟨"RXC.DECLINE", .control, 0x005600000001, 0x007F0000FFFF, 6⟩, by decide, rfl, rfl, ?_⟩
  simp only [WireRow.covers, Bool.and_eq_true, decide_eq_true_eq, beq_iff_eq]
  refine ⟨h.2.1, ?_⟩
  rw [windowNat_decline B h.2.1, h.1.2, h.2.2]
  rfl

theorem rxcRecovered (B : List Byte) : Statement (.rxcRecovered B) := by
  intro h _
  simp only [WellFormed, Bool.and_eq_true, beq_iff_eq] at h
  exact ⟨⟨"RXC.RECOVERED", .control, 0x56, 0x7F, 2⟩, by decide, rfl, rfl,
    covers_type B (hasType_length h.1.1) (by rw [h.1.2]; rfl)⟩

theorem rxdAudio (B : List Byte) : Statement (.rxdAudio B) := by
  intro h _
  simp only [WellFormed, Bool.and_eq_true, beq_iff_eq] at h
  exact ⟨⟨"RXD.AUDIO", .data, 0x60, 0x7F, 2⟩, by decide, rfl, rfl,
    covers_type B (hasType_length h.1) (by rw [h.2]; rfl)⟩

theorem rxcUnknown (B : List Byte) : Statement (.rxcUnknown B) := by
  intro h _
  simp only [WellFormed, Bool.and_eq_true] at h
  exact ⟨⟨"RXC.UNKNOWN", .control, 0, 0, 2⟩, by decide, rfl, rfl, covers_any B (hasType_length h.1.1.1)⟩

theorem rxdUnknown (B : List Byte) : Statement (.rxdUnknown B) := by
  intro h _
  simp only [WellFormed, Bool.and_eq_true] at h
  exact ⟨⟨"RXD.UNKNOWN", .data, 0, 0, 2⟩, by decide, rfl, rfl, covers_any B (hasType_length h.1)⟩

theorem rrq (f c : U16) : Statement (.rrq f c) := by
  intro _ tx
  refine ⟨⟨"RRQ", .controlOut, 0x80D5000000000000, 0xFFFF000000000000, 8⟩, by decide, rfl, rfl, ?_⟩
  have ht := (tx.extractLsb' 8 8).isLt
  have ht' := (tx.extractLsb' 0 8).isLt
  have hf := (f.extractLsb' 8 8).isLt
  have hf' := (f.extractLsb' 0 8).isLt
  have hc := (c.extractLsb' 8 8).isLt
  have hc' := (c.extractLsb' 0 8).isLt
  have hw : windowNat 8 (rrqBytes tx f c) = 0x80D5 * 2 ^ 48 + windowNat 6 (put16 tx ++ put16 f ++ put16 c) := by
    have h2 : ∀ (a b : Byte) (R : List Byte),
        windowNat 8 (a :: b :: R) = (a.toNat * 2 ^ 8 + b.toNat) * 2 ^ 48 + windowNat 6 R := by
      intro a b R
      simp only [windowNat, Nat.reduceMul, Nat.reducePow]
      omega
    exact (h2 _ _ _).trans (by congr 1)
  have hlt : windowNat 6 (put16 tx ++ put16 f ++ put16 c) < 2 ^ 48 := by
    simp only [put16, windowNat, List.cons_append, List.nil_append, Nat.reduceMul, Nat.reducePow]
    omega
  simp only [WireRow.covers, Bool.and_eq_true, decide_eq_true_eq, beq_iff_eq]
  refine ⟨by simp [rrqBytes, put16], ?_⟩
  rw [hw, show (0xFFFF000000000000 : Nat) = 0xFFFF * 2 ^ 48 + 0 by decide, land_split _ _ _ _ _ hlt (by decide),
    Nat.and_zero]
  decide

end MatchesRow

end Sys2Proof.Laws
end

