-- ==== Sys2Proof/Laws/Run.lean ====
section
/-! SUPPORT. Sequences of events, what `low` passes, and the moves of the block and its host: what each can do, said
once. -/

namespace Sys2Proof.Laws

open Sys2Proof.Machine

/-! ### Sequences of events -/

@[simp] theorem afterEvents_nil (s : State) : s.afterEvents [] = s := rfl

theorem afterEvents_cons {i : Instr} {s t : State} (h : exec i s = .next t) (es : List Instr) :
    s.afterEvents (i :: es) = t.afterEvents es := by simp [State.afterEvents, h]

theorem StaysInStream.start {s : State} {es : List Instr} (h : s.StaysInStream es) : s.lifecycle = .stream := by
  simpa using h 0 (Nat.zero_le _)

theorem StaysInStream.tail {i : Instr} {s t : State} {es : List Instr} (h : s.StaysInStream (i :: es))
    (hx : exec i s = .next t) : t.StaysInStream es := fun n hn => by
  simpa [afterEvents_cons hx] using h (n + 1) (Nat.succ_le_succ hn)

/-! ### What `low` passes -/

theorem passedBy_append (a b : List Record) : passedBy (a ++ b) = passedBy a + passedBy b := by
  induction a with
  | nil => simp [passedBy]
  | cons r a ih => cases r <;> simp [passedBy, ih] <;> omega

/-- Records that read as a path of `low` move it by as many numbers as they deliver or evict. -/
theorem low_of_replayLow {rs : List Record} : ∀ {low x : SeqNo}, replayLow low rs = some x → x = add16 low (passedBy rs) := by
  induction rs with
  | nil => intro low x h; simpa [replayLow, passedBy] using h.symm
  | cons r rs ih =>
    intro low x h
    cases r <;> simp only [replayLow, passedBy] at h ⊢
    case deliver p =>
      split_ifs at h
      rw [ih h, add16_add, Nat.add_comm]
    case evict f c =>
      split_ifs at h
      rw [ih h, add16_add, Nat.add_comm]
    all_goals exact ih h

/-! ### Moves -/

/-- Everything a move can do: the block's step, or one field of the host's side. -/
theorem move_cases {m : Move} {s t : State} (h : s.move m = some t) :
    (m = .step ∧ step s = .next t) ∨
    (∃ e, m = .append e ∧ s.queue.length < s.cfg.queueDepth ∧ t = { s with queue := s.queue ++ [e] }) ∨
    (m = .take ∧ s.taken < s.trace.length ∧ t = { s with taken := s.taken + 1 }) ∨
    (∃ b, m = .consumer b ∧ t = { s with consumerReady := b }) := by
  cases m with
  | step =>
    refine .inl ⟨rfl, ?_⟩
    cases hs : step s <;> simp [State.move, hs] at h ⊢
    exact h
  | append e =>
    simp only [State.move, State.hostAppend] at h
    split_ifs at h with hl
    exact .inr (.inl ⟨e, rfl, hl, (Option.some.inj h).symm⟩)
  | take =>
    refine .inr (.inr (.inl ⟨rfl, ?_⟩))
    by_cases ht : s.taken < s.trace.length
    · refine ⟨ht, ?_⟩
      simpa [State.move, State.hostTake, List.getElem?_eq_getElem ht] using h.symm
    · simp [State.move, State.hostTake, List.getElem?_eq_none (Nat.le_of_not_lt ht)] at h
  | consumer b => exact .inr (.inr (.inr ⟨b, rfl, (Option.some.inj h).symm⟩))

/-- What a host agent does keeps the invariant. -/
theorem inv_of_hostMove {m : Move} {s t : State} (hm : m ≠ .step) (hi : s.Inv) (h : s.move m = some t) : t.Inv := by
  obtain ⟨rfl, -⟩ | ⟨e, -, -, rfl⟩ | ⟨-, ht, rfl⟩ | ⟨b, -, rfl⟩ := move_cases h
  · exact absurd rfl hm
  all_goals
    first
    | exact ⟨hi.1, hi.2, hi.3, hi.4, hi.5, hi.6, hi.7, hi.8, hi.9, hi.10, hi.11, hi.12, hi.13⟩
    | exact ⟨hi.1, hi.2, hi.3, hi.4, hi.5, hi.6, hi.7, hi.8, hi.9, hi.10, hi.11, hi.12, ht⟩

end Sys2Proof.Laws
end

