-- ==== Sys2Proof/Laws/Step.lean ====
section
/-! SUPPORT. What a step can do, said once. -/

namespace Sys2Proof.Laws

open Sys2Proof.Machine

theorem stop_eq_none {s : State} :
    s.stop = none ↔ configOk s.cfg = true ∧ s.startOk = true ∧ s.mode = .run ∧ s.queue ≠ [] ∧
      s.stalled = false := by
  unfold State.stop
  cases hm : s.mode <;> cases configOk s.cfg <;> cases s.startOk <;> cases s.stalled <;>
    cases s.queue <;> simp

@[simp] theorem settle_next (s : State) : settle (.next s) = .next s.handOver := rfl

/-- A step to a next state took the event at the queue head, performed it, and handed its records over. -/
theorem step_next {s t : State} (h : step s = .next t) :
    s.stop = none ∧ ∃ e rest i u, s.queue = e :: rest ∧ decode e = .ok i ∧
      exec i (s.takeEvent rest) = .next u ∧ t = u.handOver := by
  unfold step at h
  cases hs : s.stop with
  | some o =>
    exfalso
    simp only [hs] at h
    subst h
    unfold State.stop at hs
    split_ifs at hs <;> simp at hs
  | none =>
    simp only [hs] at h
    cases hq : s.queue with
    | nil => simp [hq] at h
    | cons e rest =>
      simp only [hq] at h
      cases hd : decode e with
      | error r => simp [hd] at h
      | ok i =>
        simp only [hd] at h
        cases hx : exec i (s.takeEvent rest) with
        | next u =>
          rw [hx, settle_next] at h
          exact ⟨rfl, e, rest, i, u, rfl, hd, hx, (Host.Outcome.next.inj h).symm⟩
        | fault f => simp [hx, settle] at h
        | refused r => simp [hx, settle] at h

end Sys2Proof.Laws
end

