-- ==== Sys2Proof/Tests/Slice0.lean ====
section
/-! SUPPORT. The model's own tests: well-formedness, words written out by hand from 30_encoding.md, single steps from the
vectors of 95_test_vectors.md, and for every obligation with hypotheses a witness that meets them. -/

namespace Sys2Proof.Tests

-- One theorem is checked after another: checked side by side, so many small ones ask for more threads than there are.
set_option Elab.async false

open Sys2Proof.Machine

/-! ## Helpers -/

/-- The state of an outcome that is a next state. -/
def nextOf : Host.Outcome State Fault Refusal → Option State
  | .next s    => some s
  | .fault _   => none
  | .refused _ => none

/-- The records of an outcome that is a next state, from an empty trace. -/
def recordsOf (o : Host.Outcome State Fault Refusal) : List Record := ((nextOf o).map State.trace).getD []

/-- The refusal of an outcome. -/
def refusalOf : Host.Outcome State Fault Refusal → Option Refusal
  | .next _    => none
  | .fault _   => none
  | .refused r => some r

/-- The fault of an outcome. -/
def faultOf : Host.Outcome State Fault Refusal → Option Fault
  | .next _    => none
  | .fault f   => some f
  | .refused _ => none

/-- The default configuration with a queue of 8 slots. -/
def cfg : Config := { Config.default with queueDepth := 8 }

/-- A packet without payload that did not come through recovery. -/
def pk (sn : SeqNo) : Packet := ⟨sn, false, []⟩

/-- Held packets without payload. -/
def heldOf (ks : List SeqNo) : Store Packet := ks.map (fun k => (k, pk k))

/-- A streaming state with an empty trace. -/
def streamAt (low : SeqNo) (held : List SeqNo) (retry : Store U32) : State :=
  { State.resetWith cfg with initialized := true, low := low, held := heldOf held, retry := retry }

/-- `n` bytes 0x00. -/
def zeros (n : Nat) : List Byte := List.replicate n 0

/-- 95_test_vectors.md section 2.2: `S5`. -/
def s5 : State := streamAt 5 [7] []

/-- The start of vector T1. -/
def gap : State := streamAt 5 [7] [(5, 2), (6, 2)]

/-- A gap at the 36th count. -/
def late : State := streamAt 5 [7] [(5, 36), (6, 36)]

/-- Two runs, the first at its 36th count, the second younger. -/
def twoRuns : State := streamAt 1 [3, 6] [(1, 36), (2, 36), (4, 5), (5, 5)]

/-- 95_test_vectors.md section 2.6: `S0`. -/
def s0 : State := streamAt 101 [103] []

/-- Nothing held. -/
def level : State := streamAt 5 [] []

/-- A closed block, with events left in its queue. -/
def shut : State := { level with mode := .closed, queue := [pktSlot 1 false, slotTick] }

/-- A block whose consumer has not taken a DELIVER record. -/
def stuck : State := { level with trace := [.deliver (pk 4)], queue := [slotTick], consumerReady := false }

/-- Reset under the configuration of these tests. -/
def rst : State := State.resetWith cfg

/-! ## Well-formedness: an ill-formed term for each check -/

theorem test_wf_refuses :
    WellFormed (.pkt 0 false (zeros 2048)) = false ∧ WellFormed (.rxc (zeros 2048)) = false ∧
    WellFormed (.rxd (zeros 2048)) = false ∧ WellFormed (.rxcTiming [0x80]) = false ∧
    WellFormed (.rxcTiming [0x80, 0x55]) = false ∧ WellFormed (.rxcEcho [0x80, 0x54]) = false ∧
    WellFormed (.rxcDecline [0x80, 0x56, 0, 0, 0, 2]) = false ∧ WellFormed (.rxcDecline [0x80, 0x54, 0, 0, 0, 1]) = false ∧
    WellFormed (.rxcRecovered [0x80, 0x56, 0, 0, 0, 1]) = false ∧ WellFormed (.rxcRecovered [0x80, 0x60]) = false ∧
    WellFormed (.rxdAudio [0x80, 0x61]) = false ∧ WellFormed (.rxcUnknown [0x80, 0xD4]) = false ∧
    WellFormed (.rxcUnknown [0x80, 0xD5]) = false ∧ WellFormed (.rxcUnknown [0x80, 0xD6]) = false ∧
    WellFormed (.rxdUnknown [0x80, 0xE0]) = false ∧ WellFormed (.rrq 1 0) = false ∧
    WellFormed (.rrq 1 32769) = false := by decide +kernel

theorem witness_DecodeOfEncodeIsTheInstruction :
    WellFormed (.pkt 0xFFFF true (zeros 2047)) = true ∧ WellFormed .tick = true ∧ WellFormed .flush = true ∧
    WellFormed .close = true ∧ WellFormed (.delta 1 0xFFFF) = true ∧ WellFormed (.rxc (zeros 2047)) = true ∧
    WellFormed (.rxd []) = true ∧ WellFormed (.rxcTiming [0x80, 0xD4]) = true ∧
    WellFormed (.rxcEcho [0x80, 0x55]) = true ∧ WellFormed (.rxcDecline [0x80, 0xD6, 0, 0, 0, 1]) = true ∧
    WellFormed (.rxcRecovered [0x80, 0x56]) = true ∧ WellFormed (.rxdAudio [0x80, 0x60]) = true ∧
    WellFormed (.rxcUnknown [0x80, 0x60]) = true ∧ WellFormed (.rxdUnknown [0x80, 0x54]) = true ∧
    WellFormed (.rrq 65535 1) = true ∧ WellFormed (.rrq 0 32768) = true := by decide +kernel

/-! ## Decoding: words written out from the formats of 30_encoding.md -/

/-- EV-P, bit by bit: TAG 0000, 17 reserved bits, LEN 00000000011, 15 reserved bits, RX 1, SN 1000000001100100. -/
theorem test_decode_pkt_bits :
    decode ⟨0b0000_00000000000000000_00000000011_000000000000000_1_1000000001100100, [7, 8, 9]⟩ =
      .ok (.pkt 0x8064 true [7, 8, 9]) := rfl

/-- EV-D, bit by bit: TAG 0100, 28 reserved bits, A, B. -/
theorem test_decode_delta_bits :
    decode ⟨0b0100_0000000000000000000000000000_0000000000001010_1111111111111010, []⟩ = .ok (.delta 10 65530) := rfl

/-- EV-X, bit by bit: TAG 0110, 17 reserved bits, LEN 00000000010, 32 reserved bits. -/
theorem test_decode_rxd_bits :
    decode ⟨0b0110_00000000000000000_00000000010_00000000000000000000000000000000, [0x80, 0x60]⟩ =
      .ok (.rxd [0x80, 0x60]) := rfl

/-- The other events' words (R82 to R85). -/
theorem test_decode_events :
    decode ⟨0x0000000000010005, []⟩ = .ok (.pkt 5 true []) ∧ decode ⟨0x1000000000000000, []⟩ = .ok .tick ∧
    decode ⟨0x2000000000000000, []⟩ = .ok .flush ∧ decode ⟨0x3000000000000000, []⟩ = .ok .close ∧
    decode ⟨0x5000000400000000, [0x80, 0xD4, 1, 2]⟩ = .ok (.rxc [0x80, 0xD4, 1, 2]) := ⟨rfl, rfl, rfl, rfl, rfl⟩

/-- Every window's class (R89 to R92), from the datagrams of 95_test_vectors.md X4, X6, X7, X9, X11, D2, D3, E2. -/
theorem test_decode_windows :
    decodeWire .control [0x80, 0xD4, 1, 2] = .ok (.rxcTiming [0x80, 0xD4, 1, 2]) ∧
    decodeWire .control [0x80, 0xD5, 0, 0, 0, 1, 0, 1] = .ok (.rxcEcho [0x80, 0xD5, 0, 0, 0, 1, 0, 1]) ∧
    decodeWire .control ([0x80, 0xD6, 0, 0, 0, 1] ++ zeros 10) = .ok (.rxcDecline ([0x80, 0xD6, 0, 0, 0, 1] ++ zeros 10)) ∧
    decodeWire .control [0x80, 0xD6, 0, 0, 0] = .ok (.rxcRecovered [0x80, 0xD6, 0, 0, 0]) ∧
    decodeWire .control [0x80, 0x60, 0, 0x66] = .ok (.rxcUnknown [0x80, 0x60, 0, 0x66]) ∧
    decodeWire .data [0x80, 0xE0, 0, 0x66] = .ok (.rxdAudio [0x80, 0xE0, 0, 0x66]) ∧
    decodeWire .data [0x80, 0x61, 0, 0x66] = .ok (.rxdUnknown [0x80, 0x61, 0, 0x66]) ∧
    decodeWire .controlOut [0x80, 0xD5, 0, 1, 0xB5, 0xE0, 0, 9] = .ok (.rrq 46560 9) :=
  ⟨rfl, rfl, rfl, rfl, rfl, rfl, rfl, rfl⟩

/-- 95_test_vectors.md section 2.8: refused words. -/
theorem test_decode_refuses :
    (∀ w ∈ [0x7000000000000000, 0xF000000000000000],
      decode ⟨w, []⟩ = .error .reservedTag) ∧
    (∀ w ∈ [0x1000000000000001, 0x2000000100000000, 0x0000000000020005, 0x0000080000000005, 0x4000000100000000,
        0x5000000000000001], decode ⟨w, []⟩ = .error .reservedBits) := by
  constructor <;> intro w hw <;> simp only [List.mem_cons, List.not_mem_nil, or_false] at hw
  · rcases hw with rfl | rfl <;> rfl
  · rcases hw with rfl | rfl | rfl | rfl | rfl | rfl <;> rfl

/-- A buffer that does not hold LEN bytes (R88), and a datagram with no byte 1 (R89). -/
theorem test_decode_refuses_buffers :
    decode ⟨0x0000000100000005, []⟩ = .error .badBuffer ∧ decode ⟨0x1000000000000000, [1]⟩ = .error .badBuffer ∧
    decodeWire .control [0x80] = .error .noRow ∧ decodeWire .data [] = .error .noRow ∧
    decodeWire .controlOut [0, 0xD5, 0, 0, 0, 1, 0, 1] = .error .noRow := ⟨rfl, rfl, rfl, rfl, rfl⟩

/-- The encoder on the words of 95_test_vectors.md (W1, H13, X7, E2). -/
theorem test_encode :
    encode 0 (.delta 10 65530) = .event ⟨0x40000000000AFFFA, []⟩ ∧
    encode 0 (.pkt 7 false (zeros 1801)) = .event ⟨0x0000070900000007, zeros 1801⟩ ∧
    encode 0 (.rxc [0x80, 0xD6, 0, 0, 0, 1]) = .event ⟨0x5000000600000000, [0x80, 0xD6, 0, 0, 0, 1]⟩ ∧
    encode 1 (.rrq 46560 9) = .wire .controlOut [0x80, 0xD5, 0, 1, 0xB5, 0xE0, 0, 9] := by decide +kernel

/-- The table's numbering: every row's pattern gives its instruction (RXD.UNKNOWN's bits name no channel, log 4). -/
theorem test_decode_table_words :
    (decodeTableWord 64 0x0000000000000000).map Instr.mnemonic = some "PKT" ∧
    (decodeTableWord 64 0x1000000000000000).map Instr.mnemonic = some "TICK" ∧
    (decodeTableWord 64 0x2000000000000000).map Instr.mnemonic = some "FLUSH" ∧
    (decodeTableWord 64 0x3000000000000000).map Instr.mnemonic = some "CLOSE" ∧
    (decodeTableWord 64 0x4000000000000000).map Instr.mnemonic = some "DELTA" ∧
    (decodeTableWord 64 0x5000000000000000).map Instr.mnemonic = some "RXC" ∧
    (decodeTableWord 64 0x6000000000000000).map Instr.mnemonic = some "RXD" ∧
    (decodeTableWord 16 0x0054).map Instr.mnemonic = some "RXC.TIMING" ∧
    (decodeTableWord 16 0x0055).map Instr.mnemonic = some "RXC.ECHO" ∧
    (decodeTableWord 48 0x005600000001).map Instr.mnemonic = some "RXC.DECLINE" ∧
    (decodeTableWord 16 0x0056).map Instr.mnemonic = some "RXC.RECOVERED" ∧
    (decodeTableWord 16 0x0060).map Instr.mnemonic = some "RXD.AUDIO" ∧
    (decodeTableWord 16 0x0000).map Instr.mnemonic = some "RXC.UNKNOWN" ∧
    (decodeTableWord 64 0x80D50000B5D20001).map Instr.mnemonic = some "RRQ" := by decide +kernel

/-- The host's word runs as the first event after reset, whatever the open queue depth. -/
theorem test_first_event_after_reset :
    recordsOf (step (State.reset.withFetchWord 64 0x0000000000000004)) = [.input 4 false, .deliver (pk 4)] ∧
    recordsOf (step (State.reset.withFetchWord 64 0x40000000000AFFFA)) = [.deltaResult 16] ∧
    recordsOf (step (State.reset.withFetchWord 16 0x0054)) = [.pass ([0, 0x54] ++ zeros 14)] ∧
    recordsOf (step (State.reset.withFetchWord 64 0x80D50000B5D20001)) =
      [.rrq [0x80, 0xD5, 0, 0, 0xB5, 0xD2, 0, 1]] := ⟨rfl, rfl, rfl, rfl⟩

/-! ## Single steps, from 95_test_vectors.md -/

/-- H5: ahead of `low`, stored. -/
theorem test_pkt_H5 : (nextOf (exec (.pkt 6 false []) s5)).map (fun t => (t.low, t.held.keys, t.trace)) =
    some (5, [6, 7], [.input 6 false]) := by decide +kernel

/-- H11: exactly half the range behind is behind. -/
theorem test_pkt_H11 : recordsOf (exec (.pkt 100 false []) (streamAt 32868 [] [])) =
    [.input 100 false, .release .stale (.packet (pk 100))] := by decide +kernel

/-- T3: two runs of different age. -/
theorem test_tick_T3 : (nextOf (exec .tick (streamAt 1 [3, 6] [(1, 2), (2, 2)]))).map
    (fun t => (t.retry, t.txseq, t.trace)) =
    some ([(1, 3), (2, 3), (4, 1), (5, 1)], 1, [.rrq [0x80, 0xD5, 0, 0, 0, 1, 0, 2]]) := by decide +kernel

/-- P3, the 37th TICK: EVICT across the wrap, then DRAIN. -/
theorem test_tick_P3 : (nextOf (exec .tick (streamAt 65535 [1] [(0, 36), (65535, 36)]))).map
    (fun t => (t.low, t.retry, t.trace)) =
    some (2, [], [.evict 65535 2, .deliver (pk 1)]) := by decide +kernel

/-- F2: ascending from `low`, across the wrap. -/
theorem test_flush_F2 : (nextOf (exec .flush (streamAt 65531 [2, 65533] [(65531, 1), (1, 1)]))).map
    (fun t => (t.initialized, t.low, t.retry, t.trace)) =
    some (false, 0, [], [.release .flushed (.packet (pk 65533)), .release .flushed (.packet (pk 2))]) := by
  decide +kernel

/-- F4. -/
theorem test_close_F4 : (nextOf (exec .close (streamAt 5 [7, 9] [(5, 1)]))).map
    (fun t => (t.mode, t.low, t.trace)) =
    some (.closed, 5, [.release .closed (.packet (pk 7)), .release .closed (.packet (pk 9))]) := by
  decide +kernel

/-- Section 2.1, the rows in which the rules differ and the ties. -/
theorem test_delta_rows :
    delta .shortest 32768 0 = 32768 ∧ delta .shortest 0 32768 = -32768 ∧ delta .shortest 32769 0 = -32767 ∧
    delta .guard8192 32769 0 = 32769 ∧ delta .shortest 8192 57344 = 16384 ∧ delta .guard8192 8192 57344 = -49152 ∧
    delta .guard8192 8191 57344 = 16383 ∧ delta .guard8192 8191 57343 = -49152 := by decide +kernel

/-- W1. -/
theorem test_delta_W1 : recordsOf (exec (.delta 65530 10) s5) = [.deltaResult (-16)] := by decide +kernel

/-- X10: a status that is not 1, and no inner header. -/
theorem test_rxc_X10 : recordsOf (exec (.rxc [0x80, 0xD6, 0, 0, 0x80, 0x60, 0, 0x66]) s0) =
    [.release .short (.raw [0x80, 0xD6, 0, 0, 0x80, 0x60, 0, 0x66])] := by decide +kernel

/-- X8: status 1 is tested before the 16-byte check. -/
theorem test_rxc_X8 : recordsOf (exec (.rxc ([0x80, 0xD6, 0, 0, 0, 1] ++ zeros 10)) s0) =
    [.release .declined (.raw ([0x80, 0xD6, 0, 0, 0, 1] ++ zeros 10)), .release .flushed (.packet (pk 103))] := by
  decide +kernel

/-- D4: pt 84 is no data type. -/
theorem test_rxd_D4 : recordsOf (exec (.rxd ([0x80, 0x54, 0, 0x66] ++ zeros 8)) s0) =
    [.release .unknownPt (.raw ([0x80, 0x54, 0, 0x66] ++ zeros 8))] := by decide +kernel

/-- D9. -/
theorem test_rxd_D9 : recordsOf (exec (.rxd (audioDatagram 500)) rst) =
    [.input 500 false, .deliver ⟨500, false, audioDatagram 500⟩] := by decide +kernel

/-- X4. -/
theorem test_rxcTiming_X4 : recordsOf (exec (.rxcTiming [0x80, 0xD4, 1, 2]) s0) = [.pass [0x80, 0xD4, 1, 2]] := by
  decide +kernel

/-- X6. -/
theorem test_rxcEcho_X6 : recordsOf (exec (.rxcEcho [0x80, 0xD5, 0, 0, 0, 1, 0, 1]) s0) =
    [.release .echo (.raw [0x80, 0xD5, 0, 0, 0, 1, 0, 1])] := by decide +kernel

/-- X7. -/
theorem test_rxcDecline_X7 : (nextOf (exec (.rxcDecline declineDatagram) s0)).map
    (fun t => (t.initialized, t.low, t.held, t.trace)) =
    some (false, 0, [], [.release .declined (.raw declineDatagram), .release .flushed (.packet (pk 103))]) := by
  decide +kernel

/-- X2: the held copy is kept. -/
theorem test_rxcRecovered_X2 : (nextOf (exec (.rxcRecovered (replyDatagram 103 0)) s0)).map (fun t => (t.held, t.trace)) =
    some (heldOf [103], [.input 103 true,
      .release .duplicate (.packet ⟨103, true, [0x80, 0x60, 0, 0x67] ++ zeros 8⟩)]) := by decide +kernel

/-- D5: one byte short of an RTP header. -/
theorem test_rxdAudio_D5 : recordsOf (exec (.rxdAudio ([0x80, 0x60, 0, 0x66] ++ zeros 7)) s0) =
    [.release .short (.raw ([0x80, 0x60, 0, 0x66] ++ zeros 7))] := by decide +kernel

/-- X11. -/
theorem test_rxcUnknown_X11 : recordsOf (exec (.rxcUnknown ([0x80, 0x60, 0, 0x66] ++ zeros 8)) s0) =
    [.release .unknownPt (.raw ([0x80, 0x60, 0, 0x66] ++ zeros 8))] := by decide +kernel

/-- D3. -/
theorem test_rxdUnknown_D3 : recordsOf (exec (.rxdUnknown ([0x80, 0x61, 0, 0x66] ++ zeros 8)) s0) =
    [.release .unknownPt (.raw ([0x80, 0x61, 0, 0x66] ++ zeros 8))] := by decide +kernel

/-- E4: tx-seq wraps. -/
theorem test_rrq_E4 : (nextOf (exec (.rrq 1 1) { s0 with txseq := 65535 })).map (fun t => (t.txseq, t.trace)) =
    some (0, [.rrq [0x80, 0xD5, 0xFF, 0xFF, 0, 1, 0, 1]]) := by decide +kernel

/-- E7 to E10: the decoder of rerequests. -/
theorem test_decodeRrq :
    decodeRrq [0x80, 0x55, 0, 2, 0xB5, 0xE0, 0, 9] = some ⟨2, 46560, 9⟩ ∧
    decodeRrq [0x80, 0xD5, 0, 2, 0xB5, 0xE0, 0] = none ∧ decodeRrq [0, 0xD5, 0, 0, 0, 1, 0, 1] = none ∧
    decodeRrq [0x80, 0xD6, 0, 0, 0, 1, 0, 1] = none := by decide +kernel

/-- The bytes the meaning writes are the bytes of the format (R90). -/
theorem test_encodeRrq_is_rrqBytes : encodeRrq 0x0102 0x0304 0x0506 = rrqBytes 0x0102 0x0304 0x0506 := by decide +kernel

/-- F5: a closed block leaves its queue alone. -/
theorem test_step_F5 : faultOf (step shut) = some .closed := by decide +kernel

/-! ## States that have the invariant -/

theorem gap_inv : gap.Inv := Laws.inv_of_check (by decide +kernel)
theorem late_inv : late.Inv := Laws.inv_of_check (by decide +kernel)
theorem twoRuns_inv : twoRuns.Inv := Laws.inv_of_check (by decide +kernel)
theorem level_inv : level.Inv := Laws.inv_of_check (by decide +kernel)
theorem shut_inv : shut.Inv := Laws.inv_of_check (by decide +kernel)
theorem stuck_inv : stuck.Inv := Laws.inv_of_check (by decide +kernel)
theorem rst_inv : rst.Inv := Laws.inv_of_check (by decide +kernel)

/-! ## A witness for every obligation with hypotheses, named after it -/

theorem witness_EncodeOfDecodeIsTheSlot :
    decode ⟨0x0000000300018064, [1, 2, 3]⟩ = .ok (.pkt 32868 true [1, 2, 3]) ∧
    Channel.data ≠ .controlOut ∧ [0x80, (0x54 : Byte)].length ≤ 2047 ∧
    decodeWire .data [0x80, 0x54] = .ok (.rxdUnknown [0x80, 0x54]) := ⟨rfl, by decide, by decide, rfl⟩

theorem witness_TagAloneDecidesTheEvent :
    (decode ⟨4, []⟩ = .ok (.pkt 4 false []) ∧ decode ⟨0x10005, []⟩ = .ok (.pkt 5 true []) ∧ tagOf 4 = tagOf 0x10005) ∧
    ∃ r ∈ eventRows, r.covers 0x2000000000000000 = true := ⟨⟨rfl, rfl, rfl⟩, by decide +kernel⟩

theorem witness_ClassifierFollowsTheTable : 2 ≤ [0x80, (0x54 : Byte)].length := by decide

theorem witness_IllegalWordsAreRefused :
    7 ≤ (tagOf 0x7000000000000000).toNat ∧
    ({ rst with queue := [⟨0x7000000000000000, []⟩] } : State).stop = none ∧
    (∀ r ∈ eventRows, r.covers 0x7000000000000000 = false) ∧
    ({ rst with queue := [⟨0x6000000000000001, []⟩, slotTick] } : State).stop = none ∧
    (∀ r ∈ eventRows, r.covers 0x6000000000000001 = false) := ⟨by decide, rfl, by decide +kernel, rfl, by decide +kernel⟩

theorem witness_FieldsAreBigEndian :
    0 + 1 < [0x12, (0x34 : Byte)].length ∧ 6 ≤ declineDatagram.length ∧ declines declineDatagram = true ∧
    declines [0x80, 0xD6, 0, 0, 1, 0] = false := by decide +kernel

theorem witness_ShortestDistance :
    (32768 < ((32769 : SeqNo).toNat : Int) - (0 : SeqNo).toNat ∧ delta .shortest 32769 0 = -32767) ∧
    (((0 : SeqNo).toNat : Int) - (32769 : SeqNo).toNat < -32768 ∧ delta .shortest 0 32769 = 32767) ∧
    (((32768 : SeqNo).toNat : Int) - (0 : SeqNo).toNat ≤ 32768 ∧ delta .shortest 32768 0 = 32768) ∧
    (-32768 ≤ ((0 : SeqNo).toNat : Int) - (32768 : SeqNo).toNat ∧ delta .shortest 0 32768 = -32768) := by
  decide +kernel

theorem witness_GuardDistance :
    ((8191 : SeqNo).toNat < 8192 ∧ 57344 ≤ (57344 : SeqNo).toNat ∧ delta .guard8192 8191 57344 = 16383) ∧
    (delta .guard8192 57344 8191 = -16383) ∧
    (¬ ((8192 : SeqNo).toNat < 8192 ∧ 57344 ≤ (57344 : SeqNo).toNat) ∧
      ¬ ((57344 : SeqNo).toNat < 8192 ∧ 57344 ≤ (8192 : SeqNo).toNat) ∧ delta .guard8192 8192 57344 = -49152) ∧
    (|((32768 : SeqNo).toNat : Int) - (0 : SeqNo).toNat| ≤ 32768 ∧ delta .guard8192 32768 0 = 32768) ∧
    (32768 < |((32769 : SeqNo).toNat : Int) - (0 : SeqNo).toNat| ∧ delta .guard8192 32769 0 = 32769) := by
  decide +kernel

theorem witness_DistanceLaws :
    0 ≤ delta .shortest 0 65535 ∧ delta .shortest 65535 0 < 0 ∧ 0 ≤ delta .guard8192 40000 0 ∧
    delta .guard8192 0 40000 < 0 := by decide +kernel

theorem witness_DeltaEmitsTheDistance :
    tagOf 0x4000000100000000 = 4 ∧ (0x4000000100000000 : EventWord) &&& 0x0FFFFFFF00000000 ≠ 0 ∧
    |((32868 : SeqNo).toNat : Int) - (100 : SeqNo).toNat| = 32768 := by decide +kernel

theorem witness_OversizePacketIsReleased : rst.cfg.maxDgram < (zeros 1801).length := by decide +kernel

theorem witness_FirstPacketStartsTheSession :
    (zeros 1800).length ≤ rst.cfg.maxDgram ∧ rst.initialized = false ∧ rst.held = [] ∧ rst.retry = [] := by
  decide +kernel

theorem witness_InOrderPacketDrains :
    (zeros 1800).length ≤ (streamAt 5 [6, 7, 9] []).cfg.maxDgram ∧ (streamAt 5 [6, 7, 9] []).initialized = true ∧
    (5 : SeqNo) = (streamAt 5 [6, 7, 9] []).low ∧
    recordsOf (exec (.pkt 5 false []) (streamAt 5 [6, 7, 9] [])) =
      [.input 5 false, .deliver (pk 5), .deliver (pk 6), .deliver (pk 7)] := by decide +kernel

theorem witness_StalePacketIsReleased :
    gap.Inv ∧ (zeros 1800).length ≤ gap.cfg.maxDgram ∧ gap.initialized = true ∧ gap.cfg.deltaRule = .shortest ∧
    (4 : SeqNo) ≠ gap.low ∧ gap.dist 4 < 0 ∧
    ((gap.low - 32774).toNat = 32767 ∧ gap.dist 32774 < 0) ∧ ((gap.low - 32773).toNat = 32768 ∧ 0 < gap.dist 32773) ∧
    (((streamAt 32868 [] []).low - 100).toNat = 32768 ∧ (streamAt 32868 [] []).dist 100 < 0) :=
  ⟨gap_inv, by decide +kernel⟩

theorem witness_DuplicateIsReleased :
    (zeros 1800).length ≤ gap.cfg.maxDgram ∧ gap.initialized = true ∧ 0 < gap.dist 7 ∧ gap.held.has 7 = true := by
  decide +kernel

theorem witness_PacketAheadIsHeld :
    (zeros 1800).length ≤ gap.cfg.maxDgram ∧ gap.initialized = true ∧
    (0 < gap.dist 6 ∧ gap.held.has 6 = false) ∧ (0 < gap.dist 32773 ∧ gap.held.has 32773 = false) := by decide +kernel

theorem witness_ArrivalCancelsTheRetry :
    (zeros 1800).length ≤ gap.cfg.maxDgram ∧ gap.initialized = true ∧ gap.retry.has 6 = true ∧
    gap.Inv ∧ gap.dist 4 < 0 ∧ rst.initialized = false :=
  ⟨by decide +kernel, rfl, rfl, gap_inv, by decide +kernel, rfl⟩

theorem witness_HandleEmitsInThenReleaseOrDeliveries : (zeros 1800).length ≤ gap.cfg.maxDgram := by decide +kernel

theorem witness_PayloadIsOpaque :
    (zeros 1800).length ≤ gap.cfg.maxDgram ∧ ([1, 2] : List Byte).length ≤ gap.cfg.maxDgram := by decide +kernel

theorem witness_TickScansToTheFarthestHeldKey :
    (level.Inv ∧ level.held = []) ∧ (gap.Inv ∧ gap.held ≠ [] ∧ gap.cfg.deltaRule = .shortest ∧ gap.held.has 7 = true) :=
  ⟨⟨level_inv, rfl⟩, gap_inv, by decide +kernel⟩

theorem witness_MissingRunsPartitionTheSlots :
    ((⟨5, 2⟩ : Run) ∈ missingRuns gap.held 5 3 ∧ (⟨4, 1⟩ : Run) ∈ missingRuns (heldOf [3, 5]) 1 5) ∧
    gap.Inv ∧ gap.held ≠ [] ∧ (⟨5, 2⟩ : Run) ∈ gap.tickRuns ∧ gap.cfg.deltaRule = .shortest :=
  ⟨by decide +kernel, gap_inv, by decide, by decide +kernel, rfl⟩

theorem witness_TickCountsEveryMissingSlot :
    (gap.Inv ∧ (⟨5, 2⟩ : Run) ∈ gap.tickRuns ∧ (6 : SeqNo) ∈ (⟨5, 2⟩ : Run).slots ∧
      (gap.retry.get0 6).toNat + 1 < gap.cfg.giveup ∧ ∀ r ∈ gap.tickRuns, (7 : SeqNo) ∉ r.slots) ∧
    (late.Inv ∧ (⟨5, 2⟩ : Run) ∈ late.tickRuns ∧ late.cfg.giveup ≤ (late.retry.get0 6).toNat + 1) :=
  ⟨⟨gap_inv, by decide +kernel⟩, late_inv, by decide +kernel⟩

theorem witness_TickRerequestsAtTheLevels :
    gap.Inv ∧ ∃ t, exec .tick gap = .next t ∧ (rrqMessages (newRecords gap t))[0]? = some [0x80, 0xD5, 0, 0, 0, 5, 0, 2] :=
  ⟨gap_inv, _, rfl, by decide +kernel⟩

/-- One run is given up and one is left; and both sides of `n` are met. -/
theorem witness_TickEvictsAPrefixAtLow :
    twoRuns.Inv ∧ twoRuns.tickRuns = [⟨1, 2⟩, ⟨4, 2⟩] ∧ twoRuns.nextLevel ⟨1, 2⟩ = twoRuns.cfg.giveup ∧
    recordsOf (exec .tick twoRuns) = [.evict 1 2, .deliver (pk 3)] := ⟨twoRuns_inv, by decide +kernel⟩

theorem witness_GiveUpSkipsTheGapAndDrains :
    late.Inv ∧ late.tickRuns = [⟨late.low, 2⟩] ∧ late.cfg.giveup ≤ (late.retry.get0 late.low).toNat + 1 :=
  ⟨late_inv, by decide +kernel⟩

theorem witness_TickRemovesOnlyWhatItDelivers :
    twoRuns.held.get? 3 = some (pk 3) ∧
    ∃ t, exec .tick twoRuns = .next t ∧ t.held.get? 6 = some (pk 6) := ⟨rfl, _, rfl, rfl⟩

/-- Other events of the session between the TICKs: below GIVEUP from `gap`, at GIVEUP from `late`. -/
theorem witness_GapEndsWithinGiveupTicks :
    (late.Inv ∧ late.held ≠ [] ∧ gap.Inv ∧ gap.held ≠ []) ∧
    (gap.StaysInStream [.tick, .pkt 9 false [], .tick] ∧
      (∀ rx, Record.input gap.low rx ∉ newRecords gap (gap.afterEvents [.tick, .pkt 9 false [], .tick])) ∧
      (gap.retry.get0 gap.low).toNat + [Instr.tick, .pkt 9 false [], .tick].count .tick < gap.cfg.giveup) ∧
    (late.StaysInStream [.pkt 9 false [], .tick, .delta 1 2] ∧
      (∀ rx, Record.input late.low rx ∉ newRecords late (late.afterEvents [.pkt 9 false [], .tick, .delta 1 2])) ∧
      late.cfg.giveup = (late.retry.get0 late.low).toNat + [Instr.pkt 9 false [], .tick, .delta 1 2].count .tick) :=
  ⟨⟨late_inv, by decide, gap_inv, by decide⟩, by unfold State.StaysInStream; decide +kernel,
    by unfold State.StaysInStream; decide +kernel⟩

/-- A run of block and host: the host appends a TICK, the block takes it and ends the gap, and nothing follows. -/
def fairRun : Nat → State
  | 0     => late
  | 1     => { late with queue := [slotTick] }
  | _ + 2 => ((nextOf (step { late with queue := [slotTick] })).getD late)

/-- The moves of `fairRun`. -/
def fairMoves : Nat → Move
  | 0     => .append slotTick
  | 1     => .step
  | _ + 2 => .consumer true

theorem witness_FairTicksEndEveryGap :
    IsRun fairRun fairMoves ∧ (fairRun 0).Inv ∧ LegalEvents fairRun ∧ TickFair fairRun fairMoves ∧
    BlockFair fairRun fairMoves ∧ ConsumerFair fairRun fairMoves ∧ (fairRun 0).held ≠ [] := by
  refine ⟨fun n => ?_, late_inv, fun n e he => ?_, fun n h => absurd rfl (h (n + 2) (by omega)), fun n h => ?_, fun n h => ?_,
    by decide⟩
  · rcases n with _ | _ | n <;> rfl
  · rcases n with _ | _ | n
    · exact absurd he (List.not_mem_nil)
    · obtain rfl : e = slotTick := by simpa [fairRun] using he
      exact ⟨_, rfl⟩
    · exact absurd he (List.not_mem_nil)
  · obtain ⟨t, ht⟩ := h (n + 2) (by omega)
    exact absurd ((show step (fairRun (n + 2)) = .fault .idle from rfl).symm.trans ht) (by simp)
  · exact absurd ((show (fairRun (n + 2)).stalled = false from rfl).symm.trans (h (n + 2) (by omega))) (by decide)

theorem witness_FlushReleasesAndResets :
    (streamAt 65531 [2, 65533] []).held.wf = true ∧ (rst.initialized = false ∧ rst.held.wf = true ∧ rst.Inv) ∧
    (∃ t, exec .flush gap = .next t) ∧ (zeros 1800).length ≤ gap.cfg.maxDgram :=
  ⟨by decide +kernel, ⟨rfl, rfl, rst_inv⟩, ⟨_, rfl⟩, by decide +kernel⟩

theorem witness_CloseReleasesAndCloses : (streamAt 5 [7, 9] []).held.wf = true := by decide +kernel

theorem witness_ClosedTakesNoEvent : shut.Inv ∧ shut.mode = .closed := ⟨shut_inv, rfl⟩

theorem witness_RerequestRoundTrip :
    (∃ t, exec (.rrq 46546 1) gap = .next t ∧ .rrq [0x80, 0xD5, 0, 0, 0xB5, 0xD2, 0, 1] ∈ newRecords gap t) ∧
    (∃ t, exec .tick gap = .next t ∧ (rrqMessages (newRecords gap t))[0]? = some [0x80, 0xD5, 0, 0, 0, 5, 0, 2]) ∧
    (decodeRrq [0x80, 0xD5, 0, 0, 0xB5, 0xD2, 0, 1] = some ⟨0, 46546, 1⟩ ∧ 8 ≤ gap.cfg.maxDgram) :=
  ⟨⟨_, rfl, by decide +kernel⟩, ⟨_, rfl, by decide +kernel⟩, by decide +kernel⟩

theorem witness_RxdFollowsItsRule :
    s0.cfg.maxDgram < (zeros 1801).length ∧
    ([0x80] : List Byte).length < 2 ∧
    (([0x80, 0x61] : List Byte).length ≤ s0.cfg.maxDgram ∧ payloadType [0x80, 0x61] ≠ 96) ∧
    (payloadType [0x80, 0x60] = 96 ∧ ([0x80, 0x60, 0, 0x66] ++ zeros 7).length = 11) ∧
    (payloadType (audioDatagram 102) = 96 ∧ (audioDatagram 102).length = 12) := by decide +kernel

theorem witness_RxcFollowsItsRule :
    s0.cfg.maxDgram < (zeros 1801).length ∧
    ([0x80] : List Byte).length < 2 ∧
    payloadType [0x80, 0xD4] = 84 ∧
    payloadType [0x80, 0x55] = 85 ∧
    payloadType [0x80, 0x56, 0, 0, 0] = 86 ∧
    (payloadType declineDatagram = 86 ∧ declineDatagram.length = 6 ∧ be16 declineDatagram 4 = 1) ∧
    (payloadType ([0x80, 0x56] ++ zeros 13) = 86 ∧ ([0x80, 0x56] ++ zeros 13).length = 15 ∧
      be16 ([0x80, 0x56] ++ zeros 13) 4 ≠ 1) ∧
    (payloadType (replyDatagram 103 0) = 86 ∧ (replyDatagram 103 0).length = 16 ∧ be16 (replyDatagram 103 0) 4 ≠ 1) ∧
    payloadType [0x80, 0x60] ≠ 84 ∧ payloadType [0x80, 0x60] ≠ 85 ∧ payloadType [0x80, 0x60] ≠ 86 := by
  decide +kernel

theorem witness_PassedAndDiscardedClasses : (zeros 1800).length ≤ s0.cfg.maxDgram := by decide +kernel

theorem witness_DeclineReleasesThenFlushes : declineDatagram.length ≤ s0.cfg.maxDgram ∧ s0.held.wf = true := by
  decide +kernel

theorem witness_HandledClasses :
    (replyDatagram 103 0).length ≤ s0.cfg.maxDgram ∧ 16 ≤ (replyDatagram 103 0).length ∧
    (audioDatagram 102).length ≤ s0.cfg.maxDgram ∧ 12 ≤ (audioDatagram 102).length ∧ (zeros 15).length < 16 ∧
    (zeros 11).length < 12 := by decide +kernel

theorem witness_ClassAgreesWithItsEvent : 2 ≤ declineDatagram.length := by decide

theorem witness_OnlyTheNamedStateIsWritten :
    (∃ t, exec .tick late = .next t) ∧ (∃ t, exec (.rrq 1 1) late = .next t) := ⟨⟨_, rfl⟩, ⟨_, rfl⟩⟩

theorem witness_StepRunsTheDecodedEvent :
    configOk gap.cfg = true ∧ gap.startOk = true ∧ gap.mode = .run ∧ gap.stalled = false ∧
    ({ gap with queue := [slotTick] } : State).queue = slotTick :: [] ∧ decode slotTick = .ok .tick :=
  ⟨by decide +kernel, by decide +kernel, rfl, rfl, rfl, rfl⟩

/-- R204: a ready consumer has taken the records of a step, one that is not has taken none. -/
theorem test_step_hands_over :
    (nextOf (step { s5 with queue := [pktSlot 5 false] })).map State.taken = some 2 ∧
    (nextOf (step { s5 with queue := [pktSlot 5 false], consumerReady := false })).map State.taken = some 0 := ⟨rfl, rfl⟩

theorem witness_StepTakesTheHeadOfTheQueue :
    ∃ t, step { gap with queue := [slotTick, pktSlot 5 false] } = .next t ∧ t.queue = [pktSlot 5 false] := ⟨_, rfl, rfl⟩

theorem witness_StallIsAHoldNotALoss :
    stuck.Inv ∧ stuck.mode = .run ∧ stuck.stalled = true ∧ stuck.queue ≠ [] ∧
    (∃ u, stuck.hostTake = some (.deliver (pk 4), u)) ∧ level.Inv ∧ level.hostTake.isNone = true :=
  ⟨stuck_inv, rfl, rfl, by decide, ⟨_, rfl⟩, level_inv, rfl⟩

/-- Idle with every record taken, and with a DELIVER record not taken. -/
theorem witness_EmptyQueueIsIdle :
    (rst.Inv ∧ rst.mode = .run ∧ rst.queue = []) ∧
    (({ stuck with queue := [] } : State).Inv ∧ ({ stuck with queue := [] } : State).stalled = true) :=
  ⟨⟨rst_inv, rfl, rfl⟩, Laws.inv_of_check (by decide +kernel), rfl⟩

/-- R210: an empty queue in RUN is idle, a DELIVER record not taken or not; with an event waiting the block stalls. -/
theorem test_step_idle_before_stall :
    faultOf (step { stuck with queue := [] }) = some .idle ∧ faultOf (step stuck) = some .stalled := by decide +kernel

/-- Each broken constraint, at its boundary, and legal configurations with a level above GIVEUP and at the bounds. -/
theorem witness_BadConfigurationIsRefused :
    (∃ l ∈ ({ cfg with rrqLevels := [3, 0] } : Config).rrqLevels, l < 1) ∧
    ({ cfg with giveup := 0 } : Config).giveup < 1 ∧ 2 ^ 32 ≤ ({ cfg with giveup := 4294967296 } : Config).giveup ∧
    ({ cfg with queueDepth := 0 } : Config).queueDepth < 1 ∧ ({ cfg with maxDgram := 0 } : Config).maxDgram < 1 ∧
    2047 < ({ cfg with maxDgram := 2048 } : Config).maxDgram ∧
    configOk { cfg with rrqLevels := [40], giveup := 37 } = true ∧
    configOk { cfg with giveup := 4294967295, maxDgram := 2047, queueDepth := 1 } = true := by decide +kernel

/-- A state with `low` held breaks R41; `gap` keeps R40 to R44. -/
theorem witness_BadStateIsRefused :
    ¬ (streamAt 5 [5] []).KeepsR40ToR44 ∧ configOk (streamAt 5 [5] []).cfg = true ∧
    (streamAt 5 [5] []).held.wf = true ∧ (streamAt 5 [5] []).retry.wf = true ∧
    gap.KeepsR40ToR44 ∧ configOk gap.cfg = true ∧ gap.held.wf = true ∧ gap.retry.wf = true := by
  refine ⟨fun h => absurd h.2.1 (by decide +kernel), by decide +kernel, rfl, rfl, ?_, by decide +kernel, rfl, rfl⟩
  have h := gap_inv
  exact ⟨h.ahead, h.lowMissing, h.retryInGap, fun k c hk => by
    have := h.counts k c hk
    have hg : gap.cfg.giveup = 37 := rfl
    omega, h.emptyBefore⟩

theorem witness_ResetMeetsTheInvariant : configOk cfg = true ∧ configOk Config.default = true := ⟨by decide +kernel, rfl⟩

theorem witness_StepKeepsTheInvariant :
    ({ late with queue := [slotTick] } : State).Inv ∧ ∃ t, step { late with queue := [slotTick] } = .next t :=
  ⟨Laws.inv_of_check (by decide +kernel), _, rfl⟩

theorem witness_StepFromTheInvariantIsSafe : gap.Inv ∧ shut.Inv ∧ stuck.Inv := ⟨gap_inv, shut_inv, stuck_inv⟩

theorem witness_DeliveriesFollowLow :
    late.Inv ∧ late.initialized = true ∧ ∃ t, exec .tick late = .next t ∧ t.initialized = true ∧
      newRecords late t = [.evict 5 2, .deliver (pk 7)] := ⟨late_inv, rfl, _, rfl, rfl, by decide +kernel⟩

theorem witness_DeliveredOnceIsStaleAfterwards :
    s5.Inv ∧ s5.cfg.deltaRule = .shortest ∧ ∃ t, exec (.pkt 5 false []) s5 = .next t ∧
      Record.deliver (pk 5) ∈ newRecords s5 t ∧ t.StaysInStream [.pkt 6 false [], .tick] ∧
      passedBy (newRecords t (t.afterEvents [.pkt 6 false [], .tick])) = 2 ∧ (t.low - (pk 5).sn).toNat + 2 ≤ 32767 ∧
      (zeros 1800).length ≤ (t.afterEvents [.pkt 6 false [], .tick]).cfg.maxDgram :=
  ⟨Laws.inv_of_check (by decide +kernel), rfl, _, rfl, by unfold State.StaysInStream; decide +kernel⟩

theorem witness_StoresHaveBoundedSize : gap.Inv ∧ gap.cfg.deltaRule = .shortest := ⟨gap_inv, rfl⟩

/-- Each way a lifecycle mode is entered or left: CLOSE, the first packet, FLUSH and a declined recovery. -/
theorem witness_LifecycleModes :
    (∃ t, step { level with queue := [⟨wordN 3, []⟩] } = .next t ∧ t.lifecycle = .closed) ∧
    (rst.lifecycle = .uninit ∧ ∃ t, step { rst with queue := [pktSlot 4 false] } = .next t ∧ t.lifecycle = .stream) ∧
    (level.lifecycle = .stream ∧ ∃ t, step { level with queue := [⟨wordN 2, []⟩] } = .next t ∧ t.lifecycle = .uninit) ∧
    (∃ t, step { level with queue := [declineSlot] } = .next t ∧ t.lifecycle = .uninit) :=
  ⟨⟨_, rfl, rfl⟩, ⟨rfl, _, rfl, rfl⟩, ⟨rfl, _, rfl, rfl⟩, ⟨_, rfl, rfl⟩⟩

theorem witness_FullQueueHoldsTheProducer :
    rst.queue.length < rst.cfg.queueDepth ∧
    ({ rst with queue := List.replicate 7 slotTick } : State).queue.length < rst.cfg.queueDepth ∧
    rst.cfg.queueDepth ≤ ({ rst with queue := List.replicate 8 slotTick } : State).queue.length := by decide +kernel

end Sys2Proof.Tests
end

section
/-! Proofs about 00_scope.md R21 and 42_codec.md R157: the two bytes of a big-endian field, read and written. -/

namespace Sys2Proof.Proofs

open Sys2Proof.Machine Sys2Proof.Laws

theorem byteAt_eq_getElem {B : List Byte} {i : Nat} (h : i < B.length) : byteAt B i = B[i] := by
  simp [byteAt, h]

theorem toNat_be16 (B : List Byte) (i : Nat) :
    (be16 B i).toNat = (byteAt B i).toNat * 256 + (byteAt B (i + 1)).toNat :=
  toNat_join _ _

theorem toNat_be16_getElem {B : List Byte} {i : Nat} (h : i + 1 < B.length) :
    (be16 B i).toNat = B[i].toNat * 256 + B[i + 1].toNat := by
  rw [toNat_be16, byteAt_eq_getElem (Nat.lt_of_succ_lt h), byteAt_eq_getElem h]

/-- The bytes `put16` writes are the quotient and the remainder by 256. -/
theorem put16_eq_div_mod (v : U16) :
    put16 v = [BitVec.ofNat 8 (v.toNat / 256), BitVec.ofNat 8 (v.toNat % 256)] := by
  have high : v.extractLsb' 8 8 = BitVec.ofNat 8 (v.toNat / 256) :=
    BitVec.eq_of_toNat_eq (by simp [BitVec.extractLsb'_toNat, Nat.shiftRight_eq_div_pow])
  have low : v.extractLsb' 0 8 = BitVec.ofNat 8 (v.toNat % 256) :=
    BitVec.eq_of_toNat_eq (by simp [BitVec.extractLsb'_toNat])
  rw [put16, high, low]

theorem be16_put16 (v : U16) : be16 (put16 v) 0 = v := by
  apply BitVec.eq_of_toNat_eq
  have hv := v.isLt
  rw [put16_eq_div_mod, toNat_be16_getElem (by simp)]
  simp only [List.getElem_cons_zero, List.getElem_cons_succ, BitVec.toNat_ofNat]
  omega

/-- A field whose bytes spell 1 is the byte 0, then the byte 1 (R157). -/
theorem be16_eq_one_iff (B : List Byte) (i : Nat) :
    be16 B i = 1 ↔ byteAt B i = 0 ∧ byteAt B (i + 1) = 1 := by
  have := (byteAt B (i + 1)).isLt
  simp only [← BitVec.toNat_inj, toNat_be16, BitVec.reduceToNat]
  omega

theorem declines_iff {B : List Byte} (h : 6 ≤ B.length) : declines B = true ↔ statusOf B = 1 := by
  simp [declines, h]

/-- Settles O7: the bytes of a field are its quotient and remainder by 256, and a field is 1 at the bytes 0, 1 only. -/
theorem fieldsAreBigEndian : Obligations.FieldsAreBigEndian := by
  refine ⟨fun B i h => toNat_be16_getElem h, fun v => ⟨put16_eq_div_mod v, be16_put16 v⟩, fun B h => ?_⟩
  refine ⟨toNat_be16_getElem (by omega), ?_⟩
  rw [declines_iff h, statusOf, be16_eq_one_iff, byteAt_eq_getElem (by omega), byteAt_eq_getElem (by omega)]

end Sys2Proof.Proofs
end

section
/-! Proofs about 00_scope.md R15: the keys of a store in canonical form are distinct, keys not behind `low` are told
apart by their distance from it, and under either rule that distance has a largest value. -/

namespace Sys2Proof.Proofs

open Sys2Proof.Machine Sys2Proof.Laws

/-- The largest `delta(k, low)` under a comparator rule, which is also the bound R15 gives for the stores. -/
def heldCap : DeltaRule → Nat
  | .shortest  => 32768
  | .guard8192 => 65535

theorem heldCap_le (r : DeltaRule) : heldCap r ≤ 65535 := by
  cases r <;> decide

theorem delta_le_heldCap (r : DeltaRule) (k low : SeqNo) : delta r k low ≤ heldCap r := by
  have hk := k.isLt
  have hl := low.isLt
  cases r with
  | shortest =>
    simp only [delta, deltaShortest, heldCap]
    split_ifs <;> omega
  | guard8192 =>
    simp only [delta, deltaGuard, guardLift, guardBand, seqMod, heldCap]
    split_ifs <;> omega

/-- "exactly one sequence number exists at each distance" (R15), not behind `low`. -/
theorem eq_of_delta_eq {r : DeltaRule} {a b low : SeqNo} (ha : 0 ≤ delta r a low)
    (h : delta r a low = delta r b low) : a = b := by
  rw [← add16_delta r a low ha, h, add16_delta r b low (h ▸ ha)]

theorem nodup_keys_of_wf {α : Type} {S : Store α} (h : S.wf = true) : S.keys.Nodup := by
  have rising := (wf_iff S).mp h
  refine List.pairwise_map.mpr (rising.imp ?_)
  intro a b hlt heq
  exact absurd (congrArg BitVec.toNat heq) (Nat.ne_of_lt hlt)

/-- A store whose keys lie at distances `m` to `m + n - 1` from `low` has at most `n` entries. -/
theorem length_le_of_delta_mem_Ico {α : Type} {S : Store α} (r : DeltaRule) (low : SeqNo) (m n : Nat)
    (hwf : S.wf = true)
    (hd : ∀ k, S.has k = true → (m : Int) ≤ delta r k low ∧ delta r k low < m + n) : S.length ≤ n := by
  have hmem : ∀ k ∈ S.keys.toFinset, (m : Int) ≤ delta r k low ∧ delta r k low < m + n := fun k hk =>
    hd k ((mem_keys_iff_has S k).mp (List.mem_toFinset.mp hk))
  have hinj : Set.InjOn (fun k => delta r k low) S.keys.toFinset := fun a ha b _ hab =>
    eq_of_delta_eq ((Int.natCast_nonneg m).trans (hmem a ha).1) hab
  calc S.length
      = S.keys.toFinset.card := by
        rw [List.toFinset_card_of_nodup (nodup_keys_of_wf hwf), Store.keys, List.length_map]
    _ ≤ (Finset.Ico (m : Int) (m + n)).card :=
        Finset.card_le_card_of_injOn _ (fun k hk => Finset.mem_Ico.mpr (hmem k hk)) hinj
    _ = n := by simp

/-- Held keys are at distances 1 to the cap (R40). -/
theorem held_length_le_heldCap {s : State} (h : s.Inv) : s.held.length ≤ heldCap s.cfg.deltaRule := by
  refine length_le_of_delta_mem_Ico s.cfg.deltaRule s.low 1 _ h.heldWf fun k hk => ?_
  have hpos : 0 < delta s.cfg.deltaRule k s.low := h.ahead k hk
  have hcap := delta_le_heldCap s.cfg.deltaRule k s.low
  omega

/-- Retry keys are at distances 0 to one less than the cap: each is behind a held key (R42). -/
theorem retry_length_le_heldCap {s : State} (h : s.Inv) : s.retry.length ≤ heldCap s.cfg.deltaRule := by
  refine length_le_of_delta_mem_Ico s.cfg.deltaRule s.low 0 _ h.retryWf fun k hk => ?_
  obtain ⟨-, hnn, x, -, hlt⟩ := h.retryInGap k hk
  simp only [State.dist] at hnn hlt
  have hcap := delta_le_heldCap s.cfg.deltaRule x s.low
  omega

/-- Settles O55: the keys of each store have different distances from `low`, in a range as large as the cap. -/
theorem storesHaveBoundedSize : Obligations.StoresHaveBoundedSize := by
  intro s h
  have hheld := held_length_le_heldCap h
  have hretry := retry_length_le_heldCap h
  have hcap := heldCap_le s.cfg.deltaRule
  refine ⟨fun hrule => ?_, hheld.trans hcap, hretry.trans hcap⟩
  rw [hrule] at hheld hretry
  exact ⟨hheld, hretry⟩

end Sys2Proof.Proofs
end

section
/-! Proofs about 10_state.md R40 to R43 and 41_sequencer.md R131, read as one predicate of `low` and the two stores: a
packet stored ahead of `low`, and `low` moved past slots that leave both stores, keep it. -/

namespace Sys2Proof.Proofs

open Sys2Proof.Machine Sys2Proof.Laws

/-! ### The slots before a distance -/

theorem slotsFrom_add (low : SeqNo) (a b : Nat) :
    slotsFrom low (a + b) = slotsFrom low a ++ slotsFrom (add16 low a) b := by
  simp only [slotsFrom, List.range_add, List.map_append, List.map_map]
  congr 1
  exact List.map_congr_left fun i _ => (add16_add low a i).symm

theorem nodup_slotsFrom (low : SeqNo) {n : Nat} (h : n ≤ 65536) : (slotsFrom low n).Nodup := by
  refine List.Nodup.map_on (fun i hi j hj hij => ?_) List.nodup_range
  rw [List.mem_range] at hi hj
  exact add16_inj (by omega) (by omega) hij

/-- A key not behind `low` is one of the first `m` slots just when its distance is below `m`. -/
theorem mem_slotsFrom_iff_delta_lt {rule : DeltaRule} {k low : SeqNo} (hk : 0 ≤ delta rule k low) (m : Nat) :
    k ∈ slotsFrom low m ↔ delta rule k low < m := by
  rw [mem_slotsFrom]
  constructor
  · rintro ⟨i, hi, rfl⟩
    by_contra hge
    have := delta_add16 rule (add16 low i) low i (by omega)
    omega
  · intro hlt
    exact ⟨_, by omega, (add16_delta rule k low hk).symm⟩

/-! ### Stores with keys taken out -/

/-- `T` is `S` with the keys `ks` taken out. -/
def Removed {α : Type} (ks : List SeqNo) (S T : Store α) : Prop :=
  ∀ k, T.get? k = if k ∈ ks then none else S.get? k

section Removed

variable {α : Type} {ks ls : List SeqNo} {S T U : Store α} {k : SeqNo}

theorem Removed.get?_of_not_mem (h : Removed ks S T) (hk : k ∉ ks) : T.get? k = S.get? k := by
  rw [h k, if_neg hk]

theorem Removed.has_of_not_mem (h : Removed ks S T) (hk : k ∉ ks) : T.has k = S.has k := by
  rw [Store.has, h.get?_of_not_mem hk, Store.has]

theorem Removed.get0_of_not_mem {S T : Store U32} (h : Removed ks S T) (hk : k ∉ ks) : T.get0 k = S.get0 k := by
  rw [Store.get0, h.get?_of_not_mem hk, Store.get0]

theorem Removed.get?_eq_some (h : Removed ks S T) {v : α} (hv : T.get? k = some v) :
    k ∉ ks ∧ S.get? k = some v := by
  rw [h k] at hv
  split_ifs at hv with hk
  exact ⟨hk, hv⟩

theorem Removed.has_eq_true (h : Removed ks S T) (hT : T.has k = true) : k ∉ ks ∧ S.has k = true := by
  obtain ⟨v, hv⟩ := (has_iff T k).mp hT
  obtain ⟨hk, hS⟩ := h.get?_eq_some hv
  exact ⟨hk, (has_iff S k).mpr ⟨v, hS⟩⟩

theorem Removed.append (h : Removed ks S T) (h' : Removed ls T U) : Removed (ks ++ ls) S U := by
  intro k
  rw [h' k, h k]
  by_cases hl : k ∈ ls <;> simp [hl]

/-- Taking out keys that are not there takes nothing out. -/
theorem removed_of_absent (h : ∀ k ∈ ks, S.get? k = none) : Removed ks S S := by
  intro k
  split_ifs with hk
  · exact h k hk
  · rfl

theorem removed_del (S : Store α) (k : SeqNo) : Removed [k] S (S.del k) := by
  intro x
  simp [get?_del]

theorem removed_delAll (R : Store U32) (ks : List SeqNo) : Removed ks R (delAll R ks) :=
  get?_delAll R ks

end Removed

/-! ### The gaps -/

/-- A slot of a gap: missing, not behind `low`, behind a held key (R42). -/
def InGap (rule : DeltaRule) (low : SeqNo) (held : Store Packet) (k : SeqNo) : Prop :=
  held.has k = false ∧ 0 ≤ delta rule k low ∧ ∃ h, held.has h = true ∧ delta rule k low < delta rule h low

/-- What the invariant says of `low` and the two stores (R40 to R43, R131), but for the upper bound of the counts, which
a TICK passes before it evicts. -/
structure Gaps (rule : DeltaRule) (low : SeqNo) (held : Store Packet) (retry : Store U32) : Prop where
  heldWf     : held.wf = true
  retryWf    : retry.wf = true
  ahead      : ∀ k, held.has k = true → 0 < delta rule k low
  lowMissing : held.has low = false
  retryInGap : ∀ k, retry.has k = true → InGap rule low held k
  positive   : ∀ k c, retry.get? k = some c → 1 ≤ c.toNat
  runLevel   : ∀ (j : Nat) (h : SeqNo), held.has h = true → ((j + 1 : Nat) : Int) < delta rule h low →
    held.has (add16 low j) = false → held.has (add16 low (j + 1)) = false →
    retry.get0 (add16 low j) = retry.get0 (add16 low (j + 1))
  falling    : ∀ (i j : Nat) (h : SeqNo), i ≤ j → held.has h = true → (j : Int) < delta rule h low →
    held.has (add16 low i) = false → held.has (add16 low j) = false →
    (retry.get0 (add16 low j)).toNat ≤ (retry.get0 (add16 low i)).toNat

theorem gaps_of_inv {s : State} (h : s.Inv) : Gaps s.cfg.deltaRule s.low s.held s.retry where
  heldWf     := h.heldWf
  retryWf    := h.retryWf
  ahead      := h.ahead
  lowMissing := h.lowMissing
  retryInGap := h.retryInGap
  positive   := fun k c hk => (h.counts k c hk).1
  runLevel   := h.runLevel
  falling    := h.falling

theorem gaps_nil (rule : DeltaRule) (low : SeqNo) : Gaps rule low [] [] := by
  constructor <;> simp [Store.wf]

section Gaps

variable {rule : DeltaRule} {low : SeqNo} {held held' : Store Packet} {retry retry' : Store U32}

theorem Gaps.retry_absent_of_held (g : Gaps rule low held retry) {k : SeqNo} (hk : held.has k = true) :
    retry.get? k = none := by
  rw [← has_eq_false, Bool.eq_false_iff]
  intro hr
  have := (g.retryInGap k hr).1
  simp [hk] at this

/-- A slot with a count is behind some held key. -/
theorem Gaps.exists_held_of_get0_ne_zero (g : Gaps rule low held retry) {k : SeqNo} (hk : retry.get0 k ≠ 0) :
    ∃ h, held.has h = true ∧ delta rule k low < delta rule h low := by
  refine (g.retryInGap k ?_).2.2
  by_contra hr
  rw [Bool.not_eq_true, has_eq_false] at hr
  exact hk (by simp [Store.get0, hr])

theorem Gaps.get0_eq_zero_of_far (g : Gaps rule low held retry) {k : SeqNo}
    (hfar : ∀ h, held.has h = true → delta rule h low ≤ delta rule k low) : retry.get0 k = 0 := by
  by_contra hk
  obtain ⟨h, hh, hlt⟩ := g.exists_held_of_get0_ne_zero hk
  exact absurd (hfar h hh) (not_le.mpr hlt)

theorem Gaps.retry_nil_of_held_nil (g : Gaps rule low [] retry) : retry = [] := by
  cases retry with
  | nil => rfl
  | cons e r =>
    obtain ⟨-, -, h, hh, -⟩ := g.retryInGap e.1 (by simp [Store.has, Store.get?])
    simp at hh

/-- "all counts within one run are equal" (R131), for a run at `low`. -/
theorem Gaps.get0_eq_of_missing (g : Gaps rule low held retry) {i : Nat} {h : SeqNo} (hh : held.has h = true)
    (hi : (i : Int) < delta rule h low) (hmiss : ∀ j, j ≤ i → held.has (add16 low j) = false) :
    retry.get0 (add16 low i) = retry.get0 low := by
  induction i with
  | zero => rw [add16_zero]
  | succ i ih =>
    rw [← g.runLevel i h hh hi (hmiss i (by omega)) (hmiss (i + 1) le_rfl)]
    exact ih (by omega) fun j hj => hmiss j (by omega)

/-- HANDLE step 5: a packet stored ahead of `low`, its slot's count cancelled. The new farthest slots have no count. -/
theorem Gaps.hold (g : Gaps rule low held retry) (p : Packet) (hpos : 0 < delta rule p.sn low) (hne : p.sn ≠ low) :
    Gaps rule low (held.set p.sn p) (retry.del p.sn) := by
  have hset : ∀ {k}, (held.set p.sn p).has k = false → k ≠ p.sn ∧ held.has k = false := fun {k} hk => by
    simpa [has_set] using hk
  have hmono : ∀ {k}, held.has k = true → (held.set p.sn p).has k = true := fun {k} hk => by simp [has_set, hk]
  have hget0 : ∀ {k}, (held.set p.sn p).has k = false → (retry.del p.sn).get0 k = retry.get0 k := fun hk =>
    (removed_del retry p.sn).get0_of_not_mem (by simpa using (hset hk).1)
  constructor
  case heldWf => exact set_wf _ _ _ g.heldWf
  case retryWf => exact del_wf _ _ g.retryWf
  case ahead =>
    intro k hk
    rw [has_set, Bool.or_eq_true, decide_eq_true_eq] at hk
    obtain rfl | hk := hk
    · exact hpos
    · exact g.ahead k hk
  case lowMissing => simp [has_set, g.lowMissing, Ne.symm hne]
  case retryInGap =>
    intro k hk
    obtain ⟨hkp, hk⟩ := (removed_del retry p.sn).has_eq_true hk
    obtain ⟨hmiss, hnn, h, hh, hlt⟩ := g.retryInGap k hk
    exact ⟨by simpa [has_set, hmiss] using hkp, hnn, h, hmono hh, hlt⟩
  case positive => exact fun k c hk => g.positive k c ((removed_del retry p.sn).get?_eq_some hk).2
  case runLevel =>
    intro j h hh hj hm hm'
    rw [hget0 hm, hget0 hm']
    by_cases hold : ∃ x, held.has x = true ∧ ((j + 1 : Nat) : Int) < delta rule x low
    · obtain ⟨x, hx, hlt⟩ := hold
      exact g.runLevel j x hx hlt (hset hm).2 (hset hm').2
    · have hnear : ∀ x, held.has x = true → delta rule x low ≤ j := by
        intro x hx
        have hle : ¬ ((j + 1 : Nat) : Int) < delta rule x low := fun hlt => hold ⟨x, hx, hlt⟩
        by_contra hlt
        have hxj := add16_delta rule x low (g.ahead x hx).le
        rw [show (delta rule x low).toNat = j + 1 by omega] at hxj
        simp [hxj, hmono hx] at hm'
      have hd := delta_add16 rule h low j (by omega)
      have hd' := delta_add16 rule h low (j + 1) (by omega)
      rw [g.get0_eq_zero_of_far fun x hx => by rw [hd]; exact hnear x hx,
        g.get0_eq_zero_of_far fun x hx => by rw [hd']; exact (hnear x hx).trans (by omega)]
  case falling =>
    intro i j h hij hh hj hm hm'
    rw [hget0 hm, hget0 hm']
    by_cases hc : retry.get0 (add16 low j) = 0
    · simp [hc]
    · obtain ⟨x, hx, hlt⟩ := g.exists_held_of_get0_ne_zero hc
      rw [delta_add16 rule h low j (by omega)] at hlt
      exact g.falling i j x hij hx hlt (hset hm).2 (hset hm').2

/-- `low` moves `m` up to a missing slot, and the slots it passes leave both stores. -/
theorem Gaps.advance (g : Gaps rule low held retry) (m : Nat) (hwf : held'.wf = true) (rwf : retry'.wf = true)
    (hheld : Removed (slotsFrom low m) held held') (hretry : Removed (slotsFrom low m) retry retry')
    (habs : held'.has (add16 low m) = false) : Gaps rule (add16 low m) held' retry' := by
  have hkept : ∀ {k}, held'.has k = true → held.has k = true ∧ (m : Int) < delta rule k low ∧
      delta rule k (add16 low m) = delta rule k low - m := fun {k} hk => by
    obtain ⟨hout, hold⟩ := hheld.has_eq_true hk
    have hpos := g.ahead k hold
    rw [mem_slotsFrom_iff_delta_lt hpos.le] at hout
    have hne : delta rule k low ≠ m := fun heq => by
      have hkm := add16_delta rule k low hpos.le
      rw [heq, Int.toNat_natCast] at hkm
      rw [hkm, hk] at habs
      exact absurd habs (by decide)
    exact ⟨hold, by omega, delta_advance rule k low m (by omega)⟩
  have hread : ∀ {j : Nat} {h : SeqNo}, held'.has h = true → (j : Int) < delta rule h (add16 low m) →
      held'.has (add16 (add16 low m) j) = false →
      held.has (add16 low (m + j)) = false ∧ retry'.get0 (add16 (add16 low m) j) = retry.get0 (add16 low (m + j)) :=
    fun {j h} hh hj hm => by
    obtain ⟨-, -, hd⟩ := hkept hh
    have hdj := delta_add16 rule h low (m + j) (by omega)
    have hout : add16 low (m + j) ∉ slotsFrom low m := by
      rw [mem_slotsFrom_iff_delta_lt (rule := rule) (by omega)]
      omega
    rw [add16_add] at hm ⊢
    exact ⟨(hheld.has_of_not_mem hout).symm.trans hm, hretry.get0_of_not_mem hout⟩
  constructor
  case heldWf => exact hwf
  case retryWf => exact rwf
  case ahead =>
    intro k hk
    obtain ⟨-, hlt, hd⟩ := hkept hk
    omega
  case lowMissing => exact habs
  case retryInGap =>
    intro k hk
    obtain ⟨hout, hk⟩ := hretry.has_eq_true hk
    obtain ⟨hmiss, hnn, h, hh, hlt⟩ := g.retryInGap k hk
    have hge := (mem_slotsFrom_iff_delta_lt hnn m).not.mp hout
    have hh' : held'.has h = true := by
      rw [hheld.has_of_not_mem ?_, hh]
      rw [mem_slotsFrom_iff_delta_lt (rule := rule) (by omega)]
      omega
    obtain ⟨-, -, hd⟩ := hkept hh'
    refine ⟨by rw [hheld.has_of_not_mem hout, hmiss], ?_, h, hh', ?_⟩ <;>
      rw [delta_advance rule k low m (by omega)] <;> omega
  case positive => exact fun k c hk => g.positive k c (hretry.get?_eq_some hk).2
  case runLevel =>
    intro j h hh hj hm hm'
    obtain ⟨hold, -, hd⟩ := hkept hh
    obtain ⟨hm, hc⟩ := hread hh (by omega) hm
    obtain ⟨hm', hc'⟩ := hread hh hj hm'
    rw [hc, hc']
    exact g.runLevel (m + j) h hold (by omega) hm hm'
  case falling =>
    intro i j h hij hh hj hm hm'
    obtain ⟨hold, -, hd⟩ := hkept hh
    obtain ⟨hm, hc⟩ := hread hh (by omega) hm
    obtain ⟨hm', hc'⟩ := hread hh hj hm'
    rw [hc, hc']
    exact g.falling (m + i) (m + j) h (by omega) hold (by omega) hm hm'

/-- `low` moved past `c` slots that are not held, whose counts are gone, then DRAIN (R113, R124). -/
theorem Gaps.skip_drain {s t : State} {qs : List Packet} {c : Nat} (g : Gaps rule low held retry)
    (hd : Drained s t qs) (hlow : s.low = add16 low c) (hheld : s.held = held)
    (hmiss : ∀ k ∈ slotsFrom low c, held.has k = false) (rwf : retry'.wf = true)
    (hretry : Removed (slotsFrom low c) retry retry') :
    Gaps rule t.low t.held retry' := by
  subst hheld
  obtain ⟨-, -, -, htlow, -⟩ := hd.frame
  have hsplit : slotsFrom low (c + qs.length) = slotsFrom low c ++ slotsFrom s.low qs.length := by
    rw [slotsFrom_add, hlow]
  have habs := (has_eq_false _ _).mpr hd.absent
  rw [htlow, hlow, add16_add] at habs ⊢
  refine g.advance (c + qs.length) (hd.wf g.heldWf) rwf ?_ ?_ habs
  · rw [hsplit]
    exact (removed_of_absent fun k hk => (has_eq_false _ _).mp (hmiss k hk)).append hd.held
  · rw [hsplit]
    refine hretry.append (removed_of_absent fun k hk => ?_)
    obtain ⟨i, hi, rfl⟩ := mem_slotsFrom.mp hk
    have hwas : s.held.has (add16 s.low i) = true := (has_iff _ _).mpr ⟨_, hd.were i hi⟩
    rw [hretry _, g.retry_absent_of_held hwas, ite_self]

end Gaps

end Sys2Proof.Proofs
end

section
/-! Proofs about 41_sequencer.md R110 to R128 and 42_codec.md R153 to R161: HANDLE, FLUSH, CLOSE and the datagram
classes keep the invariant. -/

namespace Sys2Proof.Proofs

open Sys2Proof.Machine Sys2Proof.Laws

/-! ### How the invariant is put together -/

/-- The invariant reads nothing but these fields, and that no more records are taken than there are. -/
theorem inv_of_same {s t : State} (h : s.Inv) (hcfg : t.cfg = s.cfg) (hmode : t.mode = s.mode)
    (hinit : t.initialized = s.initialized) (hlow : t.low = s.low) (hheld : t.held = s.held)
    (hretry : t.retry = s.retry) (htaken : t.taken ≤ t.trace.length) : t.Inv := by
  obtain ⟨cfg, mode, initialized, low, held, retry, txseq, queue, trace, taken, consumerReady⟩ := t
  subst hcfg hmode hinit hlow hheld hretry
  exact ⟨h.config, h.heldWf, h.retryWf, h.ahead, h.lowMissing, h.retryInGap, h.counts, h.emptyBefore, h.emptyAfter,
    h.packets, h.runLevel, h.falling, htaken⟩

theorem taken_le_of_kept {s t : State} (k : Kept s t) (h : s.taken ≤ s.trace.length) : t.taken ≤ t.trace.length := by
  obtain ⟨new, hnew⟩ := k.trace
  rw [k.taken, hnew, List.length_append]
  omega

/-- In a session, the invariant is its gaps, the bound of the counts and the packets under their own numbers. -/
theorem inv_of_gaps {s t : State} (h : s.Inv) (k : Kept s t) (hmode : t.mode = .run) (hinit : t.initialized = true)
    (g : Gaps s.cfg.deltaRule t.low t.held t.retry)
    (hcounts : ∀ x c, t.retry.get? x = some c → c.toNat < s.cfg.giveup)
    (hpackets : ∀ x p, t.held.get? x = some p → p.sn = x ∧ p.payload.length ≤ s.cfg.maxDgram) : t.Inv := by
  rw [← k.cfg] at g hcounts hpackets
  exact
  { config      := k.cfg ▸ h.config
    heldWf      := g.heldWf
    retryWf     := g.retryWf
    ahead       := g.ahead
    lowMissing  := g.lowMissing
    retryInGap  := g.retryInGap
    counts      := fun x c hx => ⟨g.positive x c hx, hcounts x c hx⟩
    emptyBefore := fun hf => absurd (hinit.symm.trans hf) (by decide)
    emptyAfter  := fun hf => absurd (hmode.symm.trans hf) (by decide)
    packets     := hpackets
    runLevel    := g.runLevel
    falling     := g.falling
    takenLe     := taken_le_of_kept k h.takenLe }

/-- With both stores empty nothing else is asked of `low`, `mode` and `initialized`. -/
theorem inv_of_empty {s t : State} (h : s.Inv) (k : Kept s t) (hheld : t.held = []) (hretry : t.retry = []) :
    t.Inv := by
  have g := gaps_nil t.cfg.deltaRule t.low
  rw [← hretry, ← hheld] at g
  exact
  { config      := k.cfg ▸ h.config
    heldWf      := g.heldWf
    retryWf     := g.retryWf
    ahead       := g.ahead
    lowMissing  := g.lowMissing
    retryInGap  := g.retryInGap
    counts      := fun x c hx => by simp [hretry] at hx
    emptyBefore := fun _ => ⟨hheld, hretry⟩
    emptyAfter  := fun _ => ⟨hheld, hretry⟩
    packets     := fun x p hx => by simp [hheld] at hx
    runLevel    := g.runLevel
    falling     := g.falling
    takenLe     := taken_le_of_kept k h.takenLe }

/-! ### Records, FLUSH and CLOSE -/

theorem inv_emit {s : State} (h : s.Inv) (r : Record) : (s.emit r).Inv :=
  inv_of_same h rfl rfl rfl rfl rfl rfl (taken_le_of_kept (kept_emit s r) h.takenLe)

theorem inv_release {s : State} (h : s.Inv) (c : Reason) (x : Item) : (s.release c x).Inv := inv_emit h _

theorem inv_rerequest {s : State} (h : s.Inv) (f c : U16) : (s.rerequest f c).Inv :=
  inv_of_same h rfl rfl rfl rfl rfl rfl (taken_le_of_kept (kept_rerequest s f c) h.takenLe)

theorem inv_flushAll {s : State} (h : s.Inv) : s.flushAll.Inv :=
  inv_of_empty h (kept_flushAll s) rfl rfl

theorem inv_closeAll {s : State} (h : s.Inv) : s.closeAll.Inv :=
  inv_of_empty h (kept_closeAll s) rfl rfl

theorem inv_withinDgram {B : List Byte} {body : State → State} {s : State} (h : s.Inv)
    (hbody : B.length ≤ s.cfg.maxDgram → (body s).Inv) : (s.withinDgram B body).Inv := by
  rcases Nat.lt_or_ge s.cfg.maxDgram B.length with hlt | hle
  · rw [withinDgram_of_lt _ _ _ hlt]
    exact inv_release h _ _
  · rw [withinDgram_of_le _ _ _ hle]
    exact hbody hle

theorem inv_atLeast {n : Nat} {B : List Byte} {body : State → State} {s : State} (h : s.Inv)
    (hbody : (body s).Inv) : (s.atLeast n B body).Inv := by
  rcases Nat.lt_or_ge B.length n with hlt | hle
  · rw [atLeast_of_lt _ _ _ _ hlt]
    exact inv_release h _ _
  · rw [atLeast_of_le _ _ _ _ hle]
    exact hbody

/-! ### HANDLE -/

/-- A sequence number that is held or behind `low` has no count to cancel (R112). -/
theorem del_retry_of_not_in_gap {s : State} (h : s.Inv) {k : SeqNo} (hk : s.dist k < 0 ∨ s.held.has k = true) :
    s.retry.del k = s.retry := by
  refine del_of_absent _ _ (Bool.eq_false_iff.mpr fun hr => ?_)
  obtain ⟨hmiss, hnn, -⟩ := h.retryInGap k hr
  rcases hk with hk | hk
  · omega
  · simp [hk] at hmiss

/-- R113: the packet at `low` is delivered and `low` drained. -/
theorem inv_deliver_drain {s : State} (h : s.Inv) (hmode : s.mode = .run) (hinit : s.initialized = true) (p : Packet) :
    (State.deliver p { s with retry := s.retry.del s.low }).drain.Inv := by
  obtain ⟨qs, hd⟩ := drain_spec (State.deliver p { s with retry := s.retry.del s.low })
  obtain ⟨-, htmode, htinit, -, htretry, -⟩ := hd.frame
  refine inv_of_gaps h (hd.kept.after ⟨rfl, rfl, rfl, rfl, [.deliver p], rfl⟩) (htmode.trans hmode)
    (htinit.trans hinit) ?_ ?_ ?_
  · rw [htretry]
    refine (gaps_of_inv h).skip_drain (c := 1) hd rfl rfl ?_ (del_wf _ _ h.retryWf) ?_
    · simpa [slotsFrom] using h.lowMissing
    · simpa [slotsFrom] using removed_del s.retry s.low
  · intro x c hx
    rw [htretry] at hx
    exact (h.counts x c ((removed_del s.retry s.low).get?_eq_some hx).2).2
  · exact fun x q hx => h.packets x q (Removed.get?_eq_some hd.held hx).2

/-- R117: a packet ahead of `low` and not held is stored. -/
theorem inv_hold {s : State} (h : s.Inv) (hmode : s.mode = .run) (hinit : s.initialized = true) {p : Packet}
    (hfit : p.payload.length ≤ s.cfg.maxDgram) (hne : p.sn ≠ s.low) (hnn : 0 ≤ s.dist p.sn) :
    State.Inv { s with retry := s.retry.del p.sn, held := s.held.set p.sn p } := by
  have hpos : 0 < delta s.cfg.deltaRule p.sn s.low := by
    refine lt_of_le_of_ne hnn fun hz => hne ?_
    have hp := add16_delta s.cfg.deltaRule p.sn s.low hnn
    rwa [← hz, Int.toNat_zero, add16_zero, eq_comm] at hp
  refine inv_of_gaps h ⟨rfl, rfl, rfl, rfl, [], by simp⟩ hmode hinit ((gaps_of_inv h).hold p hpos hne) ?_ ?_
  · exact fun x c hx => (h.counts x c ((removed_del s.retry p.sn).get?_eq_some hx).2).2
  · intro x q hx
    rw [get?_set] at hx
    split_ifs at hx with hxp
    · obtain rfl := Option.some.inj hx
      exact ⟨hxp.symm, hfit⟩
    · exact h.packets x q hx

theorem inv_place {s : State} (h : s.Inv) (hmode : s.mode = .run) (hinit : s.initialized = true) {p : Packet}
    (hfit : p.payload.length ≤ s.cfg.maxDgram) : (s.place p).Inv := by
  obtain ⟨hlow, heq⟩ | ⟨-, hbehind, heq⟩ | ⟨-, -, hheld, heq⟩ | ⟨hne, hnn, -, heq⟩ := place_cases p s <;> rw [heq]
  · rw [hlow]
    exact inv_deliver_drain h hmode hinit p
  · rw [del_retry_of_not_in_gap h (.inl hbehind)]
    exact inv_release h _ _
  · rw [del_retry_of_not_in_gap h (.inr hheld)]
    exact inv_release h _ _
  · exact inv_hold h hmode hinit hfit hne hnn

theorem inv_handle {s : State} (h : s.Inv) (hmode : s.mode = .run) {p : Packet}
    (hfit : p.payload.length ≤ s.cfg.maxDgram) : (s.handle p).Inv := by
  obtain ⟨hinit, heq⟩ | ⟨-, -, heq⟩ | ⟨hinit, -, heq⟩ := handle_cases p s <;> rw [heq]
  · exact inv_place (inv_emit h _) hmode hinit hfit
  · exact inv_release (inv_emit h _) _ _
  · obtain ⟨hheld, hretry⟩ := h.emptyBefore hinit
    refine inv_place (s := { s.emit _ with low := p.sn, initialized := true }) ?_ hmode rfl hfit
    exact inv_of_empty h ⟨rfl, rfl, rfl, rfl, _, rfl⟩ hheld hretry

/-! ### The codec -/

theorem inv_decline {s : State} (h : s.Inv) (B : List Byte) : (s.decline B).Inv :=
  inv_flushAll (inv_release h _ _)

theorem inv_recover {s : State} (h : s.Inv) (hmode : s.mode = .run) {B : List Byte}
    (hfit : B.length ≤ s.cfg.maxDgram) : (s.recover B).Inv := by
  have hinner : (innerOf B).length ≤ s.cfg.maxDgram :=
    (List.length_drop.trans_le (Nat.sub_le ..)).trans hfit
  exact inv_atLeast h (inv_atLeast h (inv_handle h hmode hinner))

theorem inv_audio {s : State} (h : s.Inv) (hmode : s.mode = .run) {B : List Byte}
    (hfit : B.length ≤ s.cfg.maxDgram) : (s.audio B).Inv :=
  inv_atLeast h (inv_handle h hmode hfit)

theorem inv_control {s : State} (h : s.Inv) (hmode : s.mode = .run) {B : List Byte}
    (hfit : B.length ≤ s.cfg.maxDgram) : (s.control B).Inv := by
  unfold State.control
  split_ifs
  · exact inv_emit h _
  · exact inv_release h _ _
  · exact inv_decline h B
  · exact inv_recover h hmode hfit
  · exact inv_release h _ _

theorem inv_data {s : State} (h : s.Inv) (hmode : s.mode = .run) {B : List Byte}
    (hfit : B.length ≤ s.cfg.maxDgram) : (s.data B).Inv := by
  unfold State.data
  split_ifs
  · exact inv_audio h hmode hfit
  · exact inv_release h _ _

end Sys2Proof.Proofs
end

section
/-! Proofs about 41_sequencer.md R120 to R126 and R131: a TICK counts every slot of the gaps, then evicts runs, each at
`low`, until the run at `low` is below GIVEUP. -/

namespace Sys2Proof.Proofs

open Sys2Proof.Machine Sys2Proof.Laws

/-! ### Counting -/

theorem bumpAll_append (R : Store U32) (ks ls : List SeqNo) :
    bumpAll R (ks ++ ls) = bumpAll (bumpAll R ks) ls := by
  induction ks generalizing R with
  | nil => rfl
  | cons k ks ih => exact ih (bump R k)

theorem get0_bumpAll_of_mem {R : Store U32} {ks : List SeqNo} {k : SeqNo} (hnd : ks.Nodup) (hk : k ∈ ks) :
    (bumpAll R ks).get0 k = R.get0 k + 1 := by
  rw [Store.get0, get?_bumpAll_of_mem R ks k hnd hk, Option.getD_some]

theorem get0_bumpAll_of_not_mem {R : Store U32} {ks : List SeqNo} {k : SeqNo} (hk : k ∉ ks) :
    (bumpAll R ks).get0 k = R.get0 k := by
  rw [Store.get0, get?_bumpAll_of_not_mem R ks k hk, Store.get0]

theorem has_bumpAll_of_mem {R : Store U32} {ks : List SeqNo} {k : SeqNo} (hnd : ks.Nodup) (hk : k ∈ ks) :
    (bumpAll R ks).has k = true := by
  rw [has_iff]
  exact ⟨_, get?_bumpAll_of_mem R ks k hnd hk⟩

/-- Counting slots that are not taken out, before or after taking out the others. -/
theorem Removed.bumpAll {R R' : Store U32} {ks ls : List SeqNo} (h : Removed ks R R') (hnd : ls.Nodup)
    (hdisj : ∀ k ∈ ls, k ∉ ks) : Removed ks (bumpAll R ls) (bumpAll R' ls) := by
  intro k
  by_cases hl : k ∈ ls
  · rw [get?_bumpAll_of_mem _ _ _ hnd hl, get?_bumpAll_of_mem _ _ _ hnd hl, if_neg (hdisj k hl),
      h.get0_of_not_mem (hdisj k hl)]
  · rw [get?_bumpAll_of_not_mem _ _ _ hl, get?_bumpAll_of_not_mem _ _ _ hl, h k]

theorem levelOf_le {R : Store U32} {ks : List SeqNo} {k : SeqNo} (hk : k ∈ ks) :
    levelOf R ks ≤ (R.get0 k).toNat := by
  induction ks with
  | nil => simp at hk
  | cons a ks ih =>
    cases ks with
    | nil => rw [List.mem_singleton.mp hk, levelOf]
    | cons b ks =>
      rcases List.mem_cons.mp hk with rfl | hk
      · exact min_le_left ..
      · exact (min_le_right ..).trans (ih hk)

theorem exists_levelOf_eq (R : Store U32) {ks : List SeqNo} (hks : ks ≠ []) :
    ∃ k ∈ ks, levelOf R ks = (R.get0 k).toNat := by
  induction ks with
  | nil => exact absurd rfl hks
  | cons a ks ih =>
    cases ks with
    | nil => exact ⟨a, List.mem_singleton_self a, rfl⟩
    | cons b ks =>
      obtain ⟨k, hk, heq⟩ := ih (List.cons_ne_nil b ks)
      rcases min_choice (R.get0 a).toNat (levelOf R (b :: ks)) with hmin | hmin
      · exact ⟨a, List.mem_cons_self, hmin⟩
      · exact ⟨k, List.mem_cons_of_mem a hk, hmin.trans heq⟩

/-! ### The gap slots -/

section Gaps

variable {rule : DeltaRule} {low : SeqNo} {held : Store Packet} {retry : Store U32}

/-- "A count does not increase along the range" (R131), from `low` on. -/
theorem Gaps.get0_le_get0_low (g : Gaps rule low held retry) {k : SeqNo} (hk : retry.has k = true) :
    (retry.get0 k).toNat ≤ (retry.get0 low).toNat := by
  obtain ⟨hmiss, hnn, h, hh, hlt⟩ := g.retryInGap k hk
  have hkd := add16_delta rule k low hnn
  have := g.falling 0 (delta rule k low).toNat h (Nat.zero_le _) hh (by omega)
    (by rw [add16_zero]; exact g.lowMissing) (by rw [hkd]; exact hmiss)
  rwa [hkd, add16_zero] at this

/-- All counts of a run at `low` are the count of `low` (R131). -/
theorem Gaps.get0_eq_get0_low (g : Gaps rule low held retry) {c : Nat}
    (hmiss : ∀ k ∈ slotsFrom low c, held.has k = false) {k : SeqNo} (hk : k ∈ slotsFrom low c)
    (hr : retry.has k = true) : retry.get0 k = retry.get0 low := by
  obtain ⟨-, hnn, h, hh, hlt⟩ := g.retryInGap k hr
  have hkd := add16_delta rule k low hnn
  rw [mem_slotsFrom_iff_delta_lt hnn] at hk
  rw [← hkd]
  exact g.get0_eq_of_missing hh (by omega) fun j hj => hmiss _ (mem_slotsFrom.mpr ⟨j, by omega, rfl⟩)

/-- Counting every gap slot once keeps the gaps, so long as no count overflows (R123). -/
theorem Gaps.bump (g : Gaps rule low held retry) {ks : List SeqNo} (hnd : ks.Nodup)
    (hks : ∀ k, k ∈ ks ↔ InGap rule low held k)
    (hmax : ∀ k c, retry.get? k = some c → c.toNat < 4294967295) : Gaps rule low held (bumpAll retry ks) := by
  have hget0 : ∀ k, k ∈ ks → ((bumpAll retry ks).get0 k).toNat = (retry.get0 k).toNat + 1 := fun k hk => by
    have hlt : (retry.get0 k).toNat < 4294967295 := by
      unfold Store.get0
      cases hc : retry.get? k with
      | none => simp
      | some c => simpa using hmax k c hc
    simp only [get0_bumpAll_of_mem hnd hk, BitVec.toNat_add, BitVec.reduceToNat]
    omega
  have hslot : ∀ {j : Nat} {h : SeqNo}, held.has h = true → (j : Int) < delta rule h low →
      held.has (add16 low j) = false → add16 low j ∈ ks := fun {j h} hh hj hm => by
    have hd := delta_add16 rule h low j hj.le
    exact (hks _).mpr ⟨hm, by omega, h, hh, by omega⟩
  constructor
  case heldWf => exact g.heldWf
  case retryWf => exact bumpAll_wf _ _ g.retryWf
  case ahead => exact g.ahead
  case lowMissing => exact g.lowMissing
  case retryInGap =>
    intro k hk
    by_cases hm : k ∈ ks
    · exact (hks k).mp hm
    · rw [Store.has, get?_bumpAll_of_not_mem _ _ _ hm] at hk
      exact g.retryInGap k hk
  case positive =>
    intro k c hc
    by_cases hm : k ∈ ks
    · have := hget0 k hm
      rw [Store.get0, hc, Option.getD_some] at this
      omega
    · rw [get?_bumpAll_of_not_mem _ _ _ hm] at hc
      exact g.positive k c hc
  case runLevel =>
    intro j h hh hj hm hm'
    rw [get0_bumpAll_of_mem hnd (hslot hh (by omega) hm), get0_bumpAll_of_mem hnd (hslot hh hj hm'),
      g.runLevel j h hh hj hm hm']
  case falling =>
    intro i j h hij hh hj hm hm'
    rw [hget0 _ (hslot hh (by omega) hm), hget0 _ (hslot hh hj hm')]
    exact Nat.succ_le_succ (g.falling i j h hij hh hj hm hm')

end Gaps

/-! ### The runs of a TICK -/

theorem slotsFrom_succ_last (low : SeqNo) (n : Nat) : slotsFrom low (n + 1) = slotsFrom low n ++ [add16 low n] := by
  simp [slotsFrom, List.range_succ]

section runsIn

variable {held : Store Packet} {k : SeqNo} (r : List SeqNo)

theorem runsIn_cons_of_held (cur : Option Run) (h : held.has k = true) :
    runsIn held cur (k :: r) = cur.toList ++ runsIn held none r := by
  cases cur <;> simp [runsIn, h]

theorem runsIn_none_cons_of_missing (h : held.has k = false) :
    runsIn held none (k :: r) = runsIn held (some ⟨k, 1⟩) r := by
  simp [runsIn, h]

theorem runsIn_some_cons_of_missing (c : Run) (h : held.has k = false) :
    runsIn held (some c) (k :: r) = runsIn held (some ⟨c.start, c.count + 1⟩) r := by
  simp [runsIn, h]

end runsIn

/-- The runs cover exactly the missing slots, in order; `cur` is the run that ends before the slots. -/
theorem flatMap_slots_runsIn (held : Store Packet) (n : Nat) (low : SeqNo) (cur : Option Run)
    (hcur : ∀ c ∈ cur, add16 c.start c.count = low) :
    (runsIn held cur (slotsFrom low n)).flatMap Run.slots =
      cur.toList.flatMap Run.slots ++ (slotsFrom low n).filter (fun k => !held.has k) := by
  induction n generalizing low cur with
  | zero => simp [runsIn]
  | succ n ih =>
    rw [slotsFrom_succ]
    cases hlow : held.has low with
    | true => simp [runsIn_cons_of_held _ cur hlow, ih (add16 low 1) none (by simp), hlow]
    | false =>
      cases cur with
      | none =>
        rw [runsIn_none_cons_of_missing _ hlow, ih (add16 low 1) (some ⟨low, 1⟩) (by simp)]
        simp [hlow, Run.slots, slotsFrom]
      | some c =>
        have hend : add16 c.start c.count = low := hcur c rfl
        rw [runsIn_some_cons_of_missing _ c hlow, ih (add16 low 1)]
        · simp [hlow, Run.slots, slotsFrom_succ_last, hend]
        · rintro d ⟨⟩
          rw [← hend, add16_add]

theorem count_pos_of_mem_runsIn (held : Store Packet) (ks : List SeqNo) (cur : Option Run)
    (hcur : ∀ c ∈ cur, 1 ≤ c.count) : ∀ r ∈ runsIn held cur ks, 1 ≤ r.count := by
  induction ks generalizing cur with
  | nil => simpa [runsIn] using hcur
  | cons k ks ih =>
    intro r hr
    cases hk : held.has k with
    | true =>
      rw [runsIn_cons_of_held _ cur hk, List.mem_append, Option.mem_toList] at hr
      exact hr.elim (hcur r) (ih none (by simp) r)
    | false =>
      cases cur with
      | none =>
        rw [runsIn_none_cons_of_missing _ hk] at hr
        exact ih (some ⟨k, 1⟩) (by simp) r hr
      | some c =>
        rw [runsIn_some_cons_of_missing _ c hk] at hr
        exact ih (some ⟨c.start, c.count + 1⟩) (by simp) r hr

/-- The missing slots of a range that begins with a run of `c` and then `d` held slots, which then leave the store. -/
theorem filter_missing_slotsFrom {held held' : Store Packet} {low : SeqNo} {c d n : Nat}
    (hmiss : ∀ k ∈ slotsFrom low c, held.has k = false)
    (hheld : ∀ k ∈ slotsFrom (add16 low c) d, held.has k = true)
    (hrem : Removed (slotsFrom low (c + d)) held held') (hle : c + d + n ≤ 65536) :
    (slotsFrom low (c + d + n)).filter (fun k => !held.has k) =
      slotsFrom low c ++ (slotsFrom (add16 low (c + d)) n).filter (fun k => !held'.has k) := by
  have hout : ∀ k ∈ slotsFrom (add16 low (c + d)) n, k ∉ slotsFrom low (c + d) := by
    have hnd := nodup_slotsFrom low hle
    rw [slotsFrom_add] at hnd
    exact fun k hk hk' => (List.nodup_append'.mp hnd).2.2 hk' hk
  have hrun : (slotsFrom low c).filter (fun k => !held.has k) = slotsFrom low c :=
    List.filter_eq_self.mpr fun k hk => by simp [hmiss k hk]
  have hdrained : (slotsFrom (add16 low c) d).filter (fun k => !held.has k) = [] :=
    List.filter_eq_nil_iff.mpr fun k hk => by simp [hheld k hk]
  rw [slotsFrom_add, slotsFrom_add, List.filter_append, List.filter_append, hrun, hdrained, List.append_nil]
  congr 1
  exact List.filter_congr fun k hk => by rw [hrem.has_of_not_mem (hout k hk)]

theorem farthest_eq_none {d : SeqNo → Int} {ks : List SeqNo} (h : farthest d ks = none) : ks = [] := by
  cases ks with
  | nil => rfl
  | cons k r =>
    rw [farthest] at h
    split at h <;> simp at h

/-- The distance R121 scans to is a key's, and no key is farther. -/
theorem farthest_eq_some {d : SeqNo → Int} {ks : List SeqNo} {m : Int} (h : farthest d ks = some m) :
    (∃ k ∈ ks, d k = m) ∧ ∀ k ∈ ks, d k ≤ m := by
  induction ks generalizing m with
  | nil => simp [farthest] at h
  | cons a r ih =>
    rw [farthest] at h
    cases hr : farthest d r with
    | none =>
      obtain rfl : d a = m := by simpa [hr] using h
      simp [farthest_eq_none hr]
    | some n =>
      obtain ⟨⟨k, hk, hkn⟩, hle⟩ := ih hr
      simp only [hr, Option.some.injEq] at h
      split_ifs at h with hlt
      · subst h
        refine ⟨⟨a, List.mem_cons_self, rfl⟩, List.forall_mem_cons.mpr ⟨le_rfl, fun x hx => ?_⟩⟩
        exact (hle x hx).trans hlt.le
      · subst h
        exact ⟨⟨k, List.mem_cons_of_mem a hk, hkn⟩, List.forall_mem_cons.mpr ⟨not_lt.mp hlt, hle⟩⟩

/-- Give-up of a run at `low`: its counts go, `low` moves past it, and DRAIN (R124). -/
theorem giveUp_at_low {r : Run} {s : State} (h : r.start = s.low) :
    ∃ qs u, Drained u (s.giveUp r) qs ∧ u.cfg = s.cfg ∧ u.low = add16 s.low r.count ∧ u.held = s.held ∧
      u.retry = delAll s.retry r.slots := by
  obtain ⟨u, rfl, ⟨-, ht⟩ | ⟨hne, -⟩⟩ := giveUp_cases r s
  · rw [ht]
    obtain ⟨qs, hd⟩ := drain_spec _
    exact ⟨qs, _, hd, rfl, by rw [h], rfl, rfl⟩
  · exact absurd h hne

/-! ### What a TICK leaves alone -/

theorem scanRun_frame (r : Run) (s : State) :
    (s.scanRun r).mode = s.mode ∧ (s.scanRun r).initialized = s.initialized ∧
      ∀ k p, (s.scanRun r).held.get? k = some p → s.held.get? k = some p := by
  obtain ⟨u, rfl, ⟨-, h⟩ | ⟨-, -, h⟩ | ⟨-, -, h⟩⟩ := scanRun_cases r s <;> rw [h]
  · obtain ⟨v, rfl, ⟨-, h⟩ | ⟨-, h⟩⟩ := giveUp_cases r { s with retry := bumpAll s.retry r.slots } <;> rw [h]
    · obtain ⟨qs, hd⟩ := drain_spec { s.emit (.evict r.start (BitVec.ofNat 16 r.count)) with
        retry := delAll (bumpAll s.retry r.slots) r.slots, low := add16 r.start r.count }
      obtain ⟨-, hmode, hinit, -⟩ := hd.frame
      exact ⟨hmode, hinit, fun k p hk => (Removed.get?_eq_some hd.held hk).2⟩
    · exact ⟨rfl, rfl, fun _ _ => id⟩
  · exact ⟨rfl, rfl, fun _ _ => id⟩
  · exact ⟨rfl, rfl, fun _ _ => id⟩

theorem scanRuns_frame (l : List Run) (s : State) :
    (s.scanRuns l).mode = s.mode ∧ (s.scanRuns l).initialized = s.initialized ∧
      ∀ k p, (s.scanRuns l).held.get? k = some p → s.held.get? k = some p := by
  induction l generalizing s with
  | nil => exact ⟨rfl, rfl, fun _ _ => id⟩
  | cons r l ih =>
    obtain ⟨hmode, hinit, hheld⟩ := ih (s.scanRun r)
    obtain ⟨hmode', hinit', hheld'⟩ := scanRun_frame r s
    exact ⟨hmode.trans hmode', hinit.trans hinit', fun k p hk => hheld' k p (hheld k p hk)⟩

/-- Runs with a slot that stays below GIVEUP are counted and not evicted (R125). -/
theorem scanRuns_of_below_giveup (l : List Run) (s : State) (hnd : (l.flatMap Run.slots).Nodup)
    (hlow : ∀ r ∈ l, ∃ k ∈ r.slots, (s.retry.get0 k + 1).toNat < s.cfg.giveup) :
    (s.scanRuns l).low = s.low ∧ (s.scanRuns l).held = s.held ∧
      (s.scanRuns l).retry = bumpAll s.retry (l.flatMap Run.slots) := by
  induction l generalizing s with
  | nil => exact ⟨rfl, rfl, rfl⟩
  | cons r l ih =>
    rw [List.flatMap_cons, List.nodup_append'] at hnd
    obtain ⟨hr, hl, hdisj⟩ := hnd
    have hscan : (s.scanRun r).low = s.low ∧ (s.scanRun r).held = s.held ∧
        (s.scanRun r).retry = bumpAll s.retry r.slots := by
      obtain ⟨k, hk, hlt⟩ := hlow r List.mem_cons_self
      rw [← get0_bumpAll_of_mem hr hk] at hlt
      have hlevel := (levelOf_le hk).trans_lt hlt
      obtain ⟨u, rfl, ⟨hge, -⟩ | ⟨-, -, h⟩ | ⟨-, -, h⟩⟩ := scanRun_cases r s
      · exact absurd hlevel (Nat.not_lt.mpr hge)
      all_goals rw [h]; exact ⟨rfl, rfl, rfl⟩
    obtain ⟨hslow, hsheld, hsretry⟩ := hscan
    have hrest : ∀ q ∈ l, ∃ k ∈ q.slots, ((s.scanRun r).retry.get0 k + 1).toNat < (s.scanRun r).cfg.giveup := by
      intro q hq
      obtain ⟨k, hk, hlt⟩ := hlow q (List.mem_cons_of_mem r hq)
      have hkr : k ∉ r.slots := fun hkr => hdisj hkr (List.mem_flatMap.mpr ⟨q, hq, hk⟩)
      refine ⟨k, hk, ?_⟩
      rwa [hsretry, get0_bumpAll_of_not_mem hkr, (kept_scanRun r s).cfg]
    obtain ⟨htlow, htheld, htretry⟩ := ih (s.scanRun r) hl hrest
    refine ⟨htlow.trans hslow, htheld.trans hsheld, htretry.trans ?_⟩
    rw [hsretry, List.flatMap_cons, bumpAll_append]

/-! ### The scan -/

/-- The state within a TICK: `l` are the runs still to scan, which cover the missing ones of `span` slots from `low`;
when their slots are counted, the gaps are in order. -/
structure Scanning (s : State) (span : Nat) (l : List Run) : Prop where
  gaps     : Gaps s.cfg.deltaRule s.low s.held (bumpAll s.retry (l.flatMap Run.slots))
  retryWf  : s.retry.wf = true
  slots    : l.flatMap Run.slots = (slotsFrom s.low span).filter (fun k => !s.held.has k)
  countPos : ∀ r ∈ l, 1 ≤ r.count
  spanLe   : span ≤ 65536
  covers   : ∀ h, s.held.has h = true → s.dist h < span

section Scanning

variable {s : State} {span : Nat} {l : List Run} {r : Run}

theorem Scanning.nodup (S : Scanning s span l) : (l.flatMap Run.slots).Nodup := by
  rw [S.slots]
  exact (nodup_slotsFrom _ S.spanLe).filter _

theorem Scanning.missing (S : Scanning s span l) {k : SeqNo} (hk : k ∈ l.flatMap Run.slots) :
    s.held.has k = false := by
  rw [S.slots, List.mem_filter] at hk
  simpa using hk.2

/-- The slot after the range is not held: it is farther than every held key, or it is `low` again. -/
theorem Scanning.span_not_held (S : Scanning s span l) : s.held.has (add16 s.low span) = false := by
  rw [Bool.eq_false_iff]
  intro hh
  have hpos := S.gaps.ahead _ hh
  have hlt : delta s.cfg.deltaRule (add16 s.low span) s.low < span := S.covers _ hh
  have heq := congrArg BitVec.toNat (add16_delta s.cfg.deltaRule (add16 s.low span) s.low hpos.le)
  have hspan := S.spanLe
  rw [toNat_add16, toNat_add16] at heq
  omega

/-- A scan with nothing left to scan has nothing held. -/
theorem Scanning.held_nil (S : Scanning s span []) : s.held = [] := by
  cases hheld : s.held with
  | nil => rfl
  | cons e R =>
    have hh : s.held.has e.1 = true := by simp [hheld, Store.has, Store.get?]
    have hpos : 0 < s.dist e.1 := S.gaps.ahead _ hh
    have hlt := S.covers _ hh
    have hlow : s.low ∈ (slotsFrom s.low span).filter (fun k => !s.held.has k) := by
      rw [List.mem_filter, mem_slotsFrom]
      exact ⟨⟨0, by omega, (add16_zero _).symm⟩, by simp [S.gaps.lowMissing]⟩
    simp [← S.slots] at hlow

/-- The run scanned next starts at `low` (R130). -/
theorem Scanning.start_eq_low (S : Scanning s span (r :: l)) : r.start = s.low := by
  obtain ⟨n, hn⟩ := Nat.exists_eq_add_of_le' (S.countPos r List.mem_cons_self)
  have hslots := S.slots
  rw [List.flatMap_cons, Run.slots, hn, slotsFrom_succ] at hslots
  cases span with
  | zero => simp at hslots
  | succ m =>
    rw [slotsFrom_succ, List.filter_cons, if_pos (by simp [S.gaps.lowMissing])] at hslots
    exact (List.cons.inj hslots).1

theorem Scanning.slots_head (S : Scanning s span (r :: l)) : r.slots = slotsFrom s.low r.count := by
  rw [Run.slots, S.start_eq_low]

theorem Scanning.count_le_span (S : Scanning s span (r :: l)) : r.count ≤ span := by
  have hlen := congrArg List.length S.slots
  have hle := List.length_filter_le (fun k => !s.held.has k) (slotsFrom s.low span)
  rw [List.flatMap_cons, List.length_append, Run.slots, length_slotsFrom] at hlen
  rw [length_slotsFrom] at hle
  omega

/-- Where the count of `low` reaches GIVEUP, so does the level of its run (R131). -/
theorem Scanning.giveup_le_level (S : Scanning s span (r :: l))
    (hlow : s.cfg.giveup ≤ ((bumpAll s.retry ((r :: l).flatMap Run.slots)).get0 s.low).toNat) :
    s.cfg.giveup ≤ levelOf (bumpAll s.retry r.slots) r.slots := by
  have hnd := S.nodup
  have hmiss := fun k hk => S.missing (k := k) hk
  have hg := S.gaps
  rw [List.flatMap_cons] at hnd hmiss hg hlow
  have hcount := S.countPos r List.mem_cons_self
  have hne : r.slots ≠ [] := by
    rw [← List.length_pos_iff, Run.slots, length_slotsFrom]
    exact hcount
  obtain ⟨k, hk, hlevel⟩ := exists_levelOf_eq (bumpAll s.retry r.slots) hne
  have hk' : k ∈ r.slots ++ l.flatMap Run.slots := List.mem_append_left _ hk
  have heq := hg.get0_eq_get0_low (c := r.count)
    (fun x hx => hmiss x (List.mem_append_left _ (S.slots_head ▸ hx))) (S.slots_head ▸ hk)
    (has_bumpAll_of_mem hnd hk')
  rw [get0_bumpAll_of_mem hnd hk'] at heq
  rwa [hlevel, get0_bumpAll_of_mem (List.nodup_append'.mp hnd).1 hk, heq]

/-- One eviction: DRAIN stops at the first missing slot after the run, and the scan goes on from there (R124, R131). -/
theorem Scanning.evict (S : Scanning s span (r :: l)) :
    ∃ n, Scanning (State.giveUp r { s with retry := bumpAll s.retry r.slots }) n l := by
  obtain ⟨qs, u, hd, hcfg, hlow, hheld, hretry⟩ :=
    giveUp_at_low (s := { s with retry := bumpAll s.retry r.slots }) S.start_eq_low
  generalize State.giveUp r { s with retry := bumpAll s.retry r.slots } = t at hd ⊢
  obtain ⟨htcfg, -, -, htlow, htretry, -⟩ := hd.frame
  simp only at hcfg hlow hheld hretry
  obtain ⟨hr, hl, hdisj⟩ := List.nodup_append'.mp (List.flatMap_cons ▸ S.nodup)
  have hmiss : ∀ k ∈ r.slots, s.held.has k = false := fun k hk => S.missing (by simp [hk])
  have hwf := delAll_wf _ r.slots (bumpAll_wf _ r.slots S.retryWf)
  -- The drained slots lie within the range, since the slot after it is not held.
  have hle : r.count + qs.length ≤ span := by
    by_contra hlt
    have hcount := S.count_le_span
    have hwas := hd.were (span - r.count) (by omega)
    rw [hlow, hheld, add16_add, Nat.add_sub_cancel' hcount, (has_eq_false _ _).mp S.span_not_held] at hwas
    simp at hwas
  have hwere : ∀ k ∈ slotsFrom (add16 s.low r.count) qs.length, s.held.has k = true := by
    intro k hk
    obtain ⟨i, hi, rfl⟩ := mem_slotsFrom.mp hk
    rw [← hlow, ← hheld]
    exact (has_iff _ _).mpr ⟨_, hd.were i hi⟩
  have hpassed : Removed (slotsFrom s.low (r.count + qs.length)) s.held t.held := by
    rw [slotsFrom_add, ← hlow, ← S.slots_head]
    refine (removed_of_absent fun k hk => (has_eq_false _ _).mp (hmiss k hk)).append ?_
    rw [← hheld]
    exact hd.held
  rw [hlow, add16_add] at htlow
  refine ⟨span - (r.count + qs.length), ?gaps, ?retryWf, ?slots, ?countPos, ?spanLe, ?covers⟩
  case gaps =>
    have hg := S.gaps
    rw [List.flatMap_cons, bumpAll_append] at hg
    rw [htcfg, hcfg, htretry, hretry]
    refine hg.skip_drain hd hlow hheld (S.slots_head ▸ hmiss) (bumpAll_wf _ _ hwf) ?_
    rw [← S.slots_head]
    exact (removed_delAll _ _).bumpAll hl fun k hk hkr => hdisj hkr hk
  case retryWf =>
    rw [htretry, hretry]
    exact hwf
  case slots =>
    obtain ⟨n, rfl⟩ := Nat.exists_eq_add_of_le hle
    have hslots := S.slots
    rw [filter_missing_slotsFrom (S.slots_head ▸ hmiss) hwere hpassed S.spanLe, List.flatMap_cons,
      S.slots_head] at hslots
    rw [htlow, Nat.add_sub_cancel_left]
    exact List.append_cancel_left hslots
  case countPos => exact fun q hq => S.countPos q (List.mem_cons_of_mem r hq)
  case spanLe => exact (Nat.sub_le ..).trans S.spanLe
  case covers =>
    intro h hh
    obtain ⟨hout, hold⟩ := hpassed.has_eq_true hh
    have hlt : delta s.cfg.deltaRule h s.low < span := S.covers h hold
    have hpos := S.gaps.ahead h hold
    rw [mem_slotsFrom_iff_delta_lt hpos.le] at hout
    rw [State.dist, htcfg, hcfg, htlow, delta_advance _ _ _ _ (not_lt.mp hout)]
    omega

/-- After the scan the gaps are in order, and every count is below GIVEUP. -/
theorem Scanning.scanRuns (S : Scanning s span l) :
    Gaps s.cfg.deltaRule (s.scanRuns l).low (s.scanRuns l).held (s.scanRuns l).retry ∧
      ∀ k c, (s.scanRuns l).retry.get? k = some c → c.toNat < s.cfg.giveup := by
  induction l generalizing s span with
  | nil =>
    have g : Gaps s.cfg.deltaRule s.low s.held s.retry := S.gaps
    refine ⟨g, fun k c hk => ?_⟩
    rw [S.held_nil] at g
    change s.retry.get? k = some c at hk
    simp [g.retry_nil_of_held_nil] at hk
  | cons r l ih =>
    have g := S.gaps
    have hnd := S.nodup
    rcases Nat.lt_or_ge ((bumpAll s.retry ((r :: l).flatMap Run.slots)).get0 s.low).toNat s.cfg.giveup with hlt | hge
    · have hbelow : ∀ q ∈ r :: l, ∃ k ∈ q.slots, (s.retry.get0 k + 1).toNat < s.cfg.giveup := by
        intro q hq
        have hk : q.start ∈ q.slots := mem_runSlots.mpr ⟨0, S.countPos q hq, (add16_zero _).symm⟩
        have hk' : q.start ∈ (r :: l).flatMap Run.slots := List.mem_flatMap.mpr ⟨q, hq, hk⟩
        refine ⟨q.start, hk, ?_⟩
        rw [← get0_bumpAll_of_mem hnd hk']
        exact (g.get0_le_get0_low (has_bumpAll_of_mem hnd hk')).trans_lt hlt
      obtain ⟨hlow, hheld, hretry⟩ := scanRuns_of_below_giveup (r :: l) s hnd hbelow
      rw [hlow, hheld, hretry]
      refine ⟨g, fun k c hk => ?_⟩
      have hle := g.get0_le_get0_low ((has_iff _ _).mpr ⟨c, hk⟩)
      rw [Store.get0, hk, Option.getD_some] at hle
      exact hle.trans_lt hlt
    · have hlevel := S.giveup_le_level hge
      have hscan : s.scanRun r = State.giveUp r { s with retry := bumpAll s.retry r.slots } := by
        obtain ⟨u, rfl, ⟨-, h⟩ | ⟨hlt, -⟩ | ⟨hlt, -⟩⟩ := scanRun_cases r s
        · exact h
        all_goals exact absurd hlevel (Nat.not_le.mpr hlt)
      obtain ⟨n, hn⟩ := S.evict
      rw [← hscan] at hn
      have := ih hn
      rwa [(kept_scanRun r s).cfg] at this

end Scanning

/-- The slots a TICK's range and its missing ones are the gap slots (R121, R122, R42). -/
theorem mem_missing_iff_inGap {rule : DeltaRule} {low hi : SeqNo} {held : Store Packet} (hhi : held.has hi = true)
    (hpos : 0 < delta rule hi low) (hmax : ∀ k, held.has k = true → delta rule k low ≤ delta rule hi low) (k : SeqNo) :
    k ∈ (slotsFrom low (delta rule hi low + 1).toNat).filter (fun k => !held.has k) ↔ InGap rule low held k := by
  rw [List.mem_filter, Bool.not_eq_true']
  constructor
  · rintro ⟨hk, hmiss⟩
    obtain ⟨i, hi', rfl⟩ := mem_slotsFrom.mp hk
    have hd := delta_add16 rule hi low i (by omega)
    refine ⟨hmiss, by omega, hi, hhi, lt_of_le_of_ne (by omega) fun heq => ?_⟩
    rw [eq_of_delta_eq (by omega) heq, hhi] at hmiss
    exact absurd hmiss (by decide)
  · rintro ⟨hmiss, hnn, h, hh, hlt⟩
    have := hmax h hh
    exact ⟨(mem_slotsFrom_iff_delta_lt hnn _).mpr (by omega), hmiss⟩

theorem scanning_of_inv {s : State} (h : s.Inv) : ∃ span, Scanning s span s.tickRuns := by
  have g := gaps_of_inv h
  cases hfar : farthest s.dist s.held.keys with
  | none =>
    have hheld : s.held = [] := List.map_eq_nil_iff.mp (farthest_eq_none hfar)
    rw [tickRuns_of_empty s hheld]
    exact ⟨0, g, h.retryWf, rfl, by simp, by omega, by simp [hheld]⟩
  | some m =>
    obtain ⟨⟨hi, hhi, rfl⟩, hmax⟩ := farthest_eq_some hfar
    rw [mem_keys_iff_has] at hhi
    replace hmax : ∀ k, s.held.has k = true → delta s.cfg.deltaRule k s.low ≤ delta s.cfg.deltaRule hi s.low :=
      fun k hk => hmax k ((mem_keys_iff_has _ _).mpr hk)
    have hpos := g.ahead hi hhi
    have hcap := delta_le_heldCap s.cfg.deltaRule hi s.low
    have hcap' := heldCap_le s.cfg.deltaRule
    have hruns : s.tickRuns = missingRuns s.held s.low (s.dist hi + 1).toNat := by
      rw [State.tickRuns, hfar]
    have hspan : (s.dist hi + 1).toNat ≤ 65536 := by
      rw [State.dist]
      omega
    have hslots : s.tickRuns.flatMap Run.slots =
        (slotsFrom s.low (s.dist hi + 1).toNat).filter (fun k => !s.held.has k) := by
      rw [hruns, missingRuns, flatMap_slots_runsIn _ _ _ none (by simp)]
      rfl
    refine ⟨(s.dist hi + 1).toNat, ?gaps, h.retryWf, hslots, ?countPos, hspan, ?covers⟩
    case gaps =>
      rw [hslots]
      refine g.bump ((nodup_slotsFrom _ hspan).filter _) (mem_missing_iff_inGap hhi hpos hmax) fun k c hk => ?_
      have hgiveup : s.cfg.giveup ≤ 4294967295 := by
        have := h.config
        simp only [configOk, Bool.and_eq_true, decide_eq_true_eq] at this
        omega
      exact (h.counts k c hk).2.trans_le hgiveup
    case countPos =>
      rw [hruns]
      exact count_pos_of_mem_runsIn _ _ none (by simp)
    case covers =>
      intro k hk
      have : s.dist k ≤ s.dist hi := hmax k hk
      omega

theorem inv_tick {s : State} (h : s.Inv) (hmode : s.mode = .run) : (s.scanRuns s.tickRuns).Inv := by
  cases hinit : s.initialized with
  | false => rwa [tickRuns_of_empty s (h.emptyBefore hinit).1]
  | true =>
    obtain ⟨span, S⟩ := scanning_of_inv h
    obtain ⟨g, hcounts⟩ := S.scanRuns
    obtain ⟨htmode, htinit, htheld⟩ := scanRuns_frame s.tickRuns s
    exact inv_of_gaps h (kept_scanRuns _ s) (htmode.trans hmode) (htinit.trans hinit) g hcounts
      fun k p hk => h.packets k p (htheld k p hk)

end Sys2Proof.Proofs
end

section
/-! Proofs about 10_state.md section 5: every instruction, and so every step, keeps the invariant. -/

namespace Sys2Proof.Proofs

open Sys2Proof.Machine Sys2Proof.Laws

theorem inv_takeEvent {s : State} (h : s.Inv) (rest : List Slot) : (s.takeEvent rest).Inv :=
  inv_of_same h rfl rfl rfl rfl rfl rfl h.takenLe

theorem inv_handOver {s : State} (h : s.Inv) : s.handOver.Inv := by
  rw [handOver_eq]
  refine inv_of_same h rfl rfl rfl rfl rfl rfl ?_
  have := h.takenLe
  split_ifs <;> simp [this]

/-- Every instruction, performed in RUN, keeps the invariant. -/
theorem inv_exec {i : Instr} {s t : State} (h : s.Inv) (hmode : s.mode = .run) (hx : exec i s = .next t) : t.Inv := by
  cases i <;> obtain rfl := Host.Outcome.next.inj hx
  case pkt sn rx B => exact inv_withinDgram h fun hfit => inv_handle h hmode hfit
  case tick => exact inv_tick h hmode
  case flush => exact inv_flushAll h
  case close => exact inv_closeAll h
  case delta a b => exact inv_emit h _
  case rxc B => exact inv_withinDgram h fun hfit => inv_atLeast h (inv_control h hmode hfit)
  case rxd B => exact inv_withinDgram h fun hfit => inv_atLeast h (inv_data h hmode hfit)
  case rxcTiming B => exact inv_withinDgram h fun _ => inv_emit h _
  case rxcEcho B => exact inv_withinDgram h fun _ => inv_release h _ _
  case rxcDecline B => exact inv_withinDgram h fun _ => inv_decline h B
  case rxcRecovered B => exact inv_withinDgram h fun hfit => inv_recover h hmode hfit
  case rxdAudio B => exact inv_withinDgram h fun hfit => inv_audio h hmode hfit
  case rxcUnknown B => exact inv_withinDgram h fun _ => inv_release h _ _
  case rxdUnknown B => exact inv_withinDgram h fun _ => inv_release h _ _
  case rrq first count => exact inv_rerequest h first count

/-- Settles O51: the event is taken in RUN, its instruction keeps the invariant, and so does handing over its records. -/
theorem stepKeepsTheInvariant : Obligations.StepKeepsTheInvariant := by
  intro s t h hstep
  obtain ⟨hstop, e, rest, i, u, -, -, hx, rfl⟩ := step_next hstep
  obtain ⟨-, -, hmode, -⟩ := stop_eq_none.mp hstop
  exact inv_handOver (inv_exec (inv_takeEvent h rest) hmode hx)

end Sys2Proof.Proofs
end

section
/-! Proofs about 30_encoding.md R90, 42_codec.md R150 and R151: the bytes a rerequest is made of, and the number they
spell. -/

namespace Sys2Proof.Proofs

open Sys2Proof.Machine Sys2Proof.Laws

/-- ENCODE_RRQ, written byte by byte into its buffer (R150), gives the layout of R90. -/
theorem encodeRrq_eq_rrqBytes (txseq first count : U16) :
    encodeRrq txseq first count = rrqBytes txseq first count := rfl

theorem rrqBytes_length (txseq first count : U16) : (rrqBytes txseq first count).length = 8 := rfl

/-- A field at the head of a window is its value at that place, above what the rest spells. -/
theorem windowNat_put16_append (n : Nat) (v : U16) (r : List Byte) :
    windowNat (n + 2) (put16 v ++ r) = v.toNat * 2 ^ (8 * n) + windowNat n r := by
  have hv := v.isLt
  have hhigh : v.toNat / 256 < 256 := by omega
  have hpow : 2 ^ (8 * (n + 1)) = 256 * 2 ^ (8 * n) := by rw [Nat.mul_succ, Nat.pow_add, Nat.mul_comm]
  calc windowNat (n + 2) (put16 v ++ r)
      = v.toNat / 256 * 2 ^ (8 * (n + 1)) + (v.toNat % 256 * 2 ^ (8 * n) + windowNat n r) := by
        simp [put16_eq_div_mod, windowNat, hhigh]
    _ = (256 * (v.toNat / 256) + v.toNat % 256) * 2 ^ (8 * n) + windowNat n r := by rw [hpow]; ring
    _ = v.toNat * 2 ^ (8 * n) + windowNat n r := by rw [Nat.div_add_mod]

/-- R90's last line: as one big-endian number, a rerequest is `0x80D5_TTTT_FFFF_CCCC`. -/
theorem windowNat_rrqBytes (txseq first count : U16) :
    windowNat 8 (rrqBytes txseq first count) =
      0x80D5 * 2 ^ 48 + txseq.toNat * 2 ^ 32 + first.toNat * 2 ^ 16 + count.toNat := by
  have hbytes : rrqBytes txseq first count =
      put16 0x80D5 ++ (put16 txseq ++ (put16 first ++ (put16 count ++ []))) := rfl
  simp only [hbytes, windowNat_put16_append, windowNat, BitVec.reduceToNat]
  omega

/-- Settles O34: ENCODE_RRQ writes the layout of R90, each field of which is 16 bits of the number it spells. -/
theorem rerequestHasTheLayout : Obligations.RerequestHasTheLayout := by
  intro first count s
  refine ⟨rrqBytes s.txseq first count, ?_, rfl, rrqBytes_length .., windowNat_rrqBytes ..⟩
  rw [← encodeRrq_eq_rrqBytes]
  rfl

end Sys2Proof.Proofs
end

section
/-! Proofs about 40_comparator.md R101 to R103: the distance under either rule, case by case, and its laws. -/

namespace Sys2Proof.Proofs

open Sys2Proof.Machine Sys2Proof.Laws

/-! ### SHORTEST, one equation per branch of R101 -/

section Shortest

variable {a b : SeqNo}

theorem delta_shortest_of_gt (h : 32768 < (a.toNat : Int) - b.toNat) :
    delta .shortest a b = (a.toNat : Int) - b.toNat - 65536 :=
  if_pos h

theorem delta_shortest_of_lt (h : (a.toNat : Int) - b.toNat < -32768) :
    delta .shortest a b = (a.toNat : Int) - b.toNat + 65536 :=
  (if_neg (by omega)).trans (if_pos h)

theorem delta_shortest_of_between (hlo : -32768 ≤ (a.toNat : Int) - b.toNat)
    (hhi : (a.toNat : Int) - b.toNat ≤ 32768) : delta .shortest a b = (a.toNat : Int) - b.toNat :=
  (if_neg hhi.not_gt).trans (if_neg hlo.not_gt)

theorem delta_shortest_of_abs_le (h : |(a.toNat : Int) - b.toNat| ≤ 32768) :
    delta .shortest a b = (a.toNat : Int) - b.toNat :=
  delta_shortest_of_between (abs_le.mp h).1 (abs_le.mp h).2

variable (a b)

/-- The three branches, each with its guard. -/
theorem delta_shortest_cases :
    (32768 < (a.toNat : Int) - b.toNat ∧ delta .shortest a b = (a.toNat : Int) - b.toNat - 65536) ∨
    ((a.toNat : Int) - b.toNat < -32768 ∧ delta .shortest a b = (a.toNat : Int) - b.toNat + 65536) ∨
    (-32768 ≤ (a.toNat : Int) - b.toNat ∧ (a.toNat : Int) - b.toNat ≤ 32768 ∧
      delta .shortest a b = (a.toNat : Int) - b.toNat) := by
  by_cases hgt : 32768 < (a.toNat : Int) - b.toNat
  · exact .inl ⟨hgt, delta_shortest_of_gt hgt⟩
  · by_cases hlt : (a.toNat : Int) - b.toNat < -32768
    · exact .inr (.inl ⟨hlt, delta_shortest_of_lt hlt⟩)
    · rw [not_lt] at hgt hlt
      exact .inr (.inr ⟨hlt, hgt, delta_shortest_of_between hlt hgt⟩)

/-- The distance represents the plain difference modulo 65536. -/
theorem exists_sub_eq_delta_shortest_add :
    ∃ k : Int, (a.toNat : Int) - b.toNat = delta .shortest a b + 65536 * k := by
  obtain ⟨-, h⟩ | ⟨-, h⟩ | ⟨-, -, h⟩ := delta_shortest_cases a b <;> rw [h]
  · exact ⟨1, by ring⟩
  · exact ⟨-1, by ring⟩
  · exact ⟨0, by ring⟩

end Shortest

/-! ### GUARD_8192 -/

/-- `a` is "within 8192 of zero" and `b` "within 8192 of 65535", so that `a` is lifted against `b` (R102). -/
def Lifted (a b : SeqNo) : Prop := a.toNat < 8192 ∧ 57344 ≤ b.toNat

section Guard

variable {a b : SeqNo}

theorem guardLift_of_lifted (h : Lifted a b) : guardLift a b = (a.toNat : Int) + 65536 := if_pos h

theorem guardLift_of_not_lifted (h : ¬ Lifted a b) : guardLift a b = a.toNat := if_neg h

/-- "The two conditions cannot both hold" (R102). -/
theorem Lifted.not_symm (h : Lifted a b) : ¬ Lifted b a := by
  unfold Lifted at *
  omega

theorem Lifted.sub_lt (h : Lifted a b) : (a.toNat : Int) - b.toNat < -32768 := by
  unfold Lifted at h
  omega

theorem not_lifted_of_abs_le (h : |(a.toNat : Int) - b.toNat| ≤ 32768) : ¬ Lifted a b := fun hl =>
  hl.sub_lt.not_ge (abs_le.mp h).1

theorem delta_guard_eq : delta .guard8192 a b = guardLift a b - guardLift b a := rfl

theorem delta_guard_of_lifted (h : Lifted a b) : delta .guard8192 a b = (a.toNat : Int) + 65536 - b.toNat := by
  rw [delta_guard_eq, guardLift_of_lifted h, guardLift_of_not_lifted h.not_symm]

theorem delta_guard_of_lifted_symm (h : Lifted b a) :
    delta .guard8192 a b = (a.toNat : Int) - (b.toNat + 65536) := by
  rw [delta_guard_eq, guardLift_of_lifted h, guardLift_of_not_lifted h.not_symm]

theorem delta_guard_of_not_lifted (ha : ¬ Lifted a b) (hb : ¬ Lifted b a) :
    delta .guard8192 a b = (a.toNat : Int) - b.toNat := by
  rw [delta_guard_eq, guardLift_of_not_lifted ha, guardLift_of_not_lifted hb]

end Guard

/-! ### The laws of R103 -/

theorem delta_antisymm (r : DeltaRule) (a b : SeqNo) : delta r a b = -delta r b a := by
  cases r with
  | shortest =>
    have hab := delta_shortest_cases a b
    have hba := delta_shortest_cases b a
    omega
  | guard8192 => exact (neg_sub _ _).symm

@[simp] theorem delta_self (r : DeltaRule) (a : SeqNo) : delta r a a = 0 :=
  self_eq_neg.mp (delta_antisymm r a a)

theorem delta_eq_zero_iff (r : DeltaRule) (a b : SeqNo) : delta r a b = 0 ↔ a = b := by
  refine ⟨fun h => eq_of_delta_eq h.ge ?_, ?_⟩
  · rw [h, delta_self]
  · rintro rfl
    exact delta_self r a

/-- A negative distance counts the successor steps from `a` to `b` (R103). -/
theorem add16_neg_delta (r : DeltaRule) (a b : SeqNo) (h : delta r a b < 0) : add16 a (-delta r a b).toNat = b := by
  have hba := delta_antisymm r b a
  rw [← hba]
  exact add16_delta r b a (by omega)

/-- The largest distance is also the largest absolute value, by antisymmetry. -/
theorem abs_delta_le_heldCap (r : DeltaRule) (a b : SeqNo) : |delta r a b| ≤ heldCap r :=
  abs_le'.mpr ⟨delta_le_heldCap r a b, delta_antisymm r b a ▸ delta_le_heldCap r b a⟩

/-- Settles O10: antisymmetry carries the laws of a distance that is not negative over to one that is. -/
theorem distanceLaws : Obligations.DistanceLaws := by
  intro r a b
  refine ⟨delta_eq_zero_iff r a b, delta_antisymm r a b, fun h => (add16_delta r a b h).symm,
    fun h => (add16_neg_delta r a b h).symm, ?_⟩
  rintro rfl
  exact abs_delta_le_heldCap .shortest a b

/-! ### The distance under each rule -/

/-- A number of absolute value at most half the modulus is the least representative of its class. -/
theorem abs_le_abs_add_mul {x : Int} (hx : |x| ≤ 32768) (k : Int) : |x| ≤ |x + 65536 * k| := by
  obtain ⟨hlo, hhi⟩ := abs_le.mp hx
  obtain hk | rfl | hk := lt_trichotomy k 0
  · exact hx.trans (le_abs.mpr (.inr (by omega)))
  · simp
  · exact hx.trans (le_abs.mpr (.inl (by omega)))

theorem abs_delta_shortest_le_abs_sub_add (a b : SeqNo) (m : Int) :
    |delta .shortest a b| ≤ |(a.toNat : Int) - b.toNat + 65536 * m| := by
  obtain ⟨k, hk⟩ := exists_sub_eq_delta_shortest_add a b
  calc |delta .shortest a b|
      ≤ |delta .shortest a b + 65536 * (k + m)| := abs_le_abs_add_mul (abs_delta_le_heldCap .shortest a b) _
    _ = |(a.toNat : Int) - b.toNat + 65536 * m| := by rw [hk, mul_add, add_assoc]

/-- Settles O8: the branches keep within half the modulus, where the least representatives are; only the plain
difference reaches an end. -/
theorem shortestDistance : Obligations.ShortestDistance := by
  intro a b
  have ha := a.isLt
  have hb := b.isLt
  have hcases := delta_shortest_cases a b
  obtain ⟨hlo, hhi⟩ := abs_le.mp (abs_delta_le_heldCap .shortest a b)
  exact ⟨delta_shortest_of_gt, delta_shortest_of_lt, delta_shortest_of_between,
    abs_delta_shortest_le_abs_sub_add a b, hlo, hhi, by omega, by omega⟩

section Agreement

variable {a b : SeqNo}

/-- Under both rules a lifted operand has just wrapped past the other. -/
theorem delta_guard_eq_shortest_of_lifted (h : Lifted a b) : delta .guard8192 a b = delta .shortest a b := by
  rw [delta_guard_of_lifted h, delta_shortest_of_lt h.sub_lt]
  ring

theorem delta_guard_eq_shortest_of_lifted_symm (h : Lifted b a) : delta .guard8192 a b = delta .shortest a b := by
  rw [delta_antisymm, delta_guard_eq_shortest_of_lifted h, ← delta_antisymm]

theorem delta_guard_eq_shortest_of_abs_le (h : |(a.toNat : Int) - b.toNat| ≤ 32768) :
    delta .guard8192 a b = delta .shortest a b := by
  have hba : |(b.toNat : Int) - a.toNat| ≤ 32768 := abs_sub_comm (a.toNat : Int) b.toNat ▸ h
  rw [delta_guard_of_not_lifted (not_lifted_of_abs_le h) (not_lifted_of_abs_le hba), delta_shortest_of_abs_le h]

/-- Past half the modulus with no operand lifted, only SHORTEST wraps. -/
theorem delta_guard_ne_shortest (h : 32768 < |(a.toNat : Int) - b.toNat|) (ha : ¬ Lifted a b) (hb : ¬ Lifted b a) :
    delta .guard8192 a b ≠ delta .shortest a b := by
  have hcases := delta_shortest_cases a b
  rw [delta_guard_of_not_lifted ha hb]
  rw [lt_abs] at h
  omega

end Agreement

/-- Settles O9: the two rules agree where the plain difference is short or an operand is lifted, and nowhere else. -/
theorem guardDistance : Obligations.GuardDistance := by
  refine ⟨fun a b => ?_, by decide, by decide⟩
  obtain ⟨hlo, hhi⟩ := abs_le.mp (abs_delta_le_heldCap .guard8192 a b)
  exact ⟨delta_guard_of_lifted, delta_guard_of_lifted_symm, delta_guard_of_not_lifted,
    fun h => Lifted.not_symm h.1 h.2, hlo, hhi, delta_guard_eq_shortest_of_abs_le,
    fun h => h.elim delta_guard_eq_shortest_of_lifted delta_guard_eq_shortest_of_lifted_symm,
    delta_guard_ne_shortest⟩

end Sys2Proof.Proofs
end

section
/-! Proofs about 40_comparator.md R105: the word of DELTA, read field by field, and what the event emits. -/

namespace Sys2Proof.Proofs

open Sys2Proof.Machine Sys2Proof.Laws

theorem decodeBare_of_reserved {m : EventWord} {e : Slot} {i : Instr} (h : e.word &&& m ≠ 0) :
    decodeBare m e i = .error .reservedBits :=
  if_pos (bne_iff_ne.mpr h)

/-- The row of TAG `0x4` (R84). -/
theorem decode_of_tag_four {w : EventWord} (B : List Byte) (h : tagOf w = 4) :
    decode ⟨w, B⟩ = decodeBare 0x0FFFFFFF00000000 ⟨w, B⟩ (.delta (aOf w) (bOf w)) := by
  rw [decode, h]
  rfl

@[simp] theorem tagOf_wordD (a b : SeqNo) : tagOf (wordD a b) = 4 := by
  show (4#4 ++ 0#28 ++ a ++ b : BitVec (4 + 28 + 16 + 16)).extractLsb' 60 4 = 4
  rw [BitVec.extractLsb'_append_eq_of_le (by decide), BitVec.extractLsb'_append_eq_of_le (by decide)]
  rfl

@[simp] theorem aOf_wordD (a b : SeqNo) : aOf (wordD a b) = a := by
  show (4#4 ++ 0#28 ++ a ++ b : BitVec (4 + 28 + 16 + 16)).extractLsb' 16 16 = a
  rw [BitVec.extractLsb'_append_eq_of_le le_rfl]
  exact BitVec.extractLsb'_append_eq_right

@[simp] theorem bOf_wordD (a b : SeqNo) : bOf (wordD a b) = b :=
  BitVec.extractLsb'_append_eq_right (a := 4#4 ++ 0#28 ++ a)

/-- The reserved bits are among those `wordD_and` reads, where the word has the tag alone. -/
theorem wordD_and_reserved (a b : SeqNo) : wordD a b &&& 0x0FFFFFFF00000000 = 0 := by
  rw [show (0x0FFFFFFF00000000 : EventWord) = 0xFFFFFFFF00000000 &&& 0x0FFFFFFF00000000 by decide,
    ← BitVec.and_assoc, wordD_and]
  decide

theorem decode_wordD (a b : SeqNo) : decode ⟨wordD a b, []⟩ = .ok (.delta a b) := by
  rw [decode_of_tag_four [] (tagOf_wordD a b), decodeBare_ok]
  exact ⟨wordD_and_reserved a b, rfl, by simp⟩

/-- Settles O12: DELTA is one `emit`, and its word is read back through the row of its TAG. -/
theorem deltaEmitsTheDistance : Obligations.DeltaEmitsTheDistance := by
  refine ⟨fun w htag hres => ?_, fun a b s => ?_⟩
  · rw [decode_of_tag_four [] htag, decodeBare_of_reserved hres]
  · exact ⟨rfl, decode_wordD a b, delta_self _ a, fun h => delta_shortest_of_abs_le h.le⟩

end Sys2Proof.Proofs
end

section
/-! Proofs about 41_sequencer.md R110 to R118: what PKT does with a packet that fits, by where its number lies. -/

namespace Sys2Proof.Proofs

open Sys2Proof.Machine Sys2Proof.Laws

/-- PKT, with a payload within MAX_DGRAM, is HANDLE (R118). -/
theorem exec_pkt_of_fits {s : State} {sn : SeqNo} {rx : Bool} {B : List Byte} (h : B.length ≤ s.cfg.maxDgram) :
    exec (.pkt sn rx B) s = .next (s.handle ⟨sn, rx, B⟩) :=
  congrArg Host.Outcome.next (withinDgram_of_le B _ s h)

section Handle

variable {s : State} {p : Packet}

/-! ### Step 1 -/

/-- In a session, step 1 lets every packet pass (R111). -/
theorem handle_of_initialized (h : s.initialized = true) : s.handle p = (s.emit (.input p.sn p.rx)).place p :=
  if_pos h

theorem handle_of_retransmit (h : s.initialized = false) (hrx : p.rx = true) :
    s.handle p = (s.emit (.input p.sn p.rx)).release .retxBeforeInit (.packet p) :=
  (if_neg (by simp [h])).trans (if_pos hrx)

theorem handle_of_primary (h : s.initialized = false) (hrx : p.rx = false) :
    s.handle p = State.place p { s.emit (.input p.sn p.rx) with low := p.sn, initialized := true } :=
  (if_neg (by simp [h])).trans (if_neg (by simp [hrx]))

/-! ### Steps 2 to 5 -/

@[simp] theorem dist_low (s : State) : s.dist s.low = 0 := delta_self _ _

theorem ne_low_of_dist_pos {k : SeqNo} (h : 0 < s.dist k) : k ≠ s.low := by
  rintro rfl
  simp at h

theorem place_of_eq_low (h : p.sn = s.low) :
    s.place p = (State.deliver p { s with retry := s.retry.del p.sn }).drain :=
  if_pos h

/-- A packet ahead of `low` and held: step 5 releases the arriving copy (R116). -/
theorem place_of_ahead_of_held (h : 0 < s.dist p.sn) (hheld : s.held.has p.sn = true) :
    s.place p = State.release .duplicate (.packet p) { s with retry := s.retry.del p.sn } :=
  (if_neg (ne_low_of_dist_pos h)).trans ((if_neg h.not_gt).trans (if_pos hheld))

/-- A packet ahead of `low` and not held: step 5 stores it (R117). -/
theorem place_of_ahead_of_missing (h : 0 < s.dist p.sn) (hmiss : s.held.has p.sn = false) :
    s.place p = { s with retry := s.retry.del p.sn, held := s.held.set p.sn p } :=
  (if_neg (ne_low_of_dist_pos h)).trans ((if_neg h.not_gt).trans (if_neg (by simp [hmiss])))

/-- Step 2 is the only write HANDLE makes to the counts (R112). -/
theorem place_retry (p : Packet) (s : State) : (s.place p).retry = s.retry.del p.sn := by
  obtain ⟨-, h⟩ | ⟨-, -, h⟩ | ⟨-, -, -, h⟩ | ⟨-, -, -, h⟩ := place_cases p s <;> rw [h]
  · obtain ⟨qs, hd⟩ := drain_spec (State.deliver p { s with retry := s.retry.del p.sn })
    obtain ⟨-, -, -, -, hretry, -⟩ := hd.frame
    exact hretry
  all_goals rfl

theorem handle_retry_of_passes (h : s.initialized = true ∨ p.rx = false) :
    (s.handle p).retry = s.retry.del p.sn := by
  obtain ⟨-, heq⟩ | ⟨hinit, hrx, -⟩ | ⟨-, -, heq⟩ := handle_cases p s
  · rw [heq, place_retry]
    rfl
  · simp [hinit, hrx] at h
  · rw [heq, place_retry]
    rfl

end Handle

/-- The first primary packet of a session is delivered at once, since nothing is held to drain (R111, R113). -/
theorem handle_of_first_primary {s : State} {p : Packet} (h : s.initialized = false) (hrx : p.rx = false)
    (hheld : s.held = []) (hretry : s.retry = []) :
    s.handle p = { s with
      initialized := true, low := add16 p.sn 1, trace := s.trace ++ [.input p.sn p.rx, .deliver p] } := by
  rw [handle_of_primary h hrx, place_of_eq_low rfl, drain_of_absent _ (by simp [hheld])]
  simp [State.deliver, State.emit, hretry, Store.del]

/-- Settles O14: step 1 releases a retransmitted packet; the first primary packet is at `low` by step 1. -/
theorem firstPacketStartsTheSession : Obligations.FirstPacketStartsTheSession := by
  intro s sn B hfit hinit
  refine ⟨?_, fun hheld hretry => ?_⟩
  · rw [exec_pkt_of_fits hfit, handle_of_retransmit hinit rfl]
    simp [State.release, State.emit]
  · rw [exec_pkt_of_fits hfit, handle_of_first_primary hinit rfl hheld hretry]

/-- Settles O15: the packet at `low` is delivered, and `drain_spec` says what DRAIN does from its successor on. -/
theorem inOrderPacketDrains : Obligations.InOrderPacketDrains := by
  rintro s sn rx B hfit hinit rfl
  obtain ⟨qs, hd⟩ := drain_spec
    (State.deliver ⟨s.low, rx, B⟩ { s.emit (.input s.low rx) with retry := s.retry.del s.low })
  refine ⟨_, qs, ?_, ?_, fun i hi => ?_, hd.absent, hd.held⟩
  · rw [exec_pkt_of_fits hfit, handle_of_initialized hinit, place_of_eq_low rfl]
    rfl
  · refine hd.eq.trans ?_
    simp [State.deliver, State.emit, add16_add]
  · rw [← hd.were i hi, deliver_low, add16_add]
    rfl

/-- Settles O17: step 5 finds the slot held. -/
theorem duplicateIsReleased : Obligations.DuplicateIsReleased := by
  intro s sn rx B hfit hinit hahead hheld
  rw [exec_pkt_of_fits hfit, handle_of_initialized hinit, place_of_ahead_of_held hahead hheld]
  simp [State.release, State.emit]

/-- Settles O18: step 5 finds the slot not held, and writes it and no other. -/
theorem packetAheadIsHeld : Obligations.PacketAheadIsHeld := by
  intro s sn rx B hfit hinit hahead hmiss
  refine ⟨{ s with
    held := s.held.set sn ⟨sn, rx, B⟩, retry := s.retry.del sn, trace := s.trace ++ [.input sn rx] }, ?_, rfl,
    fun k => get?_set ..⟩
  rw [exec_pkt_of_fits hfit, handle_of_initialized hinit, place_of_ahead_of_missing hahead hmiss]
  rfl

/-- Settles O19: every packet that passes step 1 goes through step 2, which finds no count for a stale one (R42). -/
theorem arrivalCancelsTheRetry : Obligations.ArrivalCancelsTheRetry := by
  intro s sn rx B hfit hpass
  refine ⟨_, exec_pkt_of_fits hfit, ?_⟩
  rw [handle_retry_of_passes hpass]
  exact ⟨fun k => get?_del .., fun hinv _ hstale => del_retry_of_not_in_gap hinv (.inl hstale)⟩

end Sys2Proof.Proofs
end

section
/-! Proofs about 41_sequencer.md R127 and R128: the order in which FLUSH and CLOSE release the held packets, and what
they leave. -/

namespace Sys2Proof.Proofs

open Sys2Proof.Machine Sys2Proof.Laws

/-! ### One key at each distance -/

theorem add16_right_cancel {a b : U16} {k : Nat} (h : add16 a k = add16 b k) : a = b :=
  add_right_cancel h

/-- "exactly one sequence number exists at each distance" (00_scope.md R15), behind `low` as well. -/
theorem delta_left_injective (r : DeltaRule) (low : SeqNo) : Function.Injective (fun k => delta r k low) := by
  intro a b (h : delta r a low = delta r b low)
  obtain hneg | hnn := lt_or_ge (delta r a low) 0
  · refine add16_right_cancel ((add16_neg_delta r a low hneg).trans ?_)
    rw [h] at hneg ⊢
    exact (add16_neg_delta r b low hneg).symm
  · exact eq_of_delta_eq hnn h

/-! ### The sort -/

section Sorting

variable (d : SeqNo → Int) (e : SeqNo × Packet) (r : List (SeqNo × Packet))

theorem insertAsc_perm : (insertAsc d e r).Perm (e :: r) := by
  induction r with
  | nil => exact .refl _
  | cons f r ih =>
    unfold insertAsc
    split_ifs
    · exact .refl _
    · exact (ih.cons f).trans (.swap e f r)

theorem sortAsc_perm : (sortAsc d r).Perm r := by
  induction r with
  | nil => exact .refl _
  | cons e r ih => exact (insertAsc_perm d e _).trans (ih.cons e)

variable {r} in
theorem insertAsc_pairwise (h : r.Pairwise (fun a b => d a.1 ≤ d b.1)) :
    (insertAsc d e r).Pairwise (fun a b => d a.1 ≤ d b.1) := by
  induction r with
  | nil => exact List.pairwise_singleton _ _
  | cons f r ih =>
    obtain ⟨hf, hr⟩ := List.pairwise_cons.mp h
    unfold insertAsc
    split_ifs with hle
    · exact List.pairwise_cons.mpr ⟨List.forall_mem_cons.mpr ⟨hle, fun x hx => hle.trans (hf x hx)⟩, h⟩
    · refine List.pairwise_cons.mpr ⟨fun x hx => ?_, ih hr⟩
      obtain rfl | hx := List.mem_cons.mp ((insertAsc_perm d e r).mem_iff.mp hx)
      · exact (not_le.mp hle).le
      · exact hf x hx

theorem sortAsc_pairwise : (sortAsc d r).Pairwise (fun a b => d a.1 ≤ d b.1) := by
  induction r with
  | nil => exact .nil
  | cons e r ih => exact insertAsc_pairwise d e ih

end Sorting

/-- The held packets are released in strictly ascending distance: no two keys are at one distance. -/
theorem sortAsc_held_pairwise_lt {s : State} (h : s.held.wf = true) :
    (sortAsc s.dist s.held).Pairwise (fun a b => s.dist a.1 < s.dist b.1) := by
  have hne : (sortAsc s.dist s.held).Pairwise (fun a b => a.1 ≠ b.1) :=
    List.pairwise_map.mp (((sortAsc_perm s.dist s.held).map Prod.fst).nodup_iff.mpr (nodup_keys_of_wf h))
  exact (sortAsc_pairwise s.dist s.held).imp₂
    (fun _ _ hle hab => lt_of_le_of_ne hle fun heq => hab (delta_left_injective _ _ heq)) hne

/-! ### FLUSH and CLOSE -/

theorem exec_flush_eq (s : State) :
    exec .flush s = .next { s with
      trace := s.trace ++ s.heldReleases .flushed, held := [], retry := [], initialized := false, low := 0 } := rfl

theorem exec_close_eq (s : State) :
    exec .close s = .next { s with
      trace := s.trace ++ s.heldReleases .closed, held := [], retry := [], mode := .closed } := rfl

theorem heldReleases_of_empty {s : State} (h : s.held = []) (c : Reason) : s.heldReleases c = [] := by
  simp [State.heldReleases, h, sortAsc]

/-- Settles O30: the sort gives the order; FLUSH leaves a block before its session with both stores empty, where the
next packet meets step 1 of HANDLE. -/
theorem flushReleasesAndResets : Obligations.FlushReleasesAndResets := by
  intro s hwf
  refine ⟨rfl, ⟨_, sortAsc_perm _ _, sortAsc_held_pairwise_lt hwf, exec_flush_eq s⟩, fun hinit hinv => ?_, ?_⟩
  · rw [exec_flush_eq, heldReleases_of_empty (hinv.emptyBefore hinit).1, List.append_nil]
  · rintro t sn B hflush hfit
    obtain rfl := Host.Outcome.next.inj hflush
    obtain ⟨hretx, hprimary⟩ := firstPacketStartsTheSession s.flushAll sn B hfit rfl
    exact ⟨hprimary rfl rfl, hretx⟩

/-- Settles O31: the sort gives the order; CLOSE writes no other field. -/
theorem closeReleasesAndCloses : Obligations.CloseReleasesAndCloses := by
  intro s hwf
  exact ⟨rfl, _, sortAsc_perm _ _, sortAsc_held_pairwise_lt hwf, exec_close_eq s⟩

end Sys2Proof.Proofs
end

section
/-! Proofs about 41_sequencer.md R121 and R122: the range a TICK scans and the maximal missing runs in it. -/

namespace Sys2Proof.Proofs

open Sys2Proof.Machine Sys2Proof.Laws

/-! ### The range -/

/-- While something is held, TICK scans up to a held key that no other is farther than (R121). -/
theorem exists_farthest_held {s : State} (h : s.held ≠ []) :
    ∃ hi, s.held.has hi = true ∧ (∀ k, s.held.has k = true → s.dist k ≤ s.dist hi) ∧
      s.tickRuns = missingRuns s.held s.low (s.dist hi + 1).toNat := by
  cases hfar : farthest s.dist s.held.keys with
  | none => exact absurd (List.map_eq_nil_iff.mp (farthest_eq_none hfar)) h
  | some m =>
    obtain ⟨⟨hi, hmem, rfl⟩, hmax⟩ := farthest_eq_some hfar
    refine ⟨hi, (mem_keys_iff_has _ _).mp hmem, fun k hk => hmax k ((mem_keys_iff_has _ _).mpr hk), ?_⟩
    rw [State.tickRuns, hfar]

/-- Settles O22: two held keys at the greatest distance are one key, and held keys are ahead of `low` (R40). -/
theorem tickScansToTheFarthestHeldKey : Obligations.TickScansToTheFarthestHeldKey := by
  refine fun s hinv => ⟨fun hempty => ?_, fun hheld => ?_⟩
  · show Host.Outcome.next (s.scanRuns s.tickRuns) = .next s
    rw [tickRuns_of_empty s hempty]
    rfl
  · obtain ⟨hi, hhi, hmax, hruns⟩ := exists_farthest_held hheld
    have hpos := hinv.ahead hi hhi
    refine ⟨hi, hhi, fun k hk hne => ?_, hruns, by omega, fun hrule => ?_⟩
    · exact lt_of_le_of_ne (hmax k hk) fun heq => hne (delta_left_injective _ _ heq)
    · have hcap : s.dist hi ≤ heldCap s.cfg.deltaRule := delta_le_heldCap ..
      rw [hrule] at hcap
      exact Int.add_le_add_right hcap 1

/-! ### The runs of a range -/

/-- A run starts `j` slots from `low`, where the range begins or just after a held slot. -/
def StartsAt (held : Store Packet) (low : SeqNo) (r : Run) (j : Nat) : Prop :=
  r.start = add16 low j ∧ (j = 0 ∨ held.has (add16 low (j - 1)) = true)

/-- The runs of the last `n` slots of a range reach from a held slot, or its begin, to a held slot, or its end; `cur` is
the run that ends where those slots begin. -/
theorem maximal_of_mem_runsIn {held : Store Packet} {low : SeqNo} {span : Nat} (n i : Nat) (cur : Option Run)
    (hspan : i + n = span) (hsome : ∀ c ∈ cur, ∃ j, StartsAt held low c j ∧ j + c.count = i)
    (hnone : cur = none → i = 0 ∨ held.has (add16 low (i - 1)) = true) :
    ∀ r ∈ runsIn held cur (slotsFrom (add16 low i) n), ∃ j, StartsAt held low r j ∧ j + r.count ≤ span ∧
      (j + r.count = span ∨ held.has (add16 low (j + r.count)) = true) := by
  intro r hr
  induction n generalizing i cur with
  | zero =>
    obtain ⟨j, hj, hcount⟩ := hsome r (by simpa [runsIn] using hr)
    exact ⟨j, hj, by omega, .inl (by omega)⟩
  | succ n ih =>
    rw [slotsFrom_succ, add16_add] at hr
    cases hi : held.has (add16 low i) with
    | true =>
      rw [runsIn_cons_of_held _ cur hi, List.mem_append, Option.mem_toList] at hr
      obtain hr | hr := hr
      · obtain ⟨j, hj, hcount⟩ := hsome r hr
        exact ⟨j, hj, by omega, .inr (hcount ▸ hi)⟩
      · exact ih (i + 1) none (by omega) (by simp) (fun _ => .inr hi) hr
    | false =>
      cases cur with
      | none =>
        rw [runsIn_none_cons_of_missing _ hi] at hr
        refine ih (i + 1) (some ⟨add16 low i, 1⟩) (by omega) ?_ (by simp) hr
        rintro c ⟨⟩
        exact ⟨i, ⟨rfl, hnone rfl⟩, rfl⟩
      | some c =>
        obtain ⟨j, hj, hcount⟩ := hsome c rfl
        rw [runsIn_some_cons_of_missing _ c hi] at hr
        refine ih (i + 1) (some ⟨c.start, c.count + 1⟩) (by omega) ?_ (by simp) hr
        rintro d ⟨⟩
        exact ⟨j, hj, congrArg (· + 1) hcount⟩

section missingRuns

variable {held : Store Packet} {low : SeqNo} {span : Nat} {r : Run}

theorem flatMap_slots_missingRuns (held : Store Packet) (low : SeqNo) (span : Nat) :
    (missingRuns held low span).flatMap Run.slots = (slotsFrom low span).filter (fun k => !held.has k) :=
  flatMap_slots_runsIn held span low none (by simp)

theorem count_pos_of_mem_missingRuns (hr : r ∈ missingRuns held low span) : 1 ≤ r.count :=
  count_pos_of_mem_runsIn held _ none (by simp) r hr

theorem missing_of_mem_missingRuns (hr : r ∈ missingRuns held low span) {k : SeqNo} (hk : k ∈ r.slots) :
    held.has k = false := by
  have hmem := List.mem_flatMap.mpr ⟨r, hr, hk⟩
  rw [flatMap_slots_missingRuns, List.mem_filter] at hmem
  simpa using hmem.2

theorem maximal_of_mem_missingRuns (hr : r ∈ missingRuns held low span) :
    ∃ j, StartsAt held low r j ∧ j + r.count ≤ span ∧
      (j + r.count = span ∨ held.has (add16 low (j + r.count)) = true) :=
  maximal_of_mem_runsIn span 0 none (Nat.zero_add _) (by simp) (fun _ => .inl rfl) r (by rwa [add16_zero])

end missingRuns

/-! ### The runs of a TICK -/

section tickRuns

variable {s : State} {r : Run}

theorem held_ne_nil_of_mem_tickRuns (hr : r ∈ s.tickRuns) : s.held ≠ [] := fun hempty => by
  simp [tickRuns_of_empty s hempty] at hr

theorem count_pos_of_mem_tickRuns (hr : r ∈ s.tickRuns) : 1 ≤ r.count := by
  obtain ⟨hi, -, -, hruns⟩ := exists_farthest_held (held_ne_nil_of_mem_tickRuns hr)
  exact count_pos_of_mem_missingRuns (hruns ▸ hr)

theorem start_mem_slots (hr : r ∈ s.tickRuns) : r.start ∈ r.slots :=
  mem_runSlots.mpr ⟨0, count_pos_of_mem_tickRuns hr, (add16_zero _).symm⟩

theorem missing_of_mem_tickRuns (hr : r ∈ s.tickRuns) {k : SeqNo} (hk : k ∈ r.slots) : s.held.has k = false := by
  obtain ⟨hi, -, -, hruns⟩ := exists_farthest_held (held_ne_nil_of_mem_tickRuns hr)
  exact missing_of_mem_missingRuns (hruns ▸ hr) hk

/-- The runs of a TICK have no slot twice: the range is at most once around (R15). -/
theorem nodup_slots_tickRuns (s : State) : (s.tickRuns.flatMap Run.slots).Nodup := by
  by_cases hheld : s.held = []
  · simp [tickRuns_of_empty s hheld]
  · obtain ⟨hi, -, -, hruns⟩ := exists_farthest_held hheld
    have hdist : s.dist hi ≤ heldCap s.cfg.deltaRule := delta_le_heldCap ..
    have hcap := heldCap_le s.cfg.deltaRule
    rw [hruns, flatMap_slots_missingRuns]
    exact (nodup_slotsFrom _ (by omega)).filter _

/-- The range ends at a held slot, so every run ends before it: its length is the distance from its start to the held
slot that follows it. -/
theorem held_after_tickRun (h : s.Inv) (hr : r ∈ s.tickRuns) :
    ∃ j : Nat, r.start = add16 s.low j ∧ s.held.has (add16 s.low (j + r.count)) = true ∧
      s.dist (add16 s.low (j + r.count)) = ((j + r.count : Nat) : Int) := by
  obtain ⟨hi, hhi, -, hruns⟩ := exists_farthest_held (held_ne_nil_of_mem_tickRuns hr)
  obtain ⟨j, ⟨hstart, -⟩, hle, hend⟩ := maximal_of_mem_missingRuns (hruns ▸ hr)
  have hcount := count_pos_of_mem_tickRuns hr
  have hpos := h.ahead hi hhi
  have hne : j + r.count ≠ (s.dist hi + 1).toNat := by
    intro heq
    have hlast : hi ∈ r.slots := by
      refine mem_runSlots.mpr ⟨r.count - 1, by omega, ?_⟩
      rw [hstart, add16_add, show j + (r.count - 1) = (s.dist hi).toNat by omega]
      exact (add16_delta _ _ _ hpos.le).symm
    have hmiss := missing_of_mem_tickRuns hr hlast
    simp [hhi] at hmiss
  exact ⟨j, hstart, hend.resolve_left hne, delta_add16 _ hi _ _ (show _ ≤ s.dist hi by omega)⟩

theorem tickRun_count_le (h : s.Inv) (hr : r ∈ s.tickRuns) : r.count ≤ heldCap s.cfg.deltaRule := by
  obtain ⟨j, -, -, hdist⟩ := held_after_tickRun h hr
  have hcap : s.dist (add16 s.low (j + r.count)) ≤ heldCap s.cfg.deltaRule := delta_le_heldCap ..
  omega

/-- The first run of a TICK starts at `low` (R130). -/
theorem tickRuns_head (h : s.Inv) (hheld : s.held ≠ []) : ∃ c rest, s.tickRuns = ⟨s.low, c⟩ :: rest := by
  obtain ⟨span, S⟩ := scanning_of_inv h
  cases hruns : s.tickRuns with
  | nil => exact absurd (hruns ▸ S).held_nil hheld
  | cons r rest =>
    rw [← (hruns ▸ S : Scanning s span (r :: rest)).start_eq_low]
    exact ⟨r.count, rest, rfl⟩

end tickRuns

/-- Settles O23: the runs cover the missing slots and are maximal by induction along the range; a TICK's range ends at a
held slot. -/
theorem missingRunsPartitionTheSlots : Obligations.MissingRunsPartitionTheSlots := by
  refine ⟨fun held low span => ⟨flatMap_slots_missingRuns held low span, fun r hr => ?_⟩, fun s hinv hheld => ?_⟩
  · obtain ⟨j, ⟨hstart, hbegin⟩, hle, hend⟩ := maximal_of_mem_missingRuns hr
    exact ⟨count_pos_of_mem_missingRuns hr, j, hstart, hle, hbegin, hend⟩
  · refine ⟨rfl, tickRuns_head hinv hheld, fun r hr => ⟨count_pos_of_mem_tickRuns hr, ?_, fun hrule => ?_⟩⟩
    · obtain ⟨j, hstart, hafter, -⟩ := held_after_tickRun hinv hr
      rwa [hstart, add16_add]
    · have hcount := tickRun_count_le hinv hr
      rwa [hrule] at hcount

end Sys2Proof.Proofs
end

section
/-! Proofs about 41_sequencer.md R123 to R125: the count of every slot after a TICK, and the level of every run. -/

namespace Sys2Proof.Proofs

open Sys2Proof.Machine Sys2Proof.Laws

/-! ### The level of a run -/

/-- The level a run has when its slots are counted (R123). -/
def countedLevel (s : State) (r : Run) : Nat := levelOf (bumpAll s.retry r.slots) r.slots

theorem levelOf_congr {R R' : Store U32} {ks : List SeqNo} (h : ∀ k ∈ ks, R.get0 k = R'.get0 k) :
    levelOf R ks = levelOf R' ks := by
  induction ks with
  | nil => rfl
  | cons a ks ih =>
    obtain ⟨ha, hks⟩ := List.forall_mem_cons.mp h
    cases ks with
    | nil => rw [levelOf, levelOf, ha]
    | cons b ks => rw [levelOf, levelOf, ha, ih hks]

/-- The level of a run is a matter of its own counts. -/
theorem countedLevel_congr {s t : State} {r : Run} (hnd : r.slots.Nodup)
    (h : ∀ k ∈ r.slots, t.retry.get? k = s.retry.get? k) : countedLevel t r = countedLevel s r := by
  refine levelOf_congr fun k hk => ?_
  rw [get0_bumpAll_of_mem hnd hk, get0_bumpAll_of_mem hnd hk, Store.get0, h k hk, Store.get0]

/-! ### The counts after one run, and after all of them -/

theorem giveUp_retry (r : Run) (s : State) : (s.giveUp r).retry = delAll s.retry r.slots := by
  obtain ⟨u, rfl, ⟨-, h⟩ | ⟨-, h⟩⟩ := giveUp_cases r s <;> rw [h]
  obtain ⟨qs, hd⟩ := drain_spec { s.emit (.evict r.start (BitVec.ofNat 16 r.count)) with
    retry := delAll s.retry r.slots, low := add16 r.start r.count }
  obtain ⟨-, -, -, -, hretry, -⟩ := hd.frame
  exact hretry

/-- A run is counted, and given up it loses its counts. -/
theorem scanRun_retry (r : Run) (s : State) :
    (s.scanRun r).retry =
      if s.cfg.giveup ≤ countedLevel s r then delAll (bumpAll s.retry r.slots) r.slots
      else bumpAll s.retry r.slots := by
  obtain ⟨u, rfl, ⟨hge, h⟩ | ⟨hlt, -, h⟩ | ⟨hlt, -, h⟩⟩ := scanRun_cases r s <;> rw [h]
  · exact (giveUp_retry ..).trans (if_pos hge).symm
  all_goals exact (if_neg (Nat.not_le.mpr hlt)).symm

theorem scanRun_get?_of_not_mem {r : Run} {k : SeqNo} (s : State) (hk : k ∉ r.slots) :
    (s.scanRun r).retry.get? k = s.retry.get? k := by
  rw [scanRun_retry]
  split_ifs
  · rw [get?_delAll, if_neg hk, get?_bumpAll_of_not_mem _ _ _ hk]
  · exact get?_bumpAll_of_not_mem _ _ _ hk

theorem scanRun_get?_of_mem {r : Run} {k : SeqNo} (s : State) (hnd : r.slots.Nodup) (hk : k ∈ r.slots) :
    (s.scanRun r).retry.get? k =
      if s.cfg.giveup ≤ countedLevel s r then none else some (s.retry.get0 k + 1) := by
  rw [scanRun_retry]
  split_ifs
  · rw [get?_delAll, if_pos hk]
  · exact get?_bumpAll_of_mem _ _ _ hnd hk

/-- A run with none of the slots of `r` has the level it had before `r` is scanned. -/
theorem countedLevel_scanRun {q r : Run} (s : State) (hnd : q.slots.Nodup) (hdisj : ∀ k ∈ q.slots, k ∉ r.slots) :
    countedLevel (s.scanRun r) q = countedLevel s q :=
  countedLevel_congr hnd fun k hk => scanRun_get?_of_not_mem s (hdisj k hk)

theorem scanRuns_get?_of_not_mem {l : List Run} {k : SeqNo} (s : State) (hk : ∀ r ∈ l, k ∉ r.slots) :
    (s.scanRuns l).retry.get? k = s.retry.get? k := by
  induction l generalizing s with
  | nil => rfl
  | cons r l ih =>
    obtain ⟨hr, hl⟩ := List.forall_mem_cons.mp hk
    exact (ih (s.scanRun r) hl).trans (scanRun_get?_of_not_mem s hr)

/-- Runs that share no slot are counted and given up each on its own. -/
theorem scanRuns_get?_of_mem {l : List Run} {r : Run} {k : SeqNo} (s : State) (hnd : (l.flatMap Run.slots).Nodup)
    (hr : r ∈ l) (hk : k ∈ r.slots) :
    (s.scanRuns l).retry.get? k =
      if s.cfg.giveup ≤ countedLevel s r then none else some (s.retry.get0 k + 1) := by
  induction l generalizing s with
  | nil => simp at hr
  | cons q l ih =>
    rw [List.flatMap_cons, List.nodup_append'] at hnd
    obtain ⟨hq, hl, hdisj⟩ := hnd
    have hout : ∀ r ∈ l, ∀ k ∈ r.slots, k ∉ q.slots := fun r hr k hk hkq =>
      hdisj hkq (List.mem_flatMap.mpr ⟨r, hr, hk⟩)
    obtain rfl | hr := List.mem_cons.mp hr
    · exact (scanRuns_get?_of_not_mem _ fun p hp hkp => hout p hp k hkp hk).trans (scanRun_get?_of_mem s hq hk)
    · have hrnd := (List.nodup_flatMap.mp hl).1 r hr
      refine (ih (s.scanRun q) hl hr).trans ?_
      rw [(kept_scanRun q s).cfg, countedLevel_scanRun s hrnd (hout r hr), Store.get0,
        scanRun_get?_of_not_mem s (hout r hr k hk), Store.get0]

/-! ### The counts of a TICK -/

section Tick

variable {s : State} {r : Run} {k : SeqNo}

/-- Below GIVEUP no count overflows (R11). -/
theorem toNat_get0_add_one (h : s.Inv) (k : SeqNo) :
    (s.retry.get0 k + 1).toNat = (s.retry.get0 k).toNat + 1 := by
  have hgiveup : s.cfg.giveup ≤ 4294967295 := by
    have := h.config
    simp only [configOk, Bool.and_eq_true, decide_eq_true_eq] at this
    omega
  have hlt : (s.retry.get0 k).toNat < 4294967295 := by
    rw [Store.get0]
    cases hc : s.retry.get? k with
    | none => simp
    | some c => exact (h.counts k c hc).2.trans_le hgiveup
  simp only [BitVec.toNat_add, BitVec.reduceToNat]
  omega

/-- "all counts within one run are equal" (R131). -/
theorem get0_eq_of_mem_tickRun (h : s.Inv) (hr : r ∈ s.tickRuns) (hk : k ∈ r.slots) :
    s.retry.get0 k = s.retry.get0 r.start := by
  obtain ⟨j, hstart, hheld, hdist⟩ := held_after_tickRun h hr
  obtain ⟨i, hi, rfl⟩ := mem_runSlots.mp hk
  have hmiss : ∀ m, m < r.count → s.held.has (add16 s.low (j + m)) = false := fun m hm =>
    missing_of_mem_tickRuns hr (mem_runSlots.mpr ⟨m, hm, by rw [hstart, add16_add]⟩)
  rw [hstart, add16_add]
  clear hk
  induction i with
  | zero => rfl
  | succ i ih =>
    rw [← ih (by omega)]
    exact (h.runLevel (j + i) _ hheld (by omega) (hmiss i (by omega)) (hmiss (i + 1) hi)).symm

/-- The level of a run is one more than any of its counts. -/
theorem countedLevel_eq (h : s.Inv) (hr : r ∈ s.tickRuns) (hk : k ∈ r.slots) :
    countedLevel s r = (s.retry.get0 k).toNat + 1 := by
  have hnd := (List.nodup_flatMap.mp (nodup_slots_tickRuns s)).1 r hr
  obtain ⟨x, hx, hlevel⟩ := exists_levelOf_eq (bumpAll s.retry r.slots) (List.ne_nil_of_mem hk)
  rw [countedLevel, hlevel, get0_bumpAll_of_mem hnd hx, toNat_get0_add_one h, get0_eq_of_mem_tickRun h hr hx,
    get0_eq_of_mem_tickRun h hr hk]

theorem countedLevel_eq_nextLevel (h : s.Inv) (hr : r ∈ s.tickRuns) : countedLevel s r = s.nextLevel r :=
  countedLevel_eq h hr (start_mem_slots hr)

/-- What TICK makes of the count of a missing slot (R123, R124). -/
theorem tick_get?_of_mem (h : s.Inv) (hr : r ∈ s.tickRuns) (hk : k ∈ r.slots) :
    (s.scanRuns s.tickRuns).retry.get? k =
      if s.cfg.giveup ≤ (s.retry.get0 k).toNat + 1 then none else some (s.retry.get0 k + 1) := by
  rw [scanRuns_get?_of_mem s (nodup_slots_tickRuns s) hr hk, countedLevel_eq h hr hk]

end Tick

/-- Settles O24: the runs share no slot, so each is counted once; within a run all counts are equal (R131), so each
slot's count decides whether the run is given up. -/
theorem tickCountsEveryMissingSlot : Obligations.TickCountsEveryMissingSlot := by
  refine fun s hinv => ⟨_, rfl, fun r hr k hk => ⟨fun hlt => ?_, fun hge => ?_⟩,
    fun k hk => scanRuns_get?_of_not_mem s hk, fun r hr => ⟨fun k hk => ?_, r.start, start_mem_slots hr, ?_⟩⟩
  · rw [Store.get0, tick_get?_of_mem hinv hr hk, if_neg (Nat.not_le.mpr hlt), Option.getD_some,
      toNat_get0_add_one hinv]
  · rw [has_eq_false, tick_get?_of_mem hinv hr hk, if_pos hge]
  · exact (countedLevel_eq hinv hr hk).le
  · exact countedLevel_eq_nextLevel hinv hr

end Sys2Proof.Proofs
end

section
/-! Proofs about 41_sequencer.md R125 and 42_codec.md R151: which rerequests an instruction makes, and the `txseq` each
carries. -/

namespace Sys2Proof.Proofs

open Sys2Proof.Machine Sys2Proof.Laws

/-! ### Messages and records -/

theorem rrqMessages_append (a b : List Record) : rrqMessages (a ++ b) = rrqMessages a ++ rrqMessages b := by
  induction a with
  | nil => rfl
  | cons r a ih => cases r <;> simp [rrqMessages, ih]

theorem rrqMessages_eq_nil {l : List Record} (h : ∀ m, .rrq m ∉ l) : rrqMessages l = [] := by
  induction l with
  | nil => rfl
  | cons r l ih =>
    have hl : rrqMessages l = [] := ih fun m hm => h m (List.mem_cons_of_mem r hm)
    cases r
    case rrq m => exact absurd List.mem_cons_self (h m)
    all_goals exact hl

theorem newRecords_eq {s t : State} {new : List Record} (h : t.trace = s.trace ++ new) : newRecords s t = new := by
  rw [newRecords, h, List.drop_left]

/-- The tx-seq field is read back (R152). -/
theorem be16_rrqBytes (txseq first count : U16) : be16 (rrqBytes txseq first count) 2 = txseq :=
  be16_put16 txseq

/-- The messages of the rerequests for `q`, one after the other from `txseq` (R151). -/
def rrqsFrom (txseq : U16) (q : List Run) : List (List Byte) :=
  q.mapIdx (fun n r => rrqBytes (add16 txseq n) r.start (BitVec.ofNat 16 r.count))

@[simp] theorem length_rrqsFrom (txseq : U16) (q : List Run) : (rrqsFrom txseq q).length = q.length :=
  List.length_mapIdx

theorem rrqsFrom_append (txseq : U16) (a b : List Run) :
    rrqsFrom txseq (a ++ b) = rrqsFrom txseq a ++ rrqsFrom (add16 txseq a.length) b := by
  simp only [rrqsFrom, List.mapIdx_append, add16_add, Nat.add_comm]

theorem be16_of_mem_rrqsFrom {txseq : U16} {q : List Run} {n : Nat} {m : List Byte}
    (h : (rrqsFrom txseq q)[n]? = some m) : be16 m 2 = add16 txseq n := by
  rw [rrqsFrom, List.getElem?_mapIdx, Option.map_eq_some_iff] at h
  obtain ⟨r, -, rfl⟩ := h
  exact be16_rrqBytes ..

/-! ### What an operation rerequests -/

/-- From `s` to `t` exactly the runs `q` were rerequested, in order, and `txseq` counted them. -/
structure Rerequested (s t : State) (q : List Run) : Prop where
  trace : ∃ new, t.trace = s.trace ++ new ∧ rrqMessages new = rrqsFrom s.txseq q
  txseq : t.txseq = add16 s.txseq q.length

section Rerequested

variable {s t u : State} {q q' : List Run}

theorem Rerequested.messages (h : Rerequested s t q) : rrqMessages (newRecords s t) = rrqsFrom s.txseq q := by
  obtain ⟨new, hnew, hmsgs⟩ := h.trace
  rw [newRecords_eq hnew, hmsgs]

theorem Rerequested.trans (h : Rerequested s t q) (h' : Rerequested t u q') : Rerequested s u (q ++ q') := by
  obtain ⟨new, hnew, hmsgs⟩ := h.trace
  obtain ⟨new', hnew', hmsgs'⟩ := h'.trace
  refine ⟨⟨new ++ new', by rw [hnew', hnew, List.append_assoc], ?_⟩, ?_⟩
  · rw [rrqMessages_append, hmsgs, hmsgs', rrqsFrom_append, h.txseq]
  · rw [h'.txseq, h.txseq, add16_add, List.length_append]

/-- The same, the later part first, where the earlier part makes no rerequest. -/
theorem Rerequested.after (h' : Rerequested t u q) (h : Rerequested s t []) : Rerequested s u q := h.trans h'

/-- Records that are no rerequests, with `txseq` left alone. -/
theorem rerequested_nil {new : List Record} (htrace : t.trace = s.trace ++ new) (hnone : ∀ m, .rrq m ∉ new)
    (htxseq : t.txseq = s.txseq) : Rerequested s t [] :=
  ⟨⟨new, htrace, rrqMessages_eq_nil hnone⟩, by simp [htxseq]⟩

theorem rerequested_release (s : State) (c : Reason) (x : Item) : Rerequested s (s.release c x) [] :=
  rerequested_nil rfl (by simp) rfl

theorem rerequested_drain (s : State) : Rerequested s s.drain [] := by
  obtain ⟨qs, hd⟩ := drain_spec s
  obtain ⟨-, -, -, -, -, htxseq, -, htrace, -⟩ := hd.frame
  exact rerequested_nil htrace (by simp) htxseq

/-! ### HANDLE, FLUSH, CLOSE and the codec -/

theorem rerequested_place (p : Packet) (s : State) : Rerequested s (s.place p) [] := by
  obtain ⟨-, h⟩ | ⟨-, -, h⟩ | ⟨-, -, -, h⟩ | ⟨-, -, -, h⟩ := place_cases p s <;> rw [h]
  · exact (rerequested_drain _).after (rerequested_nil (new := [.deliver p]) rfl (by simp) rfl)
  · exact rerequested_nil rfl (by simp) rfl
  · exact rerequested_nil rfl (by simp) rfl
  · exact rerequested_nil (List.append_nil _).symm (by simp) rfl

theorem rerequested_handle (p : Packet) (s : State) : Rerequested s (s.handle p) [] := by
  have hin : ∀ t : State, t.trace = s.trace ++ [.input p.sn p.rx] → t.txseq = s.txseq → Rerequested s t [] :=
    fun t htrace htxseq => rerequested_nil htrace (by simp) htxseq
  obtain ⟨-, h⟩ | ⟨-, -, h⟩ | ⟨-, -, h⟩ := handle_cases p s <;> rw [h]
  · exact (rerequested_place ..).after (hin _ rfl rfl)
  · exact (rerequested_release ..).after (hin _ rfl rfl)
  · exact (rerequested_place ..).after (hin _ rfl rfl)

theorem rerequested_flushAll (s : State) : Rerequested s s.flushAll [] :=
  rerequested_nil (flushAll_trace s) (by simp [State.heldReleases]) rfl

theorem rerequested_closeAll (s : State) : Rerequested s s.closeAll [] :=
  rerequested_nil (closeAll_trace s) (by simp [State.heldReleases]) rfl

theorem rerequested_passOn (B : List Byte) (s : State) : Rerequested s (s.passOn B) [] :=
  rerequested_nil rfl (by simp) rfl

theorem rerequested_decline (B : List Byte) (s : State) : Rerequested s (s.decline B) [] :=
  (rerequested_flushAll _).after (rerequested_release ..)

theorem rerequested_withinDgram {B : List Byte} {body : State → State} (h : Rerequested s (body s) []) :
    Rerequested s (s.withinDgram B body) [] := by
  unfold State.withinDgram
  split_ifs
  · exact rerequested_release ..
  · exact h

theorem rerequested_atLeast {n : Nat} {B : List Byte} {body : State → State} (h : Rerequested s (body s) []) :
    Rerequested s (s.atLeast n B body) [] := by
  unfold State.atLeast
  split_ifs
  · exact rerequested_release ..
  · exact h

theorem rerequested_recover (B : List Byte) (s : State) : Rerequested s (s.recover B) [] :=
  rerequested_atLeast (rerequested_atLeast (rerequested_handle ..))

theorem rerequested_audio (B : List Byte) (s : State) : Rerequested s (s.audio B) [] :=
  rerequested_atLeast (rerequested_handle ..)

theorem rerequested_control (B : List Byte) (s : State) : Rerequested s (s.control B) [] := by
  unfold State.control
  split_ifs
  · exact rerequested_passOn ..
  · exact rerequested_release ..
  · exact rerequested_decline ..
  · exact rerequested_recover ..
  · exact rerequested_release ..

theorem rerequested_data (B : List Byte) (s : State) : Rerequested s (s.data B) [] := by
  unfold State.data
  split_ifs
  · exact rerequested_audio ..
  · exact rerequested_release ..

end Rerequested

/-! ### TICK and RRQ -/

theorem rerequested_rerequest (r : Run) (s : State) :
    Rerequested s (s.rerequest r.start (BitVec.ofNat 16 r.count)) [r] :=
  ⟨⟨_, rfl, by simp [rrqMessages, rrqsFrom, encodeRrq_eq_rrqBytes]⟩, rfl⟩

/-- Is a run, once counted, below GIVEUP and at a rerequest level (R125)? -/
def rerequestDue (s : State) (r : Run) : Bool :=
  decide (countedLevel s r < s.cfg.giveup) && decide (countedLevel s r ∈ s.cfg.rrqLevels)

theorem rerequestDue_iff {s : State} {r : Run} :
    rerequestDue s r = true ↔ countedLevel s r < s.cfg.giveup ∧ countedLevel s r ∈ s.cfg.rrqLevels := by
  simp [rerequestDue]

theorem rerequested_giveUp (r : Run) (s : State) : Rerequested s (s.giveUp r) [] := by
  obtain ⟨u, rfl, ⟨-, h⟩ | ⟨-, h⟩⟩ := giveUp_cases r s <;> rw [h]
  · exact (rerequested_drain _).after
      (rerequested_nil (new := [.evict r.start (BitVec.ofNat 16 r.count)]) rfl (by simp) rfl)
  · exact rerequested_nil rfl (by simp) rfl

theorem rerequested_scanRun (r : Run) (s : State) : Rerequested s (s.scanRun r) ([r].filter (rerequestDue s)) := by
  have hcount : Rerequested s { s with retry := bumpAll s.retry r.slots } [] :=
    rerequested_nil (List.append_nil _).symm (by simp) rfl
  obtain ⟨u, rfl, ⟨hge, h⟩ | ⟨hlt, hmem, h⟩ | ⟨hlt, hmem, h⟩⟩ := scanRun_cases r s <;> rw [h]
  · rw [List.filter_cons_of_neg fun hdue => Nat.not_lt.mpr hge (rerequestDue_iff.mp hdue).1]
    exact (rerequested_giveUp ..).after hcount
  · rw [List.filter_cons_of_pos (rerequestDue_iff.mpr ⟨hlt, hmem⟩)]
    exact (rerequested_rerequest r _).after hcount
  · rw [List.filter_cons_of_neg fun hdue => hmem (rerequestDue_iff.mp hdue).2]
    exact hcount

/-- Runs that share no slot are rerequested each at its own level, in order (R125, R126). -/
theorem rerequested_scanRuns {l : List Run} (s : State) (hnd : (l.flatMap Run.slots).Nodup) :
    Rerequested s (s.scanRuns l) (l.filter (rerequestDue s)) := by
  induction l generalizing s with
  | nil => exact rerequested_nil (List.append_nil _).symm (by simp) rfl
  | cons r l ih =>
    rw [List.flatMap_cons, List.nodup_append'] at hnd
    obtain ⟨-, hl, hdisj⟩ := hnd
    have hsame : l.filter (rerequestDue (s.scanRun r)) = l.filter (rerequestDue s) := by
      refine List.filter_congr fun q hq => ?_
      rw [rerequestDue, rerequestDue, (kept_scanRun r s).cfg, countedLevel_scanRun s
        ((List.nodup_flatMap.mp hl).1 q hq) fun k hk hkr => hdisj hkr (List.mem_flatMap.mpr ⟨q, hq, hk⟩)]
    have hscan := (rerequested_scanRun r s).trans (ih (s.scanRun r) hl)
    rwa [hsame, ← List.filter_append, List.singleton_append] at hscan

theorem rerequested_tick (s : State) :
    Rerequested s (s.scanRuns s.tickRuns) (s.tickRuns.filter (rerequestDue s)) :=
  rerequested_scanRuns s (nodup_slots_tickRuns s)

/-! ### Every instruction -/

theorem exists_rerequested_exec {i : Instr} {s t : State} (hx : exec i s = .next t) : ∃ q, Rerequested s t q := by
  cases i <;> obtain rfl := Host.Outcome.next.inj hx
  case tick => exact ⟨_, rerequested_tick s⟩
  case rrq first count => exact ⟨[⟨first, count.toNat⟩], by simpa using rerequested_rerequest ⟨first, count.toNat⟩ s⟩
  all_goals refine ⟨[], ?_⟩
  case pkt sn rx B => exact rerequested_withinDgram (rerequested_handle ..)
  case flush => exact rerequested_flushAll s
  case close => exact rerequested_closeAll s
  case delta a b => exact rerequested_nil rfl (by simp) rfl
  case rxc B => exact rerequested_withinDgram (rerequested_atLeast (rerequested_control ..))
  case rxd B => exact rerequested_withinDgram (rerequested_atLeast (rerequested_data ..))
  case rxcTiming B => exact rerequested_withinDgram (rerequested_passOn ..)
  case rxcEcho B => exact rerequested_withinDgram (rerequested_release ..)
  case rxcDecline B => exact rerequested_withinDgram (rerequested_decline ..)
  case rxcRecovered B => exact rerequested_withinDgram (rerequested_recover ..)
  case rxdAudio B => exact rerequested_withinDgram (rerequested_audio ..)
  case rxcUnknown B => exact rerequested_withinDgram (rerequested_release ..)
  case rxdUnknown B => exact rerequested_withinDgram (rerequested_release ..)

/-- Settles O25: a TICK's runs share no slot, so each is rerequested by its level at the start; every instruction makes
its rerequests with consecutive values of `txseq`. -/
theorem tickRerequestsAtTheLevels : Obligations.TickRerequestsAtTheLevels := by
  refine ⟨fun s hinv => ?_, fun i s t hx => ?_, fun _ => rfl⟩
  · have htick := rerequested_tick s
    refine ⟨_, s.tickRuns.filter (rerequestDue s), rfl, ?_, htick.messages, htick.txseq⟩
    exact List.filter_congr fun r hr => by rw [rerequestDue, countedLevel_eq_nextLevel hinv hr]
  · obtain ⟨q, hq⟩ := exists_rerequested_exec hx
    rw [hq.messages, length_rrqsFrom]
    exact ⟨hq.txseq, fun n m hm => be16_of_mem_rrqsFrom hm⟩

end Sys2Proof.Proofs
end

section
/-! Proofs about 42_codec.md R153, R154, R158, R159 and R161: what RXC and RXD do with a datagram, by its length, its
payload type and its status. -/

namespace Sys2Proof.Proofs

open Sys2Proof.Machine Sys2Proof.Laws

section Datagram

variable {B : List Byte} {s : State}

/-! ### The status -/

theorem not_declines_of_lt (h : B.length < 6) : ¬ declines B = true := by
  simp [declines, Nat.not_le.mpr h]

theorem not_declines_of_status_ne (h : 6 ≤ B.length) (hne : statusOf B ≠ 1) : ¬ declines B = true :=
  mt (declines_iff h).mp hne

/-! ### The datagrams that hold a packet -/

theorem recover_of_le (h : 16 ≤ B.length) : s.recover B = s.handle ⟨recoveredSn B, true, innerOf B⟩ := by
  rw [State.recover, atLeast_of_le _ _ _ _ (Nat.le_trans (by decide) h), atLeast_of_le _ _ _ _ h]

/-- Both length checks of a recovered packet release it SHORT (R161.3, R161.4). -/
theorem recover_of_lt (h : B.length < 16) : s.recover B = s.release .short (.raw B) := by
  obtain h6 | h6 := lt_or_ge B.length 6
  · exact atLeast_of_lt _ _ _ _ h6
  · exact (atLeast_of_le _ _ _ _ h6).trans (atLeast_of_lt _ _ _ _ h)

theorem audio_of_lt (h : B.length < 12) : s.audio B = s.release .short (.raw B) := atLeast_of_lt _ _ _ _ h

/-- A recovered packet is the packet PKT submits for the bytes from byte 4 on (R159). -/
theorem exec_pkt_eq_recover (hfit : B.length ≤ s.cfg.maxDgram) (h : 16 ≤ B.length) :
    exec (.pkt (be16 B 6) true (B.drop 4)) s = .next (s.recover B) := by
  have hinner : (B.drop 4).length ≤ s.cfg.maxDgram := (List.length_drop.trans_le (Nat.sub_le ..)).trans hfit
  rw [exec_pkt_of_fits hinner, recover_of_le h]
  rfl

/-- An audio datagram is the packet PKT submits for all its bytes (R153). -/
theorem exec_pkt_eq_audio (hfit : B.length ≤ s.cfg.maxDgram) (h : 12 ≤ B.length) :
    exec (.pkt (be16 B 2) false B) s = .next (s.audio B) := by
  rw [exec_pkt_of_fits hfit, State.audio, atLeast_of_le _ _ _ _ h]
  rfl

/-! ### The payload type on the control channel, one equation per line of R154 -/

theorem control_of_sync (h : payloadType B = ptSync) : s.control B = s.passOn B := if_pos h

theorem control_of_rrq (h : payloadType B = ptRrq) : s.control B = s.release .echo (.raw B) := by
  simp [State.control, h]

theorem control_of_decline (h : payloadType B = ptRecovery) (hdec : declines B = true) :
    s.control B = s.decline B := by
  simp [State.control, h, hdec]

theorem control_of_recovery (h : payloadType B = ptRecovery) (hdec : ¬ declines B = true) :
    s.control B = s.recover B := by
  simp [State.control, h, hdec]

theorem control_of_other (hsync : payloadType B ≠ ptSync) (hrrq : payloadType B ≠ ptRrq)
    (hrec : payloadType B ≠ ptRecovery) : s.control B = s.release .unknownPt (.raw B) := by
  rw [State.control, if_neg hsync, if_neg hrrq, if_neg hrec]

/-! ### The payload type on the data channel, one equation per line of R153 -/

theorem data_of_audio (h : payloadType B = ptAudio) : s.data B = s.audio B := if_pos h

theorem data_of_other (h : payloadType B ≠ ptAudio) : s.data B = s.release .unknownPt (.raw B) := if_neg h

/-! ### RXC and RXD on a datagram that fits -/

theorem exec_rxc_eq_control (hfit : B.length ≤ s.cfg.maxDgram) (h : 2 ≤ B.length) :
    exec (.rxc B) s = .next (s.control B) :=
  congrArg Host.Outcome.next ((withinDgram_of_le _ _ _ hfit).trans (atLeast_of_le _ _ _ _ h))

theorem exec_rxd_eq_data (hfit : B.length ≤ s.cfg.maxDgram) (h : 2 ≤ B.length) :
    exec (.rxd B) s = .next (s.data B) :=
  congrArg Host.Outcome.next ((withinDgram_of_le _ _ _ hfit).trans (atLeast_of_le _ _ _ _ h))

theorem exec_rxcDecline_eq_decline (hfit : B.length ≤ s.cfg.maxDgram) :
    exec (.rxcDecline B) s = .next (s.decline B) :=
  congrArg Host.Outcome.next (withinDgram_of_le _ _ _ hfit)

theorem exec_rxcRecovered_eq_recover (hfit : B.length ≤ s.cfg.maxDgram) :
    exec (.rxcRecovered B) s = .next (s.recover B) :=
  congrArg Host.Outcome.next (withinDgram_of_le _ _ _ hfit)

theorem exec_rxdAudio_eq_audio (hfit : B.length ≤ s.cfg.maxDgram) :
    exec (.rxdAudio B) s = .next (s.audio B) :=
  congrArg Host.Outcome.next (withinDgram_of_le _ _ _ hfit)

theorem exec_rxc_of_rrq (hfit : B.length ≤ s.cfg.maxDgram) (h : 2 ≤ B.length) (hpt : payloadType B = ptRrq) :
    exec (.rxc B) s = .next (s.release .echo (.raw B)) := by
  rw [exec_rxc_eq_control hfit h, control_of_rrq hpt]

/-- What a declined recovery leaves: the DECLINED record, FLUSH's records after it, and the block before its session
(R158). -/
theorem decline_eq (B : List Byte) (s : State) :
    s.decline B = { s with
      trace := s.trace ++ .release .declined (.raw B) :: s.heldReleases .flushed,
      held := [], retry := [], initialized := false, low := 0 } := by
  have htrace : (s.decline B).trace = s.trace ++ .release .declined (.raw B) :: s.heldReleases .flushed :=
    List.append_assoc s.trace [_] _
  rw [← htrace]
  rfl

end Datagram

/-- Settles O39: the release changes neither the held packets nor `low`, so FLUSH's sort gives the order. -/
theorem declineReleasesThenFlushes : Obligations.DeclineReleasesThenFlushes := by
  intro B s hfit hwf
  refine ⟨_, sortAsc_perm _ _, sortAsc_held_pairwise_lt hwf, ?_⟩
  rw [exec_rxcDecline_eq_decline hfit, decline_eq]
  rfl

/-- Settles O40: past OVERSIZE a class is `recover` or `audio`, which the length decides. -/
theorem handledClasses : Obligations.HandledClasses := by
  refine fun B s hfit => ⟨fun h => ?_, fun h => ?_, fun h => ?_, fun h => ?_⟩
  · exact ⟨_, exec_rxcRecovered_eq_recover hfit, exec_pkt_eq_recover hfit h⟩
  · exact ⟨_, exec_rxdAudio_eq_audio hfit, exec_pkt_eq_audio hfit h⟩
  · rw [exec_rxcRecovered_eq_recover hfit, recover_of_lt h]
    rfl
  · rw [exec_rxdAudio_eq_audio hfit, audio_of_lt h]
    rfl

/-- Settles O36: the two length checks, then the line of the payload type. -/
theorem rxdFollowsItsRule : Obligations.RxdFollowsItsRule := by
  refine fun B s => ⟨fun hover => ?_, fun hfit hshort => ?_, fun hfit h hpt => ?_, fun hfit h hpt h12 => ?_,
    fun hfit hpt h12 => ?_⟩
  · exact congrArg Host.Outcome.next (withinDgram_of_lt _ _ _ hover)
  · exact congrArg Host.Outcome.next ((withinDgram_of_le _ _ _ hfit).trans (atLeast_of_lt _ _ _ _ hshort))
  · rw [exec_rxd_eq_data hfit h, data_of_other hpt]
    rfl
  · rw [exec_rxd_eq_data hfit h, data_of_audio hpt, audio_of_lt h12]
    rfl
  · refine ⟨s.audio B, ?_, exec_pkt_eq_audio hfit h12⟩
    rw [exec_rxd_eq_data hfit (by omega), data_of_audio hpt]

/-- Settles O37: the two length checks, then the line of the payload type; a pt-86 datagram too short for a status does
not decline. -/
theorem rxcFollowsItsRule : Obligations.RxcFollowsItsRule := by
  refine fun B s => ⟨fun hover => ?_, fun hfit hshort => ?_, fun hfit h hpt => ?_, fun hfit h hpt => ?_,
    fun hfit h hpt h6 => ?_, fun hfit h6 hpt hst => ?_, fun hfit h6 hpt hst h16 => ?_, fun hfit h16 hpt hst => ?_,
    fun hfit h hsync hrrq hrec => ?_⟩
  · exact congrArg Host.Outcome.next (withinDgram_of_lt _ _ _ hover)
  · exact congrArg Host.Outcome.next ((withinDgram_of_le _ _ _ hfit).trans (atLeast_of_lt _ _ _ _ hshort))
  · rw [exec_rxc_eq_control hfit h, control_of_sync hpt]
    rfl
  · exact exec_rxc_of_rrq hfit h hpt
  · rw [exec_rxc_eq_control hfit h, control_of_recovery hpt (not_declines_of_lt h6), recover_of_lt (by omega)]
    rfl
  · refine ⟨s.decline B, ?_, rfl⟩
    rw [exec_rxc_eq_control hfit (by omega), control_of_decline hpt ((declines_iff h6).mpr hst)]
  · rw [exec_rxc_eq_control hfit (by omega), control_of_recovery hpt (not_declines_of_status_ne h6 hst),
      recover_of_lt h16]
    rfl
  · refine ⟨s.recover B, ?_, exec_pkt_eq_recover hfit h16⟩
    rw [exec_rxc_eq_control hfit (by omega), control_of_recovery hpt (not_declines_of_status_ne (by omega) hst)]
  · rw [exec_rxc_eq_control hfit h, control_of_other hsync hrrq hrec]
    rfl

end Sys2Proof.Proofs
end

section
/-! Proofs about 42_codec.md R152 and R162: a rerequest decodes to its fields, and comes back to RXC as an echo. -/

namespace Sys2Proof.Proofs

open Sys2Proof.Machine Sys2Proof.Laws

/-! ### DECODE_RRQ -/

/-- DECODE_RRQ reads back what ENCODE_RRQ wrote: `put16` put each field where `be16` reads it. -/
theorem decodeRrq_rrqBytes (txseq first count : U16) :
    decodeRrq (rrqBytes txseq first count) = some ⟨txseq, first, count⟩ := by
  have hfirst : be16 (rrqBytes txseq first count) 4 = first := be16_put16 first
  have hcount : be16 (rrqBytes txseq first count) 6 = count := be16_put16 count
  have htype : payloadType (rrqBytes txseq first count) = ptRrq := by
    show BitVec.extractLsb' 0 7 (0x80 ||| ptRrq.setWidth 8) = ptRrq
    decide
  rw [decodeRrq, if_pos ⟨rrqBytes_length .., rfl, htype⟩, be16_rrqBytes, hfirst, hcount]

theorem length_and_type_of_decodeRrq {m : List Byte} {f : RrqFields} (h : decodeRrq m = some f) :
    m.length = 8 ∧ payloadType m = ptRrq := by
  unfold decodeRrq at h
  split_ifs at h with hcond
  obtain ⟨hlen, -, htype⟩ := hcond
  exact ⟨hlen, htype⟩

/-! ### The messages of an instruction -/

theorem newRecords_rerequest (s : State) (first count : U16) :
    newRecords s (s.rerequest first count) = [.rrq (rrqBytes s.txseq first count)] := by
  rw [newRecords_eq (rerequest_trace ..), encodeRrq_eq_rrqBytes]

theorem exists_run_of_getElem?_rrqsFrom {txseq : U16} {q : List Run} {n : Nat} {m : List Byte}
    (h : (rrqsFrom txseq q)[n]? = some m) :
    ∃ r ∈ q, m = rrqBytes (add16 txseq n) r.start (BitVec.ofNat 16 r.count) := by
  rw [rrqsFrom, List.getElem?_mapIdx, Option.map_eq_some_iff] at h
  obtain ⟨r, hr, rfl⟩ := h
  exact ⟨r, List.mem_of_getElem? hr, rfl⟩

/-- Settles O35: every message is the bytes of a rerequest, which DECODE_RRQ reads back; what decodes has payload type
85 and is an echo on the control channel. -/
theorem rerequestRoundTrip : Obligations.RerequestRoundTrip := by
  refine ⟨decodeRrq_rrqBytes, fun f c s t m hx hm => ?_, fun s t n m hx hm => ?_, fun s m f hdec hmax => ?_⟩
  · obtain rfl : s.rerequest f c = t := Host.Outcome.next.inj hx
    rw [newRecords_rerequest, List.mem_singleton, Record.rrq.injEq] at hm
    rw [hm, decodeRrq_rrqBytes]
  · obtain rfl : s.scanRuns s.tickRuns = t := Host.Outcome.next.inj hx
    rw [(rerequested_tick s).messages] at hm
    obtain ⟨r, hr, rfl⟩ := exists_run_of_getElem?_rrqsFrom hm
    exact ⟨r, List.mem_of_mem_filter hr, decodeRrq_rrqBytes ..⟩
  · obtain ⟨hlen, htype⟩ := length_and_type_of_decodeRrq hdec
    exact exec_rxc_of_rrq (hlen.trans_le hmax) (by omega) htype

end Sys2Proof.Proofs
end

section
/-! Proofs about 60_exceptions.md R182 and 30_encoding.md R86 and R87: an event row of the opcode table is a TAG and a
mask of reserved bits; a word outside every row is refused for its TAG or for a reserved bit, and stays at the head. -/

namespace Sys2Proof.Proofs

open Sys2Proof.Machine Sys2Proof.Laws

/-! ### Rows -/

/-- The bits of an event word below its TAG. -/
def belowTag (w : EventWord) : BitVec 60 := w.extractLsb' 0 60

theorem tagOf_append_belowTag (w : EventWord) : tagOf w ++ belowTag w = w :=
  BitVec.extractLsb'_append_extractLsb'

theorem eq_iff_tagOf_belowTag {v w : EventWord} : v = w ↔ tagOf v = tagOf w ∧ belowTag v = belowTag w := by
  refine ⟨fun h => h ▸ ⟨rfl, rfl⟩, fun ⟨htag, hbelow⟩ => ?_⟩
  rw [← tagOf_append_belowTag v, ← tagOf_append_belowTag w, htag, hbelow]

theorem tagOf_and (v w : EventWord) : tagOf (v &&& w) = tagOf v &&& tagOf w := BitVec.extractLsb'_and ..

theorem belowTag_and (v w : EventWord) : belowTag (v &&& w) = belowTag v &&& belowTag w := BitVec.extractLsb'_and ..

/-- The reserved bits of a row: what its mask reads below the TAG (R82 to R86). -/
def reservedOf (r : EventRow) : EventWord := r.mask &&& 0x0FFFFFFFFFFFFFFF

theorem tagOf_reservedOf (r : EventRow) : tagOf (reservedOf r) = 0 := by
  rw [reservedOf, tagOf_and]
  exact BitVec.and_zero

theorem belowTag_reservedOf (r : EventRow) : belowTag (reservedOf r) = belowTag r.mask := by
  rw [reservedOf, belowTag_and]
  exact BitVec.and_allOnes

/-- Every row reads the whole TAG, fixes one below 7, and fixes every other bit it reads to 0. -/
theorem eventRows_shape : ∀ r ∈ eventRows,
    tagOf r.mask = BitVec.allOnes 4 ∧ (tagOf r.fixed).toNat < 7 ∧ belowTag r.fixed = 0 := by
  decide

theorem exists_row_of_tag : ∀ t : BitVec 4, t.toNat < 7 → ∃ r ∈ eventRows, tagOf r.fixed = t := by
  decide

/-- A word matches a row when it has the row's TAG and none of its reserved bits. -/
theorem covers_iff {r : EventRow} (hr : r ∈ eventRows) (w : EventWord) :
    r.covers w = true ↔ tagOf w = tagOf r.fixed ∧ w &&& reservedOf r = 0 := by
  obtain ⟨hmask, -, hfixed⟩ := eventRows_shape r hr
  have hrow : w &&& r.mask = r.fixed ↔ tagOf w = tagOf r.fixed ∧ belowTag w &&& belowTag r.mask = 0 := by
    rw [eq_iff_tagOf_belowTag, tagOf_and, belowTag_and, hmask, BitVec.and_allOnes, hfixed]
  have hres : w &&& reservedOf r = 0 ↔ belowTag w &&& belowTag r.mask = 0 := by
    rw [eq_iff_tagOf_belowTag, tagOf_and, belowTag_and, tagOf_reservedOf, belowTag_reservedOf]
    exact and_iff_right BitVec.and_zero
  rw [EventRow.covers, beq_iff_eq, hrow, hres]

/-- R87: no row has a reserved TAG. -/
theorem covers_of_reservedTag {w : EventWord} (h : 7 ≤ (tagOf w).toNat) {r : EventRow} (hr : r ∈ eventRows) :
    r.covers w = false := by
  obtain ⟨-, hlt, -⟩ := eventRows_shape r hr
  rw [Bool.eq_false_iff, Ne, covers_iff hr]
  rintro ⟨htag, -⟩
  rw [htag] at h
  omega

/-! ### Decoding -/

theorem decodeBuffered_of_reserved {m : EventWord} {e : Slot} {i : Instr} (h : e.word &&& m ≠ 0) :
    decodeBuffered m e i = .error .reservedBits :=
  if_pos (bne_iff_ne.mpr h)

/-- The decoder's arm for a TAG reads the reserved bits of the row with that TAG. -/
theorem decode_of_reservedBits {r : EventRow} (hr : r ∈ eventRows) {e : Slot} (htag : tagOf e.word = tagOf r.fixed)
    (hres : e.word &&& reservedOf r ≠ 0) : decode e = .error .reservedBits := by
  rw [decode, htag]
  simp only [eventRows, List.mem_cons, List.not_mem_nil, or_false] at hr
  obtain rfl | rfl | rfl | rfl | rfl | rfl | rfl := hr
  · exact decodeBuffered_of_reserved hres
  · exact decodeBare_of_reserved hres
  · exact decodeBare_of_reserved hres
  · exact decodeBare_of_reserved hres
  · exact decodeBare_of_reserved hres
  · exact decodeBuffered_of_reserved hres
  · exact decodeBuffered_of_reserved hres

theorem decode_of_reservedTag {e : Slot} (h : 7 ≤ (tagOf e.word).toNat) : decode e = .error .reservedTag := by
  unfold decode
  split
  case h_8 => rfl
  all_goals omega

/-- A word that matches no row is refused for its TAG, or else for a reserved bit of the row of its TAG. -/
theorem decode_of_no_row {e : Slot} (h : ∀ r ∈ eventRows, r.covers e.word = false) :
    decode e = .error (if 7 ≤ (tagOf e.word).toNat then .reservedTag else .reservedBits) := by
  split_ifs with htag
  · exact decode_of_reservedTag htag
  · obtain ⟨r, hr, hrow⟩ := exists_row_of_tag (tagOf e.word) (by omega)
    refine decode_of_reservedBits hr hrow.symm fun hres => ?_
    have hcovers := (covers_iff hr e.word).mpr ⟨hrow.symm, hres⟩
    simp [h r hr] at hcovers

/-! ### The run -/

theorem step_of_decode_error {s : State} {e : Slot} {rest : List Slot} {d : DecodeError} (hstop : s.stop = none)
    (hq : s.queue = e :: rest) (hd : decode e = .error d) : step s = .refused (.illegalEvent d) := by
  simp only [step, hstop, hq, hd]

/-- A run ends at a refusal, whatever fuel is left. -/
theorem run_of_refused {s : State} {r : Refusal} (h : step s = .refused r) (k : Nat) :
    Host.Core.run Sys2Proof.core (k + 1) s = .refused r := by
  have hcore : Sys2Proof.core.step s = .refused r := h
  simp only [Host.Core.run, hcore]

/-- Settles O6: no row has a reserved TAG; a word outside every row decodes to an error, on which `step` refuses. -/
theorem illegalWordsAreRefused : Obligations.IllegalWordsAreRefused :=
  ⟨fun _ h _ hr => covers_of_reservedTag h hr, fun _ _ _ hstop hq hrows =>
    run_of_refused (step_of_decode_error hstop hq (decode_of_no_row hrows))⟩

end Sys2Proof.Proofs
end

section
/-! Proofs about 70_reset_and_hazards.md R200 and R201: the values at creation, and FLUSH as a return to them. -/

namespace Sys2Proof.Proofs

open Sys2Proof.Machine Sys2Proof.Laws

/-! ### Creation -/

section Creation

variable (c : Config)

@[simp] theorem resetWith_cfg : (State.resetWith c).cfg = c := rfl
@[simp] theorem resetWith_mode : (State.resetWith c).mode = .run := rfl
@[simp] theorem resetWith_initialized : (State.resetWith c).initialized = false := rfl
@[simp] theorem resetWith_low : (State.resetWith c).low = 0 := rfl
@[simp] theorem resetWith_held : (State.resetWith c).held = [] := rfl
@[simp] theorem resetWith_retry : (State.resetWith c).retry = [] := rfl
@[simp] theorem resetWith_txseq : (State.resetWith c).txseq = c.txseqInit := rfl
@[simp] theorem resetWith_queue : (State.resetWith c).queue = [] := rfl
@[simp] theorem resetWith_trace : (State.resetWith c).trace = [] := rfl

end Creation

/-- R186: a block that runs and has seen no packet is before its session. -/
theorem lifecycle_eq_uninit {s : State} (hmode : s.mode = .run) (hinit : s.initialized = false) :
    s.lifecycle = .uninit := by
  simp [State.lifecycle, hmode, hinit]

/-- Settles O58: each register by its reset value; `mode` and `initialized` give the lifecycle mode. -/
theorem resetState : Obligations.ResetState := by
  refine ⟨fun c => ?_, rfl, rfl, rfl, rfl, rfl⟩
  have hlife : (State.resetWith c).lifecycle = .uninit :=
    lifecycle_eq_uninit (resetWith_mode c) (resetWith_initialized c)
  simp [hlife]

/-! ### The soft reset -/

/-- FLUSH leaves the reset state of the block's configuration, but for `mode`, `txseq`, the queue and the trace with
its consumer. -/
theorem flushAll_eq_resetWith (s : State) :
    s.flushAll = { State.resetWith s.cfg with
      mode := s.mode, txseq := s.txseq, queue := s.queue, trace := s.trace ++ s.heldReleases .flushed,
      taken := s.taken, consumerReady := s.consumerReady } := rfl

/-- Settles O32: FLUSH's next state is `flushAll`. -/
theorem flushIsTheSoftReset : Obligations.FlushIsTheSoftReset := fun s =>
  ⟨s.flushAll, exec_flush_eq s, flushAll_eq_resetWith s⟩

end Sys2Proof.Proofs
end

section
/-! Proofs about 30_encoding.md R80 to R92: the words of the encoder, read field by field and put together again from
the fields; the classes of a datagram; and the rows of the opcode table. -/

namespace Sys2Proof.Proofs

open Sys2Proof.Machine Sys2Proof.Laws

/-! ### The fields of an encoded word -/

section Fields

variable (sn : SeqNo) (rx : Bool) (tag : BitVec 4) (n : Nat)

@[simp] theorem tagOf_wordP : tagOf (wordP sn rx n) = 0 := by
  show (0#4 ++ 0#17 ++ BitVec.ofNat 11 n ++ 0#15 ++ BitVec.ofBool rx ++ sn :
    BitVec (4 + 17 + 11 + 15 + 1 + 16)).extractLsb' 60 4 = 0
  iterate 5 rw [BitVec.extractLsb'_append_eq_of_le (by decide)]
  rfl

@[simp] theorem lenOf_wordP : lenOf (wordP sn rx n) = n % 2048 := by
  show ((0#4 ++ 0#17 ++ BitVec.ofNat 11 n ++ 0#15 ++ BitVec.ofBool rx ++ sn :
    BitVec (4 + 17 + 11 + 15 + 1 + 16)).extractLsb' 32 11).toNat = n % 2048
  iterate 3 rw [BitVec.extractLsb'_append_eq_of_le (by decide)]
  rw [BitVec.extractLsb'_append_eq_right, BitVec.toNat_ofNat]

@[simp] theorem rxOf_wordP : rxOf (wordP sn rx n) = rx := by
  have hbit : (wordP sn rx n).extractLsb' 16 1 = BitVec.ofBool rx := by
    show (0#4 ++ 0#17 ++ BitVec.ofNat 11 n ++ 0#15 ++ BitVec.ofBool rx ++ sn :
      BitVec (4 + 17 + 11 + 15 + 1 + 16)).extractLsb' 16 1 = BitVec.ofBool rx
    rw [BitVec.extractLsb'_append_eq_of_le le_rfl]
    exact BitVec.extractLsb'_append_eq_right
  rw [rxOf, hbit]
  cases rx <;> rfl

@[simp] theorem snOf_wordP : snOf (wordP sn rx n) = sn :=
  BitVec.extractLsb'_append_eq_right (a := 0#4 ++ 0#17 ++ BitVec.ofNat 11 n ++ 0#15 ++ BitVec.ofBool rx)

@[simp] theorem tagOf_wordX : tagOf (wordX tag n) = tag := by
  show (tag ++ 0#17 ++ BitVec.ofNat 11 n ++ 0#32 : BitVec (4 + 17 + 11 + 32)).extractLsb' 60 4 = tag
  iterate 3 rw [BitVec.extractLsb'_append_eq_of_le (by decide)]
  exact BitVec.extractLsb'_eq_self

@[simp] theorem lenOf_wordX : lenOf (wordX tag n) = n % 2048 := by
  show ((tag ++ 0#17 ++ BitVec.ofNat 11 n ++ 0#32 : BitVec (4 + 17 + 11 + 32)).extractLsb' 32 11).toNat = n % 2048
  rw [BitVec.extractLsb'_append_eq_of_le (by decide), BitVec.extractLsb'_append_eq_right, BitVec.toNat_ofNat]

/-- The reserved bits of EV-P are among the bits `wordP_and` reads. -/
theorem wordP_and_reserved : wordP sn rx n &&& 0x0FFFF800FFFE0000 = 0 := by
  rw [show (0x0FFFF800FFFE0000 : EventWord) = 0xFFFFF800FFFE0000 &&& 0x0FFFF800FFFE0000 by decide,
    ← BitVec.and_assoc, wordP_and]
  decide

/-- The reserved bits of EV-X are among the bits `wordX_and` reads, where the word has the tag alone. -/
theorem wordX_and_reserved : wordX tag n &&& 0x0FFFF800FFFFFFFF = 0 := by
  rw [show (0x0FFFF800FFFFFFFF : EventWord) = 0xFFFFF800FFFFFFFF &&& 0x0FFFF800FFFFFFFF by decide,
    ← BitVec.and_assoc, wordX_and]
  revert tag
  decide

end Fields

/-! ### Decoding an encoded word -/

theorem fitsLen_iff {B : List Byte} : fitsLen B = true ↔ B.length ≤ 2047 := decide_eq_true_iff

theorem decode_wordP (sn : SeqNo) (rx : Bool) {B : List Byte} (h : B.length ≤ 2047) :
    decode ⟨wordP sn rx B.length, B⟩ = .ok (.pkt sn rx B) := by
  rw [decode, tagOf_wordP]
  refine decodeBuffered_ok.mpr ⟨wordP_and_reserved .., ?_, by simp⟩
  rw [lenOf_wordP, Nat.mod_eq_of_lt (Nat.lt_succ_of_le h)]

/-- A word of format EV-X has no reserved bit and as many bytes as its LEN says. -/
theorem decodeBuffered_wordX (tag : BitVec 4) {B : List Byte} (h : B.length ≤ 2047) (i : Instr) :
    decodeBuffered 0x0FFFF800FFFFFFFF ⟨wordX tag B.length, B⟩ i = .ok i := by
  refine decodeBuffered_ok.mpr ⟨wordX_and_reserved .., ?_, rfl⟩
  rw [lenOf_wordX, Nat.mod_eq_of_lt (Nat.lt_succ_of_le h)]

theorem decode_wordX_rxc {B : List Byte} (h : B.length ≤ 2047) : decode ⟨wordX 5 B.length, B⟩ = .ok (.rxc B) := by
  rw [decode, tagOf_wordX]
  exact decodeBuffered_wordX 5 h _

theorem decode_wordX_rxd {B : List Byte} (h : B.length ≤ 2047) : decode ⟨wordX 6 B.length, B⟩ = .ok (.rxd B) := by
  rw [decode, tagOf_wordX]
  exact decodeBuffered_wordX 6 h _

/-! ### A word put together from its fields -/

/-- The bits of a field that a mask reads are 0 in a word that has none of the mask's bits. -/
theorem field_eq_zero {w m : EventWord} (h : w &&& m = 0) (start len : Nat)
    (hm : m.extractLsb' start len = BitVec.allOnes len) : w.extractLsb' start len = 0 := by
  have hfield := congrArg (BitVec.extractLsb' start len) h
  rw [BitVec.extractLsb'_and, hm, BitVec.and_allOnes] at hfield
  rw [hfield]
  exact BitVec.eq_of_toNat_eq (by simp)

section Word

variable {w : EventWord}

theorem eq_wordN (h : w &&& 0x0FFFFFFFFFFFFFFF = 0) : w = wordN (tagOf w) := by
  have hbelow : belowTag w = 0 := field_eq_zero h 0 60 (by decide)
  calc w = tagOf w ++ belowTag w := (tagOf_append_belowTag w).symm
    _ = wordN (tagOf w) := by rw [hbelow]; rfl

theorem eq_wordD (htag : tagOf w = 4) (h : w &&& 0x0FFFFFFF00000000 = 0) : w = wordD (aOf w) (bOf w) := by
  have hres := field_eq_zero h 32 28 (by decide)
  calc w = tagOf w ++ w.extractLsb' 32 28 ++ aOf w ++ bOf w := by
        simp only [tagOf, aOf, bOf, BitVec.extractLsb'_append_extractLsb'_eq_extractLsb']
        exact BitVec.extractLsb'_eq_self.symm
    _ = wordD (aOf w) (bOf w) := by rw [htag, hres]; rfl

theorem ofNat_lenOf (w : EventWord) : BitVec.ofNat 11 (lenOf w) = w.extractLsb' 32 11 := by
  rw [lenOf, BitVec.ofNat_toNat, BitVec.setWidth_eq]

theorem ofBool_rxOf (w : EventWord) : BitVec.ofBool (rxOf w) = w.extractLsb' 16 1 := by
  have hbit : ∀ b : BitVec 1, BitVec.ofBool (b == 1) = b := by decide
  exact hbit _

theorem eq_wordX (h : w &&& 0x0FFFF800FFFFFFFF = 0) : w = wordX (tagOf w) (lenOf w) := by
  have hhigh := field_eq_zero h 43 17 (by decide)
  have hlow := field_eq_zero h 0 32 (by decide)
  calc w = tagOf w ++ w.extractLsb' 43 17 ++ w.extractLsb' 32 11 ++ w.extractLsb' 0 32 := by
        simp only [tagOf, BitVec.extractLsb'_append_extractLsb'_eq_extractLsb']
        exact BitVec.extractLsb'_eq_self.symm
    _ = wordX (tagOf w) (lenOf w) := by rw [hhigh, hlow, ← ofNat_lenOf]; rfl

theorem eq_wordP (htag : tagOf w = 0) (h : w &&& 0x0FFFF800FFFE0000 = 0) :
    w = wordP (snOf w) (rxOf w) (lenOf w) := by
  have hhigh := field_eq_zero h 43 17 (by decide)
  have hlow := field_eq_zero h 17 15 (by decide)
  calc w = tagOf w ++ w.extractLsb' 43 17 ++ w.extractLsb' 32 11 ++ w.extractLsb' 17 15 ++ w.extractLsb' 16 1
          ++ snOf w := by
        simp only [tagOf, snOf, BitVec.extractLsb'_append_extractLsb'_eq_extractLsb']
        exact BitVec.extractLsb'_eq_self.symm
    _ = wordP (snOf w) (rxOf w) (lenOf w) := by rw [htag, hhigh, hlow, ← ofNat_lenOf, ← ofBool_rxOf]; rfl

theorem lenOf_le (w : EventWord) : lenOf w ≤ 2047 := Nat.le_of_lt_succ (w.extractLsb' 32 11).isLt

end Word

/-! ### The classes of a datagram -/

section Classes

variable {B : List Byte}

/-- The five classes of the control channel, each with what its bytes say (R89). -/
theorem classifyControl_cases (B : List Byte) :
    (payloadType B = ptSync ∧ classifyControl B = .rxcTiming B) ∨
    (payloadType B = ptRrq ∧ classifyControl B = .rxcEcho B) ∨
    (payloadType B = ptRecovery ∧ declines B = true ∧ classifyControl B = .rxcDecline B) ∨
    (payloadType B = ptRecovery ∧ declines B = false ∧ classifyControl B = .rxcRecovered B) ∨
    (payloadType B ≠ 84#7 ∧ payloadType B ≠ 85#7 ∧ payloadType B ≠ 86#7 ∧ classifyControl B = .rxcUnknown B) := by
  unfold classifyControl
  split_ifs <;> simp_all

theorem classifyData_cases (B : List Byte) :
    (payloadType B = ptAudio ∧ classifyData B = .rxdAudio B) ∨
    (payloadType B ≠ 96#7 ∧ classifyData B = .rxdUnknown B) := by
  unfold classifyData
  split_ifs <;> simp_all

theorem hasType_iff : hasType B = true ↔ B.length ≤ 2047 ∧ 2 ≤ B.length := by
  simp [hasType, fitsLen]

theorem decodeWire_control_ok {i : Instr} :
    decodeWire .control B = .ok i ↔ 2 ≤ B.length ∧ classifyControl B = i := by
  by_cases h : 2 ≤ B.length <;> simp [decodeWire, h]

theorem decodeWire_data_ok {i : Instr} : decodeWire .data B = .ok i ↔ 2 ≤ B.length ∧ classifyData B = i := by
  by_cases h : 2 ≤ B.length <;> simp [decodeWire, h]

/-- The class of a datagram is an instruction that exists, written as that datagram. -/
theorem wellFormed_classifyControl (h : hasType B = true) (tx : U16) :
    WellFormed (classifyControl B) = true ∧ encode tx (classifyControl B) = .wire .control B := by
  obtain ⟨hpt, hc⟩ | ⟨hpt, hc⟩ | ⟨hpt, hdec, hc⟩ | ⟨hpt, hdec, hc⟩ | ⟨hsync, hrrq, hrec, hc⟩ :=
      classifyControl_cases B <;> rw [hc] <;> refine ⟨?_, rfl⟩
  · simp [WellFormed, h, hpt]
  · simp [WellFormed, h, hpt]
  · simp [WellFormed, h, hpt, hdec]
  · simp [WellFormed, h, hpt, hdec]
  · simp [WellFormed, h, hsync, hrrq, hrec]

theorem wellFormed_classifyData (h : hasType B = true) (tx : U16) :
    WellFormed (classifyData B) = true ∧ encode tx (classifyData B) = .wire .data B := by
  obtain ⟨hpt, hc⟩ | ⟨hpt, hc⟩ := classifyData_cases B <;> rw [hc] <;> refine ⟨?_, rfl⟩
  · simp [WellFormed, h, hpt]
  · simp [WellFormed, h, hpt]

end Classes

/-! ### Decode and encode -/

/-- Settles O2: an event's word is read back field by field, a datagram by its class, a rerequest by DECODE_RRQ. -/
theorem decodeOfEncodeIsTheInstruction : Obligations.DecodeOfEncodeIsTheInstruction := by
  intro tx i hwf
  cases i
  case pkt sn rx B => exact decode_wordP sn rx (fitsLen_iff.mp hwf)
  case tick => rfl
  case flush => rfl
  case close => rfl
  case delta a b => exact decode_wordD a b
  case rxc B => exact decode_wordX_rxc (fitsLen_iff.mp hwf)
  case rxd B => exact decode_wordX_rxd (fitsLen_iff.mp hwf)
  case rrq first count => simp [encode, decodeEncoded, decodeWire, decodeRrq_rrqBytes]
  all_goals simp only [WellFormed, Bool.and_eq_true, beq_iff_eq, Bool.not_eq_true', beq_eq_false_iff_ne,
    BitVec.ofNat_eq_ofNat] at hwf
  case rxcTiming B =>
    obtain ⟨htype, hpt⟩ := hwf
    exact decodeWire_control_ok.mpr ⟨hasType_length htype, by simp [classifyControl, hpt]⟩
  case rxcEcho B =>
    obtain ⟨htype, hpt⟩ := hwf
    exact decodeWire_control_ok.mpr ⟨hasType_length htype, by simp [classifyControl, hpt]⟩
  case rxcDecline B =>
    obtain ⟨⟨htype, hpt⟩, hdec⟩ := hwf
    exact decodeWire_control_ok.mpr ⟨hasType_length htype, by simp [classifyControl, hpt, hdec]⟩
  case rxcRecovered B =>
    obtain ⟨⟨htype, hpt⟩, hdec⟩ := hwf
    exact decodeWire_control_ok.mpr ⟨hasType_length htype, by simp [classifyControl, hpt, hdec]⟩
  case rxdAudio B =>
    obtain ⟨htype, hpt⟩ := hwf
    exact decodeWire_data_ok.mpr ⟨hasType_length htype, by simp [classifyData, hpt]⟩
  case rxcUnknown B =>
    obtain ⟨⟨⟨htype, hsync⟩, hrrq⟩, hrec⟩ := hwf
    exact decodeWire_control_ok.mpr ⟨hasType_length htype, by simp [classifyControl, hsync, hrrq, hrec]⟩
  case rxdUnknown B =>
    obtain ⟨htype, hpt⟩ := hwf
    exact decodeWire_data_ok.mpr ⟨hasType_length htype, by simp [classifyData, hpt]⟩

/-- Settles O1: each word and window is decoded by evaluation. -/
theorem wordsOfTheSpecDecode : Obligations.WordsOfTheSpecDecode :=
  ⟨rfl, rfl, rfl, rfl, rfl, rfl, rfl, rfl, rfl, rfl, rfl, rfl, rfl, rfl, rfl, rfl⟩

/-- A slot that decodes has the word its instruction is written as, reserved bits and all, and its buffer. -/
theorem encode_of_decode {e : Slot} {i : Instr} (h : decode e = .ok i) (tx : U16) :
    WellFormed i = true ∧ encode tx i = .event e := by
  obtain ⟨w, B⟩ := e
  have hlen : B.length = lenOf w → B.length ≤ 2047 := fun heq => heq.trans_le (lenOf_le w)
  obtain ⟨htag, hres, hbuf, rfl⟩ | ⟨htag, hres, hbuf, rfl⟩ | ⟨htag, hres, hbuf, rfl⟩ | ⟨htag, hres, hbuf, rfl⟩ |
    ⟨htag, hres, hbuf, rfl⟩ | ⟨htag, hres, hbuf, rfl⟩ | ⟨htag, hres, hbuf, rfl⟩ := decode_ok_cases h <;>
    simp only at htag hres hbuf ⊢
  · exact ⟨fitsLen_iff.mpr (hlen hbuf), by rw [encode, hbuf, ← eq_wordP htag hres]⟩
  · exact ⟨rfl, by rw [encode, hbuf, eq_wordN hres, htag]⟩
  · exact ⟨rfl, by rw [encode, hbuf, eq_wordN hres, htag]⟩
  · exact ⟨rfl, by rw [encode, hbuf, eq_wordN hres, htag]⟩
  · exact ⟨rfl, by rw [encode, hbuf, ← eq_wordD htag hres]⟩
  · exact ⟨fitsLen_iff.mpr (hlen hbuf), by rw [encode, hbuf, ← htag, ← eq_wordX hres]⟩
  · exact ⟨fitsLen_iff.mpr (hlen hbuf), by rw [encode, hbuf, ← htag, ← eq_wordX hres]⟩

/-- Settles O3: a slot by `encode_of_decode`; a datagram decodes to its class, which is written as the datagram. -/
theorem encodeOfDecodeIsTheSlot : Obligations.EncodeOfDecodeIsTheSlot := by
  refine ⟨fun tx e i h => encode_of_decode h tx, fun tx ch B i hch hfit h => ?_⟩
  cases ch
  case control =>
    obtain ⟨hlen, rfl⟩ := decodeWire_control_ok.mp h
    exact wellFormed_classifyControl (hasType_iff.mpr ⟨hfit, hlen⟩) tx
  case data =>
    obtain ⟨hlen, rfl⟩ := decodeWire_data_ok.mp h
    exact wellFormed_classifyData (hasType_iff.mpr ⟨hfit, hlen⟩) tx
  case controlOut => exact absurd rfl hch

/-! ### The rows of the opcode table -/

/-- The rows have different TAGs (R81). -/
theorem eventRows_tag_injective : ∀ r ∈ eventRows, ∀ r' ∈ eventRows, tagOf r.fixed = tagOf r'.fixed → r = r' := by
  decide

/-- A decoded event has the mnemonic of the row of its TAG. -/
theorem exists_row_of_decode {e : Slot} {i : Instr} (h : decode e = .ok i) :
    ∃ r ∈ eventRows, tagOf r.fixed = tagOf e.word ∧ r.mnemonic = i.mnemonic := by
  obtain ⟨htag, -, -, rfl⟩ | ⟨htag, -, -, rfl⟩ | ⟨htag, -, -, rfl⟩ | ⟨htag, -, -, rfl⟩ | ⟨htag, -, -, rfl⟩ |
    ⟨htag, -, -, rfl⟩ | ⟨htag, -, -, rfl⟩ := decode_ok_cases h <;>
    (rw [htag]; simp only [Instr.mnemonic]; decide)

/-- Settles O4: the TAG of a decoded word names its row, and a word that matches a row has its TAG. -/
theorem tagAloneDecidesTheEvent : Obligations.TagAloneDecidesTheEvent := by
  refine ⟨fun e e' i i' h h' htag => ?_, fun w r hr r' hr' h h' => ?_⟩
  · obtain ⟨r, hr, hrtag, hrow⟩ := exists_row_of_decode h
    obtain ⟨r', hr', hrtag', hrow'⟩ := exists_row_of_decode h'
    rw [← hrow, ← hrow', eventRows_tag_injective r hr r' hr' (by rw [hrtag, hrtag', htag])]
  · have htag := ((covers_iff hr w).mp h).1
    have htag' := ((covers_iff hr' w).mp h').1
    exact eventRows_tag_injective r hr r' hr' (htag.symm.trans htag')

section Rows

variable {B : List Byte} {m : String} {ch : Channel}

/-- A row with mask `0x007F` reads the payload type. -/
theorem covers_type_eq (h : 2 ≤ B.length) (v : Nat) (hv : v < 128) :
    (WireRow.mk m ch v 0x7F 2).covers B = decide (payloadType B = BitVec.ofNat 7 v) := by
  rw [Bool.eq_iff_iff]
  simp [WireRow.covers, h, windowNat_type, ← BitVec.toNat_inj, Nat.mod_eq_of_lt hv]

/-- The row of DECLINE reads the payload type and, where there is one, the status. -/
theorem covers_decline_eq :
    (WireRow.mk m ch 0x005600000001 0x007F0000FFFF 6).covers B =
      (decide (payloadType B = ptRecovery) && declines B) := by
  obtain hlt | hle := Nat.lt_or_ge B.length 6
  · simp [WireRow.covers, declines, Nat.not_le.mpr hlt]
  · have hst := (statusOf B).isLt
    have hpt : ptRecovery.toNat = 86 := rfl
    have hone : declineStatus.toNat = 1 := rfl
    rw [Bool.eq_iff_iff]
    simp only [WireRow.covers, declines, hle, windowNat_decline B hle, Bool.and_eq_true, decide_eq_true_eq,
      beq_iff_eq, ← BitVec.toNat_inj, true_and]
    omega

end Rows

/-- Settles O5: along the rows of a channel, the first one whose bytes are there is the class. -/
theorem classifierFollowsTheTable : Obligations.ClassifierFollowsTheTable := by
  refine fun B h => ⟨?_, ?_⟩
  · obtain ⟨hpt, hc⟩ | ⟨hpt, hc⟩ | ⟨hpt, hdec, hc⟩ | ⟨hpt, hdec, hc⟩ | ⟨hsync, hrrq, hrec, hc⟩ :=
      classifyControl_cases B <;> rw [hc]
    · simp [wireRows, covers_type_eq h, hpt, Instr.mnemonic]
    · simp [wireRows, covers_type_eq h, hpt, Instr.mnemonic]
    · simp [wireRows, covers_type_eq h, covers_decline_eq, hpt, hdec, Instr.mnemonic]
    · simp [wireRows, covers_type_eq h, covers_decline_eq, hpt, hdec, Instr.mnemonic]
    · simp [wireRows, covers_type_eq h, covers_decline_eq, covers_any B h, hsync, hrrq, hrec, Instr.mnemonic]
  · obtain ⟨hpt, hc⟩ | ⟨hpt, hc⟩ := classifyData_cases B <;> rw [hc]
    · simp [wireRows, covers_type_eq h, hpt, Instr.mnemonic]
    · simp [wireRows, covers_type_eq h, covers_any B h, hpt, Instr.mnemonic]

end Sys2Proof.Proofs
end

section
/-! Proofs about 60_exceptions.md R180 and the "State written" lines: what every instruction can do, said once, and what
it leaves alone. -/

namespace Sys2Proof.Proofs

open Sys2Proof.Machine Sys2Proof.Laws

/-! ### What an instruction can do -/

/-- A record that notes what became of a datagram, a packet or a comparison: no packet comes in, is delivered or evicted,
and none is asked for again. -/
def IsNote : Record → Prop
  | .release _ _   => True
  | .pass _        => True
  | .deltaResult _ => True
  | .input _ _     => False
  | .deliver _     => False
  | .rrq _         => False
  | .evict _ _     => False

/-- Does `i` stand for a recovery datagram that declines (42_codec.md R154, R158)? -/
def IsDecline (i : Instr) (B : List Byte) : Prop :=
  i = .rxcDecline B ∨ (i = .rxc B ∧ payloadType B = ptRecovery ∧ declines B = true)

/-- The ways an instruction ends: a note, HANDLE of a packet that fits, or one of the operations it is named for. -/
inductive Effect (s : State) : Instr → State → Prop
  | note {i : Instr} {r : Record} (h : IsNote r) : Effect s i (s.emit r)
  | handle {i : Instr} {p : Packet} (h : p.payload.length ≤ s.cfg.maxDgram) : Effect s i (s.handle p)
  | decline {i : Instr} {B : List Byte} (h : IsDecline i B) : Effect s i (s.decline B)
  | tick : Effect s .tick (s.scanRuns s.tickRuns)
  | flush : Effect s .flush s.flushAll
  | close : Effect s .close s.closeAll
  | rerequest (first count : U16) : Effect s (.rrq first count) (s.rerequest first count)

section Effect

variable {i : Instr} {s t : State} {B : List Byte}

theorem effect_release (i : Instr) (s : State) (c : Reason) (x : Item) : Effect s i (s.release c x) :=
  .note (r := .release c x) trivial

theorem effect_passOn (i : Instr) (s : State) (B : List Byte) : Effect s i (s.passOn B) :=
  .note (r := .pass B) trivial

theorem effect_withinDgram {body : State → State} (h : B.length ≤ s.cfg.maxDgram → Effect s i (body s)) :
    Effect s i (s.withinDgram B body) := by
  obtain hlt | hle := Nat.lt_or_ge s.cfg.maxDgram B.length
  · rw [withinDgram_of_lt _ _ _ hlt]
    exact effect_release ..
  · rw [withinDgram_of_le _ _ _ hle]
    exact h hle

theorem effect_atLeast {n : Nat} {body : State → State} (h : Effect s i (body s)) :
    Effect s i (s.atLeast n B body) := by
  unfold State.atLeast
  split_ifs
  · exact effect_release ..
  · exact h

theorem effect_recover (hfit : B.length ≤ s.cfg.maxDgram) : Effect s i (s.recover B) :=
  effect_atLeast (effect_atLeast (.handle ((List.length_drop.trans_le (Nat.sub_le ..)).trans hfit)))

theorem effect_audio (hfit : B.length ≤ s.cfg.maxDgram) : Effect s i (s.audio B) := effect_atLeast (.handle hfit)

theorem effect_control (hfit : B.length ≤ s.cfg.maxDgram) : Effect s (.rxc B) (s.control B) := by
  unfold State.control
  split_ifs with hsync hrrq hrec hdec
  · exact effect_passOn ..
  · exact effect_release ..
  · exact .decline (.inr ⟨rfl, hrec, hdec⟩)
  · exact effect_recover hfit
  · exact effect_release ..

theorem effect_data (hfit : B.length ≤ s.cfg.maxDgram) : Effect s i (s.data B) := by
  unfold State.data
  split_ifs
  · exact effect_audio hfit
  · exact effect_release ..

theorem effect_of_exec (hx : exec i s = .next t) : Effect s i t := by
  cases i <;> obtain rfl := Host.Outcome.next.inj hx
  case pkt sn rx B => exact effect_withinDgram fun hfit => .handle hfit
  case tick => exact .tick
  case flush => exact .flush
  case close => exact .close
  case delta a b => exact .note trivial
  case rxc B => exact effect_withinDgram fun hfit => effect_atLeast (effect_control hfit)
  case rxd B => exact effect_withinDgram fun hfit => effect_atLeast (effect_data hfit)
  case rxcTiming B => exact effect_withinDgram fun _ => effect_passOn ..
  case rxcEcho B => exact effect_withinDgram fun _ => effect_release ..
  case rxcDecline B => exact effect_withinDgram fun _ => .decline (.inl rfl)
  case rxcRecovered B => exact effect_withinDgram fun hfit => effect_recover hfit
  case rxdAudio B => exact effect_withinDgram fun hfit => effect_audio hfit
  case rxcUnknown B => exact effect_withinDgram fun _ => effect_release ..
  case rxdUnknown B => exact effect_withinDgram fun _ => effect_release ..
  case rrq first count => exact .rerequest first count

theorem exists_exec (i : Instr) (s : State) : ∃ t, exec i s = .next t := by
  cases i <;> exact ⟨_, rfl⟩

/-! ### Frames -/

theorem kept_of_exec (hx : exec i s = .next t) : Kept s t := by
  cases effect_of_exec hx with
  | note => exact kept_emit ..
  | handle => exact kept_handle ..
  | decline => exact (kept_flushAll _).after (kept_release ..)
  | tick => exact kept_scanRuns ..
  | flush => exact kept_flushAll s
  | close => exact kept_closeAll s
  | rerequest => exact kept_rerequest ..

theorem trace_eq_of_kept (k : Kept s t) : t.trace = s.trace ++ newRecords s t := by
  obtain ⟨new, hnew⟩ := k.trace
  rw [newRecords_eq hnew, hnew]

theorem place_frame (p : Packet) (s : State) :
    (s.place p).mode = s.mode ∧ (s.place p).initialized = s.initialized ∧ (s.place p).txseq = s.txseq := by
  obtain ⟨-, h⟩ | ⟨-, -, h⟩ | ⟨-, -, -, h⟩ | ⟨-, -, -, h⟩ := place_cases p s <;> rw [h]
  · obtain ⟨qs, hd⟩ := drain_spec (State.deliver p { s with retry := s.retry.del p.sn })
    obtain ⟨-, hmode, hinit, -, -, htxseq, -⟩ := hd.frame
    exact ⟨hmode, hinit, htxseq⟩
  all_goals exact ⟨rfl, rfl, rfl⟩

theorem handle_mode_txseq (p : Packet) (s : State) :
    (s.handle p).mode = s.mode ∧ (s.handle p).txseq = s.txseq := by
  obtain ⟨-, h⟩ | ⟨-, -, h⟩ | ⟨-, -, h⟩ := handle_cases p s <;> rw [h]
  · obtain ⟨hmode, -, htxseq⟩ := place_frame p (s.emit (.input p.sn p.rx))
    exact ⟨hmode, htxseq⟩
  · exact ⟨rfl, rfl⟩
  · obtain ⟨hmode, -, htxseq⟩ :=
      place_frame p { s.emit (.input p.sn p.rx) with low := p.sn, initialized := true }
    exact ⟨hmode, htxseq⟩

/-- Only CLOSE writes `mode`. -/
theorem exec_mode (hx : exec i s = .next t) (hi : i ≠ .close) : t.mode = s.mode := by
  cases effect_of_exec hx with
  | handle => exact (handle_mode_txseq ..).1
  | tick => exact (scanRuns_frame ..).1
  | close => exact absurd rfl hi
  | _ => rfl

/-- Only TICK and RRQ write `txseq`. -/
theorem exec_txseq (hx : exec i s = .next t) (htick : i ≠ .tick) (hrrq : ∀ f c, i ≠ .rrq f c) :
    t.txseq = s.txseq := by
  cases effect_of_exec hx with
  | handle => exact (handle_mode_txseq ..).2
  | tick => exact absurd rfl htick
  | rerequest f c => exact absurd rfl (hrrq f c)
  | _ => rfl

/-- A datagram that is noted or too long writes one record and nothing else. -/
theorem withinDgram_eq_trace {body : State → State} {r : Record} (h : body s = s.emit r) :
    s.withinDgram B body = { s with trace := (s.withinDgram B body).trace } := by
  unfold State.withinDgram
  rw [h]
  split_ifs <;> rfl

end Effect

/-- Settles O42: every instruction is an operation that keeps these fields. -/
theorem everyInstructionCompletes : Obligations.EveryInstructionCompletes := by
  intro i s
  obtain ⟨t, hx⟩ := exists_exec i s
  have k := kept_of_exec hx
  exact ⟨t, hx, k.cfg, k.queue, k.taken, k.consumerReady, trace_eq_of_kept k⟩

/-- Settles O43: the events that handle packets by the frames of `mode` and `txseq`, the others by their one record. -/
theorem onlyTheNamedStateIsWritten : Obligations.OnlyTheNamedStateIsWritten := by
  intro i s t hx
  cases i
  case pkt | flush | rxc | rxd | rxcDecline | rxcRecovered | rxdAudio =>
    exact ⟨exec_mode hx (by simp), exec_txseq hx (by simp) (by simp)⟩
  all_goals obtain rfl := Host.Outcome.next.inj hx
  case tick =>
    obtain ⟨hmode, hinit, -⟩ := scanRuns_frame s.tickRuns s
    exact ⟨hmode, hinit⟩
  case close => exact ⟨rfl, rfl, rfl⟩
  case delta a b => rfl
  case rrq first count => rfl
  case rxcTiming B => exact withinDgram_eq_trace (r := .pass B) rfl
  case rxcEcho B => exact withinDgram_eq_trace (r := .release .echo (.raw B)) rfl
  case rxcUnknown B => exact withinDgram_eq_trace (r := .release .unknownPt (.raw B)) rfl
  case rxdUnknown B => exact withinDgram_eq_trace (r := .release .unknownPt (.raw B)) rfl

/-! ### The datagram classes -/

/-- Settles O38: past OVERSIZE each class is its one record. -/
theorem passedAndDiscardedClasses : Obligations.PassedAndDiscardedClasses := by
  refine fun B s hfit => ⟨?_, ?_, ?_, ?_⟩ <;> exact congrArg Host.Outcome.next (withinDgram_of_le _ _ _ hfit)

/-- Settles O13: PKT looks at the length first. -/
theorem oversizePacketIsReleased : Obligations.OversizePacketIsReleased := fun _ _ _ _ hover =>
  congrArg Host.Outcome.next (withinDgram_of_lt _ _ _ hover)

section Classes

variable {s : State} {B : List Byte}

theorem withinDgram_congr {body body' : State → State} (h : body s = body' s) :
    s.withinDgram B body = s.withinDgram B body' := by
  simp [State.withinDgram, h]

/-- A control datagram's class is the line of its payload type (R154). -/
theorem exec_classifyControl (B : List Byte) (s : State) :
    exec (classifyControl B) s = .next (s.withinDgram B (State.control B)) := by
  obtain ⟨hpt, hc⟩ | ⟨hpt, hc⟩ | ⟨hpt, hdec, hc⟩ | ⟨hpt, hdec, hc⟩ | ⟨hsync, hrrq, hrec, hc⟩ :=
      classifyControl_cases B <;> rw [hc] <;> refine congrArg Host.Outcome.next (withinDgram_congr ?_)
  · exact (control_of_sync hpt).symm
  · exact (control_of_rrq hpt).symm
  · exact (control_of_decline hpt hdec).symm
  · exact (control_of_recovery hpt (Bool.not_eq_true _ ▸ hdec)).symm
  · exact (control_of_other hsync hrrq hrec).symm

/-- A data datagram's class is the line of its payload type (R153). -/
theorem exec_classifyData (B : List Byte) (s : State) :
    exec (classifyData B) s = .next (s.withinDgram B (State.data B)) := by
  obtain ⟨hpt, hc⟩ | ⟨hpt, hc⟩ := classifyData_cases B <;> rw [hc] <;>
    refine congrArg Host.Outcome.next (withinDgram_congr ?_)
  · exact (data_of_audio hpt).symm
  · exact (data_of_other hpt).symm

end Classes

/-- Settles O41: a datagram with a byte 1 passes the event's length check, and goes on as its class does. -/
theorem classAgreesWithItsEvent : Obligations.ClassAgreesWithItsEvent := by
  refine fun B s h => ⟨_, _, ?_, exec_classifyControl B s, ?_, exec_classifyData B s⟩
  · exact congrArg Host.Outcome.next (withinDgram_congr (atLeast_of_le _ _ _ _ h))
  · exact congrArg Host.Outcome.next (withinDgram_congr (atLeast_of_le _ _ _ _ h))

end Sys2Proof.Proofs
end

section
/-! Proofs about 00_scope.md R6 and R18, 10_state.md R45 and R48, 20_memory.md R72 and 70_reset_and_hazards.md R204 and
R210: when the block takes a step, and what it says when it takes none. -/

namespace Sys2Proof.Proofs

open Sys2Proof.Machine Sys2Proof.Laws

/-! ### The two checks -/

theorem configOk_iff (c : Config) :
    configOk c = true ↔ (∀ l ∈ c.rrqLevels, 1 ≤ l) ∧ 1 ≤ c.giveup ∧ c.giveup < 2 ^ 32 ∧ 1 ≤ c.maxDgram ∧
      c.maxDgram ≤ 2047 ∧ 1 ≤ c.queueDepth := by
  simp only [configOk, Bool.and_eq_true, List.all_eq_true, bne_iff_ne, decide_eq_true_eq, and_assoc,
    Nat.one_le_iff_ne_zero]
  have hmax : c.giveup ≤ 4294967295 ↔ c.giveup < 2 ^ 32 := Nat.lt_succ_iff.symm
  rw [hmax]

theorem get?_of_mem {α : Type} {S : Store α} (hwf : S.wf = true) {k : SeqNo} {v : α} (h : (k, v) ∈ S) :
    S.get? k = some v := by
  induction S with
  | nil => simp at h
  | cons e r ih =>
    obtain ⟨hrising, -⟩ := List.pairwise_cons.mp ((wf_iff _).mp hwf)
    obtain rfl | hr := List.mem_cons.mp h
    · simp [Store.get?]
    · have hne : e.1 ≠ k := fun heq => Nat.lt_irrefl _ (heq ▸ hrising _ hr)
      rw [← ih (wf_tail hwf) hr]
      exact (get?_cons ..).trans (if_neg hne)

/-- What R45 checks is R40 to R44, of stores in their canonical form. -/
theorem startOk_iff {s : State} (hheld : s.held.wf = true) (hretry : s.retry.wf = true) (hg : 1 ≤ s.cfg.giveup) :
    s.startOk = true ↔ s.KeepsR40ToR44 := by
  have hgap : ∀ k, s.retryKeyOk k = true ↔
      s.held.has k = false ∧ 0 ≤ s.dist k ∧ ∃ h, s.held.has h = true ∧ s.dist k < s.dist h := fun k => by
    simp [State.retryKeyOk, mem_keys_iff_has, and_assoc]
  have hcounts : (∀ e ∈ s.retry, 1 ≤ e.2.toNat ∧ e.2.toNat < s.cfg.giveup) ↔
      ∀ k c, s.retry.get? k = some c → 1 ≤ c.toNat ∧ c.toNat ≤ s.cfg.giveup - 1 :=
    ⟨fun h k c hk => ⟨(h _ (mem_of_get? hk)).1, Nat.le_sub_one_of_lt (h _ (mem_of_get? hk)).2⟩,
      fun h e he => ⟨(h e.1 e.2 (get?_of_mem hretry he)).1,
        Nat.lt_of_le_sub_one hg (h e.1 e.2 (get?_of_mem hretry he)).2⟩⟩
  have hempty : (s.initialized = true ∨ s.held = [] ∧ s.retry = []) ↔
      (s.initialized = false → s.held = [] ∧ s.retry = []) := by
    cases s.initialized <;> simp
  simp only [State.startOk, State.KeepsR40ToR44, hheld, hretry, Bool.true_and, Bool.and_eq_true, Bool.or_eq_true,
    List.all_eq_true, List.isEmpty_iff, decide_eq_true_eq, Bool.not_eq_true', mem_keys_iff_has, hgap, hcounts, hempty,
    and_assoc]

theorem keepsR40ToR44_of_inv {s : State} (h : s.Inv) : s.KeepsR40ToR44 :=
  ⟨h.ahead, h.lowMissing, h.retryInGap,
    fun k c hk => ⟨(h.counts k c hk).1, Nat.le_sub_one_of_lt (h.counts k c hk).2⟩, h.emptyBefore⟩

theorem startOk_of_inv {s : State} (h : s.Inv) : s.startOk = true :=
  (startOk_iff h.heldWf h.retryWf ((configOk_iff _).mp h.config).2.1).mpr (keepsR40ToR44_of_inv h)

/-! ### One equation per way a step ends -/

section Step

variable {s : State}

theorem step_of_stop {o : Host.Outcome State Fault Refusal} (h : s.stop = some o) : step s = o := by
  simp only [step, h]

theorem step_of_badConfig (hc : configOk s.cfg = false) : step s = .refused .badConfig :=
  step_of_stop (by simp [State.stop, hc])

theorem step_of_badState (hc : configOk s.cfg = true) (hs : s.startOk = false) : step s = .refused .badState :=
  step_of_stop (by simp [State.stop, hc, hs])

theorem step_of_closed (hc : configOk s.cfg = true) (hs : s.startOk = true) (hmode : s.mode = .closed) :
    step s = .fault .closed :=
  step_of_stop (by simp [State.stop, hc, hs, hmode])

theorem step_of_idle (hc : configOk s.cfg = true) (hs : s.startOk = true) (hmode : s.mode = .run)
    (hq : s.queue = []) : step s = .fault .idle :=
  step_of_stop (by simp [State.stop, hc, hs, hmode, hq])

theorem step_of_stalled (hc : configOk s.cfg = true) (hs : s.startOk = true) (hmode : s.mode = .run)
    (hq : s.queue ≠ []) (hst : s.stalled = true) : step s = .fault .stalled :=
  step_of_stop (by simp [State.stop, hc, hs, hmode, hq, hst])

theorem step_of_event {e : Slot} {rest : List Slot} {i : Instr} {u : State} (hstop : s.stop = none)
    (hq : s.queue = e :: rest) (hd : decode e = .ok i) (hx : exec i (s.takeEvent rest) = .next u) :
    step s = .next u.handOver := by
  simp only [step, hstop, hq, hd, hx, settle_next]

/-- With nothing waiting to be taken and a legal word at the head, the block performs it. -/
theorem exists_step_of_event {e : Slot} {rest : List Slot} {i : Instr} (hstop : s.stop = none)
    (hq : s.queue = e :: rest) (hd : decode e = .ok i) : ∃ t, step s = .next t := by
  obtain ⟨u, hx⟩ := exists_exec i (s.takeEvent rest)
  exact ⟨_, step_of_event hstop hq hd hx⟩

/-- Past the two checks, a step is taken, waits, has ended, or finds an illegal word. -/
theorem step_cases (hc : configOk s.cfg = true) (hs : s.startOk = true) :
    step s = .fault .closed ∨ step s = .fault .idle ∨ step s = .fault .stalled ∨
      (∃ d, step s = .refused (.illegalEvent d)) ∨ ∃ t, step s = .next t := by
  cases hmode : s.mode with
  | closed => exact .inl (step_of_closed hc hs hmode)
  | run =>
    cases hq : s.queue with
    | nil => exact .inr (.inl (step_of_idle hc hs hmode hq))
    | cons e rest =>
      have hne : s.queue ≠ [] := hq ▸ List.cons_ne_nil e rest
      cases hst : s.stalled with
      | true => exact .inr (.inr (.inl (step_of_stalled hc hs hmode hne hst)))
      | false =>
        have hstop := stop_eq_none.mpr ⟨hc, hs, hmode, hne, hst⟩
        cases hd : decode e with
        | error d => exact .inr (.inr (.inr (.inl ⟨d, step_of_decode_error hstop hq hd⟩)))
        | ok i => exact .inr (.inr (.inr (.inr (exists_step_of_event hstop hq hd))))

/-- A run ends at a fault, whatever fuel is left. -/
theorem run_of_fault {f : Fault} (h : step s = .fault f) (k : Nat) :
    Host.Core.run Sys2Proof.core (k + 1) s = .fault f := by
  have hcore : Sys2Proof.core.step s = .fault f := h
  simp only [Host.Core.run, hcore]

end Step

/-! ### The queue and the trace -/

/-- Settles O44: nothing stops the step, so it is the event's meaning and `handOver`. -/
theorem stepRunsTheDecodedEvent : Obligations.StepRunsTheDecodedEvent := by
  intro s e rest i hc hs hmode hst hq hd
  obtain ⟨u, hx⟩ := exists_exec i (s.takeEvent rest)
  have hstop := stop_eq_none.mpr ⟨hc, hs, hmode, hq ▸ List.cons_ne_nil e rest, hst⟩
  refine ⟨u, hx, ?_⟩
  rw [step_of_event hstop hq hd hx, handOver_eq, (kept_of_exec hx).consumerReady]
  rfl

/-- Settles O45: the event is the head, and no instruction touches what is left of the queue. -/
theorem stepTakesTheHeadOfTheQueue : Obligations.StepTakesTheHeadOfTheQueue := by
  intro s t h
  obtain ⟨-, e, rest, i, u, hq, hd, hx, rfl⟩ := step_next h
  refine ⟨e, i, ?_, hd⟩
  rw [hq, handOver_queue, (kept_of_exec hx).queue, takeEvent_queue]

theorem hostTake_eq_some {s u : State} {r : Record} (h : s.hostTake = some (r, u)) :
    s.trace[s.taken]? = some r ∧ u = { s with taken := s.taken + 1 } := by
  unfold State.hostTake at h
  split at h
  · next r' hr =>
    obtain ⟨rfl, rfl⟩ := Prod.mk.inj (Option.some.inj h)
    exact ⟨hr, rfl⟩
  · simp at h

theorem length_le_taken_of_hostTake_eq_none {s : State} (h : s.hostTake = none) : s.trace.length ≤ s.taken := by
  unfold State.hostTake at h
  split at h
  · simp at h
  · next hnone => exact List.getElem?_eq_none_iff.mp hnone

theorem not_stalled_of_length_le_taken {s : State} (h : s.trace.length ≤ s.taken) : s.stalled = false := by
  rw [State.stalled, List.drop_of_length_le h]
  rfl

/-- Settles O46: a stall is one of the reasons to take no step; taking a record writes `taken` only. -/
theorem stallIsAHoldNotALoss : Obligations.StallIsAHoldNotALoss := fun _ hinv hmode =>
  ⟨fun hst hq => step_of_stalled hinv.config (startOk_of_inv hinv) hmode hq hst,
    fun _ _ h => hostTake_eq_some h,
    fun h => not_stalled_of_length_le_taken (length_le_taken_of_hostTake_eq_none h)⟩

/-- Settles O47: the empty queue is looked at before the stall. -/
theorem emptyQueueIsIdle : Obligations.EmptyQueueIsIdle := fun _ hinv hmode hq =>
  step_of_idle hinv.config (startOk_of_inv hinv) hmode hq

/-- Settles O33: a closed block faults, and a run ends at a fault. -/
theorem closedTakesNoEvent : Obligations.ClosedTakesNoEvent := fun _ hinv hmode k =>
  run_of_fault (step_of_closed hinv.config (startOk_of_inv hinv) hmode) k

/-- Settles O57: the producer's guard is the depth of the queue. -/
theorem fullQueueHoldsTheProducer : Obligations.FullQueueHoldsTheProducer := fun _ _ =>
  ⟨fun hroom => if_pos hroom, fun hfull => if_neg (Nat.not_lt.mpr hfull)⟩

/-! ### Refused states -/

/-- Settles O49: the check is R40 to R44, and no other way a step ends is the refusal `badState`. -/
theorem badStateIsRefused : Obligations.BadStateIsRefused := by
  intro s hc hheld hretry
  have hiff := startOk_iff hheld hretry ((configOk_iff _).mp hc).2.1
  refine ⟨fun hbad => step_of_badState hc (Bool.eq_false_iff.mpr (mt hiff.mp hbad)), fun hgood => ?_⟩
  obtain h | h | h | ⟨d, h⟩ | ⟨t, h⟩ := step_cases hc (hiff.mpr hgood) <;> rw [h] <;> simp

/-- Settles O52: the invariant passes both checks, and every way a step then ends is safe. -/
theorem stepFromTheInvariantIsSafe : Obligations.StepFromTheInvariantIsSafe := by
  intro s hinv
  obtain h | h | h | ⟨d, h⟩ | ⟨t, h⟩ := step_cases hinv.config (startOk_of_inv hinv) <;> rw [h] <;> rfl

theorem resetWith_inv {c : Config} (hc : configOk c = true) : (State.resetWith c).Inv := by
  have g := gaps_nil c.deltaRule 0
  exact
  { config      := hc
    heldWf      := g.heldWf
    retryWf     := g.retryWf
    ahead       := g.ahead
    lowMissing  := g.lowMissing
    retryInGap  := g.retryInGap
    counts      := fun k x hk => by simp at hk
    emptyBefore := fun _ => ⟨rfl, rfl⟩
    emptyAfter  := fun _ => ⟨rfl, rfl⟩
    packets     := fun k p hk => by simp at hk
    runLevel    := g.runLevel
    falling     := g.falling
    takenLe     := le_rfl }

/-- Settles O50: with both stores empty there is nothing else to keep, and the defaults are legal. -/
theorem resetMeetsTheInvariant : Obligations.ResetMeetsTheInvariant :=
  ⟨fun _ hc => resetWith_inv hc, resetWith_inv rfl⟩

/-! ### Give-up, by where the run starts -/

/-- A run at `low` is evicted, and `low` moves past it and is drained (R124). -/
theorem giveUp_of_start_eq {r : Run} {s : State} (h : r.start = s.low) :
    s.giveUp r = State.drain { s.emit (.evict r.start (BitVec.ofNat 16 r.count)) with
      retry := delAll s.retry r.slots, low := add16 r.start r.count } :=
  if_pos h

theorem giveUp_of_start_ne {r : Run} {s : State} (h : r.start ≠ s.low) :
    s.giveUp r = { s.emit (.evict r.start (BitVec.ofNat 16 r.count)) with retry := delAll s.retry r.slots } :=
  if_neg h

/-! ### Levels that never fire -/

/-- The state under other rerequest levels. -/
def withLevels (L : List Nat) (s : State) : State := { s with cfg := { s.cfg with rrqLevels := L } }

section Levels

variable (L : List Nat)

theorem drainLoop_withLevels (n : Nat) (s : State) :
    State.drainLoop n (withLevels L s) = withLevels L (s.drainLoop n) := by
  induction n generalizing s with
  | zero => rfl
  | succ n ih =>
    have hheld : (withLevels L s).held.get? (withLevels L s).low = s.held.get? s.low := rfl
    simp only [State.drainLoop, hheld]
    cases s.held.get? s.low with
    | none => rfl
    | some q => exact ih (State.deliver q { s with held := s.held.del s.low })

theorem drain_withLevels (s : State) : (withLevels L s).drain = withLevels L s.drain :=
  drainLoop_withLevels L _ s

theorem giveUp_withLevels (r : Run) (s : State) : (withLevels L s).giveUp r = withLevels L (s.giveUp r) := by
  by_cases h : r.start = s.low
  · rw [giveUp_of_start_eq h, giveUp_of_start_eq (s := withLevels L s) h]
    exact drain_withLevels L { s.emit (.evict r.start (BitVec.ofNat 16 r.count)) with
      retry := delAll s.retry r.slots, low := add16 r.start r.count }
  · rw [giveUp_of_start_ne h, giveUp_of_start_ne (s := withLevels L s) h]
    rfl

variable {L}

/-- The levels are looked up only for a run below GIVEUP (R125). -/
theorem scanRun_withLevels {s : State} (h : ∀ n < s.cfg.giveup, n ∈ L ↔ n ∈ s.cfg.rrqLevels) (r : Run) :
    (withLevels L s).scanRun r = withLevels L (s.scanRun r) := by
  have hgiveup : (withLevels L s).cfg.giveup = s.cfg.giveup := rfl
  have hlevels : (withLevels L s).cfg.rrqLevels = L := rfl
  have hretry : (withLevels L s).retry = s.retry := rfl
  unfold State.scanRun
  simp only [hgiveup, hlevels, hretry]
  split_ifs with hge hin hin' hin'
  · exact giveUp_withLevels L r { s with retry := bumpAll s.retry r.slots }
  · rfl
  · exact absurd ((h _ (Nat.not_le.mp hge)).mp hin) hin'
  · exact absurd ((h _ (Nat.not_le.mp hge)).mpr hin') hin
  · rfl

theorem scanRuns_withLevels {s : State} (h : ∀ n < s.cfg.giveup, n ∈ L ↔ n ∈ s.cfg.rrqLevels) (l : List Run) :
    (withLevels L s).scanRuns l = withLevels L (s.scanRuns l) := by
  induction l generalizing s with
  | nil => rfl
  | cons r l ih =>
    have hcfg := (kept_scanRun r s).cfg
    rw [State.scanRuns, State.scanRuns, scanRun_withLevels h, ih (by rwa [hcfg])]

end Levels

/-- Settles O48: a TICK looks up no level at or above GIVEUP; the constraints are the check; a legal configuration
leaves `badState` and the ways of `step_cases`. -/
theorem badConfigurationIsRefused : Obligations.BadConfigurationIsRefused := by
  refine fun s => ⟨⟨_, rfl, ?_⟩, fun hbad => step_of_badConfig ?_, fun hlevels hg hg' hm hm' hq => ?_⟩
  · have hscan := scanRuns_withLevels (s := s) (L := s.cfg.rrqLevels.filter (fun l => decide (l < s.cfg.giveup)))
      (fun n hn => by simp [hn]) s.tickRuns
    refine congrArg Host.Outcome.next (hscan.trans ?_)
    rw [withLevels, (kept_scanRuns s.tickRuns s).cfg]
  · rw [Bool.eq_false_iff, Ne, configOk_iff]
    rintro ⟨hlevels, hg, hg', hm, hm', hq⟩
    obtain ⟨l, hl, hlt⟩ | hbad := hbad
    · exact absurd (hlevels l hl) (Nat.not_le.mpr hlt)
    · omega
  · have hc := (configOk_iff s.cfg).mpr ⟨hlevels, hg, hg', hm, hm', hq⟩
    refine ⟨hc, ?_⟩
    cases hs : s.startOk with
    | false => simp [step_of_badState hc hs]
    | true => obtain h | h | h | ⟨d, h⟩ | ⟨t, h⟩ := step_cases hc hs <;> rw [h] <;> simp

end Sys2Proof.Proofs
end

section
/-! Proofs about 41_sequencer.md R110, R115 and R134 and 10_state.md R36: what HANDLE emits, which packets are stale, and
that a payload is carried along unread. -/

namespace Sys2Proof.Proofs

open Sys2Proof.Machine Sys2Proof.Laws

/-! ### Stale packets -/

/-- A packet strictly behind `low` is released as it came (R115). -/
theorem place_of_behind {s : State} {p : Packet} (hne : p.sn ≠ s.low) (h : s.dist p.sn < 0) :
    s.place p = State.release .stale (.packet p) { s with retry := s.retry.del p.sn } :=
  (if_neg hne).trans (if_pos h)

/-- Which numbers are behind `low` under SHORTEST, by how far `low` is past them (R101). -/
theorem delta_shortest_neg_iff (k low : SeqNo) :
    delta .shortest k low < 0 ↔
      (1 ≤ (low - k).toNat ∧ (low - k).toNat ≤ 32767) ∨ ((low - k).toNat = 32768 ∧ k.toNat < low.toNat) := by
  have hk := k.isLt
  have hlow := low.isLt
  have hcases := delta_shortest_cases k low
  rw [BitVec.toNat_sub]
  omega

/-- Settles O16: HANDLE's test for STALE, and the branches of R101 with a negative distance. -/
theorem stalePacketIsReleased : Obligations.StalePacketIsReleased := by
  intro s sn rx B hfit hinit
  refine ⟨fun hne hbehind => ⟨?_, fun hinv => del_retry_of_not_in_gap hinv (.inl hbehind)⟩, fun hrule => ?_⟩
  · rw [exec_pkt_of_fits hfit, handle_of_initialized hinit,
      place_of_behind (s := s.emit (.input sn rx)) (p := ⟨sn, rx, B⟩) hne hbehind]
    simp [State.release, State.emit]
  · rw [State.dist, hrule]
    exact delta_shortest_neg_iff sn s.low

/-- Settles O11: three distances, evaluated. -/
theorem circularOrderIsNotTransitive : Obligations.CircularOrderIsNotTransitive := ⟨rfl, rfl, rfl⟩

/-! ### What HANDLE emits -/

/-- Each turn of DRAIN turns an entry of `held`, or more where the store is not in canonical form, into a record. -/
theorem drainLoop_length_le (n : Nat) (s : State) :
    (s.drainLoop n).held.length + (s.drainLoop n).trace.length ≤ s.held.length + s.trace.length := by
  induction n generalizing s with
  | zero => exact le_rfl
  | succ n ih =>
    rw [State.drainLoop]
    cases hq : s.held.get? s.low with
    | none => exact le_rfl
    | some q =>
      have hlt := length_del_lt s.held s.low (by simp [Store.has, hq])
      refine (ih _).trans ?_
      simp only [deliver_held, deliver_trace, List.length_append, List.length_singleton]
      omega

theorem length_le_of_drained {s : State} {qs : List Packet} (hd : Drained s s.drain qs) :
    qs.length ≤ s.held.length := by
  have hle : s.drain.held.length + s.drain.trace.length ≤ s.held.length + s.trace.length := drainLoop_length_le _ s
  obtain ⟨-, -, -, -, -, -, -, htrace, -⟩ := hd.frame
  rw [htrace, List.length_append, List.length_map] at hle
  omega

/-- Steps 2 to 5 emit one RELEASE, or DELIVERs, or nothing (R134). -/
theorem place_trace (p : Packet) (s : State) :
    ∃ rest : List Record, (s.place p).trace = s.trace ++ rest ∧
      ((∃ c x, rest = [.release c x]) ∨ ∃ ps : List Packet, rest = ps.map .deliver) ∧
      rest.length ≤ 1 + s.held.length := by
  obtain ⟨-, h⟩ | ⟨-, -, h⟩ | ⟨-, -, -, h⟩ | ⟨-, -, -, h⟩ := place_cases p s <;> rw [h]
  · obtain ⟨qs, hd⟩ := drain_spec (State.deliver p { s with retry := s.retry.del p.sn })
    obtain ⟨-, -, -, -, -, -, -, htrace, -⟩ := hd.frame
    have hle : qs.length ≤ s.held.length := (length_le_of_drained hd :)
    refine ⟨(p :: qs).map .deliver, by simp [htrace], .inr ⟨_, rfl⟩, ?_⟩
    rw [List.length_map, List.length_cons]
    omega
  · exact ⟨_, rfl, .inl ⟨_, _, rfl⟩, Nat.le_add_right ..⟩
  · exact ⟨_, rfl, .inl ⟨_, _, rfl⟩, Nat.le_add_right ..⟩
  · exact ⟨[], (List.append_nil _).symm, .inr ⟨[], rfl⟩, Nat.zero_le _⟩

/-- Settles O20: the IN record, then step 1's release or what steps 2 to 5 emit. -/
theorem handleEmitsInThenReleaseOrDeliveries : Obligations.HandleEmitsInThenReleaseOrDeliveries := by
  intro s sn rx B hfit
  obtain ⟨hmode, htxseq⟩ := handle_mode_txseq ⟨sn, rx, B⟩ s
  suffices h : ∃ rest : List Record, (s.handle ⟨sn, rx, B⟩).trace = s.trace ++ .input sn rx :: rest ∧
      ((∃ c x, rest = [.release c x]) ∨ ∃ ps : List Packet, rest = ps.map .deliver) ∧
      rest.length ≤ 1 + s.held.length by
    obtain ⟨rest, htrace, hrest, hlen⟩ := h
    exact ⟨_, rest, exec_pkt_of_fits hfit, htrace, hrest, hlen, htxseq, hmode⟩
  obtain ⟨-, h⟩ | ⟨-, -, h⟩ | ⟨-, -, h⟩ := handle_cases ⟨sn, rx, B⟩ s <;> rw [h]
  · obtain ⟨rest, htrace, hrest, hlen⟩ := place_trace ⟨sn, rx, B⟩ (s.emit (.input sn rx))
    exact ⟨rest, htrace.trans (by simp), hrest, hlen⟩
  · exact ⟨[.release .retxBeforeInit (.packet ⟨sn, rx, B⟩)], by simp, .inl ⟨_, _, rfl⟩, Nat.le_add_right ..⟩
  · obtain ⟨rest, htrace, hrest, hlen⟩ :=
      place_trace ⟨sn, rx, B⟩ { s.emit (.input sn rx) with low := sn, initialized := true }
    exact ⟨rest, htrace.trans (by simp), hrest, hlen⟩

/-! ### The payload -/

/-- Two states agree on everything but the records and the contents of the held packets. -/
structure SameKeys (s t : State) : Prop where
  low         : s.low = t.low
  initialized : s.initialized = t.initialized
  mode        : s.mode = t.mode
  txseq       : s.txseq = t.txseq
  retry       : s.retry = t.retry
  keys        : s.held.keys = t.held.keys

theorem sameKeys_release (s : State) (c : Reason) (x y : Item) : SameKeys (s.release c x) (s.release c y) :=
  ⟨rfl, rfl, rfl, rfl, rfl, rfl⟩

theorem keys_set_congr {α : Type} (S : Store α) (k : SeqNo) (u v : α) : (S.set k u).keys = (S.set k v).keys := by
  induction S with
  | nil => rfl
  | cons e r ih =>
    simp only [Store.set]
    split_ifs
    · rfl
    · rfl
    · exact congrArg (e.1 :: ·) ih

/-- DRAIN does not look at the records before it. -/
theorem drainLoop_of_trace (n : Nat) (s : State) (tr : List Record) :
    State.drainLoop n { s with trace := tr } =
      { s.drainLoop n with trace := (State.drainLoop n { s with trace := tr }).trace } := by
  induction n generalizing s tr with
  | zero => rfl
  | succ n ih =>
    simp only [State.drainLoop]
    cases s.held.get? s.low with
    | none => rfl
    | some q => exact ih (State.deliver q { s with held := s.held.del s.low }) (tr ++ [.deliver q])

theorem sameKeys_drain_deliver (s : State) (p q : Packet) : SameKeys (s.deliver p).drain (s.deliver q).drain := by
  have h := drainLoop_of_trace s.held.length (s.deliver p) (s.deliver q).trace
  have heq : (s.deliver q).drain = { (s.deliver p).drain with trace := (s.deliver q).drain.trace } := h
  rw [heq]
  exact ⟨rfl, rfl, rfl, rfl, rfl, rfl⟩

/-- Steps 2 to 5 choose by the sequence number alone. -/
theorem sameKeys_place (s : State) {p q : Packet} (h : p.sn = q.sn) : SameKeys (s.place p) (s.place q) := by
  unfold State.place
  rw [h]
  dsimp only
  split_ifs
  · exact sameKeys_drain_deliver ..
  · exact sameKeys_release ..
  · exact sameKeys_release ..
  · exact ⟨rfl, rfl, rfl, rfl, rfl, keys_set_congr ..⟩

/-- Settles O21: step 1 reads the flag, steps 2 to 5 the sequence number. -/
theorem payloadIsOpaque : Obligations.PayloadIsOpaque := by
  intro s sn rx B B' hfit hfit'
  have hsame : SameKeys (s.handle ⟨sn, rx, B⟩) (s.handle ⟨sn, rx, B'⟩) := by
    unfold State.handle
    dsimp only
    split_ifs
    · exact sameKeys_place _ rfl
    · exact sameKeys_release ..
    · exact sameKeys_place _ rfl
  exact ⟨_, _, exec_pkt_of_fits hfit, exec_pkt_of_fits hfit', hsame.low, hsame.initialized, hsame.mode, hsame.txseq,
    hsame.retry, hsame.keys⟩

end Sys2Proof.Proofs
end

section
/-! Proofs about 60_exceptions.md R186: how the lifecycle modes are entered and left. -/

namespace Sys2Proof.Proofs

open Sys2Proof.Machine Sys2Proof.Laws

section Lifecycle

variable {s t : State} {i : Instr}

theorem lifecycle_eq_closed : s.lifecycle = .closed ↔ s.mode = .closed := by
  unfold State.lifecycle
  cases s.mode <;> cases s.initialized <;> simp

theorem lifecycle_eq_stream : s.lifecycle = .stream ↔ s.mode = .run ∧ s.initialized = true := by
  unfold State.lifecycle
  cases s.mode <;> cases s.initialized <;> simp

theorem lifecycle_eq_uninit_iff : s.lifecycle = .uninit ↔ s.mode = .run ∧ s.initialized = false := by
  unfold State.lifecycle
  cases s.mode <;> cases s.initialized <;> simp

theorem lifecycle_congr (hmode : t.mode = s.mode) (hinit : t.initialized = s.initialized) :
    t.lifecycle = s.lifecycle := by
  rw [State.lifecycle, State.lifecycle, hmode, hinit]

/-- CLOSED is entered by CLOSE alone. -/
theorem mode_closed_iff_of_exec (hmode : s.mode = .run) (hx : exec i s = .next t) : t.mode = .closed ↔ i = .close := by
  constructor
  · intro hclosed
    by_contra hi
    rw [exec_mode hx hi, hmode] at hclosed
    exact absurd hclosed (by decide)
  · rintro rfl
    obtain rfl := Host.Outcome.next.inj hx
    rfl

/-- A session starts with its first primary packet, delivered at once (R111). -/
theorem low_and_records_of_start (hinv : s.Inv) (hs : s.initialized = false) (ht : t.initialized = true)
    (hx : exec i s = .next t) :
    ∃ p : Packet, p.rx = false ∧ t.low = add16 p.sn 1 ∧ t.trace = s.trace ++ [.input p.sn false, .deliver p] := by
  obtain ⟨hheld, hretry⟩ := hinv.emptyBefore hs
  cases effect_of_exec hx with
  | @handle _ p hfit =>
    cases hrx : p.rx with
    | true => simp [handle_of_retransmit hs hrx, hs] at ht
    | false =>
      rw [handle_of_first_primary hs hrx hheld hretry]
      exact ⟨p, hrx, rfl, by rw [hrx]⟩
  | decline => exact absurd ht Bool.false_ne_true
  | tick =>
    rw [(scanRuns_frame s.tickRuns s).2.1, hs] at ht
    exact absurd ht (by decide)
  | _ => simp [hs] at ht

/-- A session ends, other than by CLOSE, with a FLUSH or a declined recovery. -/
theorem instr_of_end (hs : s.initialized = true) (ht : t.initialized = false) (hx : exec i s = .next t) :
    i = .flush ∨ ∃ B, IsDecline i B := by
  cases effect_of_exec hx with
  | flush => exact .inl rfl
  | decline h => exact .inr ⟨_, h⟩
  | handle =>
    rw [handle_of_initialized hs, (place_frame ..).2.1] at ht
    exact absurd (hs.symm.trans ht) (by decide)
  | tick =>
    rw [(scanRuns_frame s.tickRuns s).2.1, hs] at ht
    exact absurd ht (by decide)
  | _ => simp [hs] at ht

end Lifecycle

theorem decode_ne_rxcDecline {e : Slot} {B : List Byte} : decode e ≠ .ok (.rxcDecline B) := by
  intro h
  have hcases := decode_ok_cases h
  simp at hcases

/-- The event that declines is a control datagram, of payload type 86 and status 1 (42_codec.md R158). -/
theorem decode_eq_rxc_of_isDecline {e : Slot} {i : Instr} {B : List Byte} (hd : decode e = .ok i) (h : IsDecline i B) :
    decode e = .ok (.rxc B) ∧ payloadType B = 86 ∧ statusOf B = 1 := by
  obtain rfl | ⟨rfl, hpt, hdec⟩ := h
  · exact absurd hd decode_ne_rxcDecline
  · have hlen : 6 ≤ B.length := by
      by_contra hlt
      exact not_declines_of_lt (Nat.not_le.mp hlt) hdec
    exact ⟨hd, hpt, (declines_iff hlen).mp hdec⟩

/-- Settles O56: the step is its event's instruction; what the stores hold outside STREAM is the invariant's. -/
theorem lifecycleModes : Obligations.LifecycleModes := by
  intro s t hinv hstep
  have htinv := stepKeepsTheInvariant s t hinv hstep
  obtain ⟨hstop, e, rest, i, u, hq, hd, hx, rfl⟩ := step_next hstep
  obtain ⟨-, -, hmode, -⟩ := stop_eq_none.mp hstop
  refine ⟨?_, fun hs ht => ?_, fun hs ht => ?_, fun ht => ?_⟩
  · rw [lifecycle_eq_closed, handOver_mode, mode_closed_iff_of_exec (s := s.takeEvent rest) hmode hx]
    constructor
    · rintro rfl
      exact ⟨e, rest, hq, hd⟩
    · rintro ⟨e', rest', hq', hd'⟩
      obtain ⟨rfl, rfl⟩ := List.cons.inj (hq.symm.trans hq')
      exact Except.ok.inj (hd.symm.trans hd')
  · rw [lifecycle_eq_uninit_iff] at hs
    rw [lifecycle_eq_stream] at ht
    obtain ⟨p, hrx, -, htrace⟩ := low_and_records_of_start (inv_takeEvent hinv rest) hs.2 (by simpa using ht.2) hx
    exact ⟨p, hrx, newRecords_eq (by rw [handOver_trace, htrace, takeEvent_trace])⟩
  · rw [lifecycle_eq_stream] at hs
    rw [lifecycle_eq_uninit_iff] at ht
    refine ⟨e, rest, hq, ?_⟩
    obtain rfl | ⟨B, hB⟩ := instr_of_end (s := s.takeEvent rest) hs.2 (by simpa using ht.2) hx
    · exact .inl hd
    · exact .inr ⟨B, decode_eq_rxc_of_isDecline hd hB⟩
  · cases hlife : u.handOver.lifecycle with
    | stream => exact absurd hlife ht
    | uninit => exact htinv.emptyBefore (lifecycle_eq_uninit_iff.mp hlife).2
    | closed => exact htinv.emptyAfter (lifecycle_eq_closed.mp hlife)

end Sys2Proof.Proofs
end

section
/-! Proofs about 41_sequencer.md R124, R126 and R131: a TICK evicts its runs one after the other, each at `low`, until
one is below GIVEUP, and from there on only asks again. -/

namespace Sys2Proof.Proofs

open Sys2Proof.Machine Sys2Proof.Laws

/-! ### The records of two parts of an instruction -/

theorem newRecords_append {s t u : State} (h : Kept s t) (k : Kept t u) :
    newRecords s u = newRecords s t ++ newRecords t u :=
  newRecords_eq (by rw [trace_eq_of_kept k, trace_eq_of_kept h, List.append_assoc])

theorem newRecords_scanRuns_cons (r : Run) (l : List Run) (s : State) :
    newRecords s (s.scanRuns (r :: l)) =
      newRecords s (s.scanRun r) ++ newRecords (s.scanRun r) ((s.scanRun r).scanRuns l) :=
  newRecords_append (kept_scanRun r s) (kept_scanRuns l _)

/-! ### Runs below GIVEUP -/

/-- From `s` to `t` nothing but rerequests: `low` and the held packets stay. -/
structure Asked (s t : State) : Prop where
  low     : t.low = s.low
  held    : t.held = s.held
  records : ∃ new, t.trace = s.trace ++ new ∧ ∀ r ∈ new, ∃ m, r = .rrq m

theorem asked_scanRun {r : Run} {s : State} (h : countedLevel s r < s.cfg.giveup) : Asked s (s.scanRun r) := by
  obtain ⟨u, rfl, ⟨hge, -⟩ | ⟨-, -, heq⟩ | ⟨-, -, heq⟩⟩ := scanRun_cases r s
  · exact absurd h (Nat.not_lt.mpr hge)
  · rw [heq]
    exact ⟨rfl, rfl, _, rfl, fun x hx => ⟨_, List.mem_singleton.mp hx⟩⟩
  · rw [heq]
    exact ⟨rfl, rfl, [], (List.append_nil _).symm, by simp⟩

theorem asked_scanRuns {l : List Run} {s : State} (hnd : (l.flatMap Run.slots).Nodup)
    (h : ∀ r ∈ l, countedLevel s r < s.cfg.giveup) : Asked s (s.scanRuns l) := by
  induction l generalizing s with
  | nil => exact ⟨rfl, rfl, [], (List.append_nil _).symm, by simp⟩
  | cons r l ih =>
    rw [List.flatMap_cons, List.nodup_append'] at hnd
    obtain ⟨-, hl, hdisj⟩ := hnd
    have hrest : ∀ q ∈ l, countedLevel (s.scanRun r) q < (s.scanRun r).cfg.giveup := fun q hq => by
      rw [(kept_scanRun r s).cfg, countedLevel_scanRun s ((List.nodup_flatMap.mp hl).1 q hq)
        fun k hk hkr => hdisj hkr (List.mem_flatMap.mpr ⟨q, hq, hk⟩)]
      exact h q (List.mem_cons_of_mem r hq)
    obtain ⟨hlow, hheld, new, hnew, hrrq⟩ := asked_scanRun (h r List.mem_cons_self)
    obtain ⟨hlow', hheld', new', hnew', hrrq'⟩ := ih hl hrest
    refine ⟨hlow'.trans hlow, hheld'.trans hheld, new ++ new', ?_, fun x hx => ?_⟩
    · rw [State.scanRuns, hnew', hnew, List.append_assoc]
    · exact (List.mem_append.mp hx).elim (hrrq x) (hrrq' x)

/-! ### One eviction at `low` -/

theorem length_del_of_wf {α : Type} {S : Store α} (hwf : S.wf = true) {k : SeqNo} (h : S.has k = true) :
    (S.del k).length + 1 = S.length := by
  induction S with
  | nil => simp at h
  | cons e r ih =>
    obtain ⟨a, u⟩ := e
    obtain ⟨hrising, -⟩ := List.pairwise_cons.mp ((wf_iff _).mp hwf)
    unfold Store.del
    split_ifs with hak
    · have hout : Store.has r k = false :=
        (has_eq_false _ _).mpr (get?_eq_none_of_lt r k fun x hx => hak ▸ hrising x hx)
      rw [del_of_absent _ _ hout]
      rfl
    · have hr : Store.has r k = true := by simpa [Store.has, Store.get?, hak] using h
      rw [List.length_cons, ih (wf_tail hwf) hr, List.length_cons]

/-- DRAIN turns one held packet into one record each turn. -/
theorem drainLoop_length_eq (n : Nat) {s : State} (hwf : s.held.wf = true) :
    (s.drainLoop n).held.length + (s.drainLoop n).trace.length = s.held.length + s.trace.length := by
  induction n generalizing s with
  | zero => rfl
  | succ n ih =>
    rw [State.drainLoop]
    cases hq : s.held.get? s.low with
    | none => rfl
    | some q =>
      have hlen := length_del_of_wf hwf ((has_iff _ _).mpr ⟨q, hq⟩)
      refine (ih (del_wf _ _ hwf)).trans ?_
      simp only [deliver_held, deliver_trace, List.length_append, List.length_singleton]
      omega

theorem length_held_of_drained {s : State} {qs : List Packet} (hd : Drained s s.drain qs) (hwf : s.held.wf = true) :
    s.drain.held.length + qs.length = s.held.length := by
  have hlen : s.drain.held.length + s.drain.trace.length = s.held.length + s.trace.length := drainLoop_length_eq _ hwf
  obtain ⟨-, -, -, -, -, -, -, htrace, -⟩ := hd.frame
  rw [htrace, List.length_append, List.length_map] at hlen
  omega

/-- `low` is evicted with the `c` slots from it, and then DRAIN delivers `qs` (R124). -/
structure Evicted (s t : State) (c : Nat) (qs : List Packet) : Prop where
  eq     : t = { s with
    low := add16 s.low (c + qs.length), held := t.held, retry := t.retry,
    trace := s.trace ++ .evict s.low (BitVec.ofNat 16 c) :: qs.map .deliver }
  were   : ∀ i (h : i < qs.length), s.held.get? (add16 s.low (c + i)) = some qs[i]
  held   : Removed (slotsFrom (add16 s.low c) qs.length) s.held t.held
  length : s.held.wf = true → t.held.length + qs.length = s.held.length

theorem Evicted.newRecords {s t : State} {c : Nat} {qs : List Packet} (h : Evicted s t c qs) :
    newRecords s t = .evict s.low (BitVec.ofNat 16 c) :: qs.map .deliver :=
  newRecords_eq (by rw [h.eq])

theorem Evicted.low {s t : State} {c : Nat} {qs : List Packet} (h : Evicted s t c qs) :
    t.low = add16 s.low (c + qs.length) := by
  rw [h.eq]

theorem evicted_of_drained {s u t : State} {c : Nat} {R : Store U32} {qs : List Packet} (hd : Drained u t qs)
    (hu : u = { s.emit (.evict s.low (BitVec.ofNat 16 c)) with retry := R, low := add16 s.low c })
    (hlen : u.held.wf = true → t.held.length + qs.length = u.held.length) : Evicted s t c qs := by
  obtain ⟨-, -, -, -, hretry, -⟩ := hd.frame
  have heq := hd.eq
  have hwere := hd.were
  have hheld := hd.held
  subst hu
  refine ⟨?_, fun i hi => ?_, hheld, hlen⟩
  · rw [hretry]
    refine heq.trans ?_
    simp [add16_add, State.emit]
  · rw [← add16_add]
    exact hwere i hi

theorem exists_evicted_giveUp {r : Run} {s : State} (R : Store U32) (h : r.start = s.low) :
    ∃ qs, Evicted s (State.giveUp r { s with retry := R }) r.count qs := by
  rw [giveUp_of_start_eq (s := { s with retry := R }) h, h]
  obtain ⟨qs, hd⟩ := drain_spec { s.emit (.evict s.low (BitVec.ofNat 16 r.count)) with
    retry := delAll R r.slots, low := add16 s.low r.count }
  exact ⟨qs, evicted_of_drained hd rfl (length_held_of_drained hd)⟩

/-! ### The scan, run by run -/

section Scanning

variable {s : State} {span : Nat} {l : List Run} {r : Run}

/-- The run at `low` is evicted and the scan goes on, or no run is evicted any more (R131). -/
theorem Scanning.evict_or_below (S : Scanning s span (r :: l)) :
    (s.cfg.giveup ≤ countedLevel s r ∧ (∃ qs, Evicted s (s.scanRun r) r.count qs) ∧
      ∃ n, Scanning (s.scanRun r) n l) ∨
    ∀ q ∈ r :: l, countedLevel s q < s.cfg.giveup := by
  by_cases hge : s.cfg.giveup ≤ countedLevel s r
  · left
    have hscan : s.scanRun r = State.giveUp r { s with retry := bumpAll s.retry r.slots } := by
      obtain ⟨u, rfl, ⟨-, h⟩ | ⟨hlt, -⟩ | ⟨hlt, -⟩⟩ := scanRun_cases r s
      · exact h
      all_goals exact absurd hge (Nat.not_le.mpr hlt)
    rw [hscan]
    exact ⟨hge, exists_evicted_giveUp _ S.start_eq_low, S.evict⟩
  · right
    intro q hq
    have hnd := S.nodup
    have hk : q.start ∈ q.slots := mem_runSlots.mpr ⟨0, S.countPos q hq, (add16_zero _).symm⟩
    have hk' : q.start ∈ (r :: l).flatMap Run.slots := List.mem_flatMap.mpr ⟨q, hq, hk⟩
    have hlow : ((bumpAll s.retry ((r :: l).flatMap Run.slots)).get0 s.low).toNat < s.cfg.giveup := by
      by_contra hlow
      exact hge (S.giveup_le_level (Nat.not_lt.mp hlow))
    calc countedLevel s q
        ≤ ((bumpAll s.retry q.slots).get0 q.start).toNat := levelOf_le hk
      _ = ((bumpAll s.retry ((r :: l).flatMap Run.slots)).get0 q.start).toNat := by
          rw [get0_bumpAll_of_mem ((List.nodup_flatMap.mp hnd).1 q hq) hk, get0_bumpAll_of_mem hnd hk']
      _ ≤ ((bumpAll s.retry ((r :: l).flatMap Run.slots)).get0 s.low).toNat :=
          S.gaps.get0_le_get0_low (has_bumpAll_of_mem hnd hk')
      _ < s.cfg.giveup := hlow

/-- A scan is some evictions at `low`, one after the other, and then runs that are not evicted. -/
theorem Scanning.induction {P : State → List Run → Prop}
    (below : ∀ {s span l}, Scanning s span l → (∀ q ∈ l, countedLevel s q < s.cfg.giveup) → P s l)
    (evict : ∀ {s span r l qs}, Scanning s span (r :: l) → s.cfg.giveup ≤ countedLevel s r →
      Evicted s (s.scanRun r) r.count qs → P (s.scanRun r) l → P s (r :: l))
    (S : Scanning s span l) : P s l := by
  induction l generalizing s span with
  | nil => exact below S (by simp)
  | cons r l ih =>
    obtain ⟨hge, ⟨qs, hev⟩, n, hn⟩ | hbelow := S.evict_or_below
    · exact evict S hge hev (ih hn)
    · exact below S hbelow

/-- The runs not scanned yet have the levels they had. -/
theorem Scanning.countedLevel_scanRun (S : Scanning s span (r :: l)) {q : Run} (hq : q ∈ l) :
    countedLevel (s.scanRun r) q = countedLevel s q := by
  obtain ⟨-, hl, hdisj⟩ := List.nodup_append'.mp (List.flatMap_cons ▸ S.nodup)
  exact Proofs.countedLevel_scanRun s ((List.nodup_flatMap.mp hl).1 q hq)
    fun k hk hkr => hdisj hkr (List.mem_flatMap.mpr ⟨q, hq, hk⟩)

end Scanning

/-! ### Evicted runs -/

theorem evictedRuns_append (a b : List Record) : evictedRuns (a ++ b) = evictedRuns a ++ evictedRuns b := by
  induction a with
  | nil => rfl
  | cons r a ih => cases r <;> simp [evictedRuns, ih]

theorem evictedRuns_eq_nil {l : List Record} (h : ∀ f c, .evict f c ∉ l) : evictedRuns l = [] := by
  induction l with
  | nil => rfl
  | cons r l ih =>
    have hl : evictedRuns l = [] := ih fun f c hm => h f c (List.mem_cons_of_mem r hm)
    cases r
    case evict f c => exact absurd List.mem_cons_self (h f c)
    all_goals exact hl

/-- The first `n` of the runs `l` are evicted, for their level, and the scan ends at the run after them, or with nothing
held (R131). -/
structure EvictsPrefix (s t : State) (l : List Run) (n : Nat) : Prop where
  records : evictedRuns (newRecords s t) = (l.take n).map (fun r => (r.start, BitVec.ofNat 16 r.count))
  reached : ∀ r ∈ l.take n, s.cfg.giveup ≤ countedLevel s r
  below   : ∀ r ∈ l.drop n, countedLevel s r < s.cfg.giveup
  low     : ∀ h : n < l.length, t.low = l[n].start
  nothing : l.length ≤ n → t.held = []

theorem Scanning.evictsPrefix {s : State} {span : Nat} {l : List Run} (S : Scanning s span l) :
    ∃ n, EvictsPrefix s (s.scanRuns l) l n := by
  refine Scanning.induction (P := fun s l => ∃ n, EvictsPrefix s (s.scanRuns l) l n) ?_ ?_ S
  · intro s span l S hbelow
    have hasked := asked_scanRuns S.nodup hbelow
    obtain ⟨new, hnew, hrrq⟩ := hasked.records
    refine ⟨0, ?_, by simp, hbelow, fun hpos => ?_, fun hnil => ?_⟩
    · rw [newRecords_eq hnew]
      refine evictedRuns_eq_nil fun f c hm => ?_
      obtain ⟨m, hm⟩ := hrrq _ hm
      simp at hm
    · cases l with
      | nil => simp at hpos
      | cons r l => exact hasked.low.trans S.start_eq_low.symm
    · obtain rfl := List.length_eq_zero_iff.mp (Nat.le_zero.mp hnil)
      exact S.held_nil
  · rintro s span r l qs S hge hev ⟨n, ih⟩
    have hcfg := (kept_scanRun r s).cfg
    refine ⟨n + 1, ?_, ?_, fun q hq => ?_, fun h => ?_, fun h => ih.nothing (Nat.le_of_succ_le_succ h)⟩
    · rw [newRecords_scanRuns_cons, evictedRuns_append, ih.records, hev.newRecords, ← S.start_eq_low, evictedRuns,
        evictedRuns_eq_nil (by simp)]
      rfl
    · rw [List.take_succ_cons, List.forall_mem_cons]
      refine ⟨hge, fun q hq => ?_⟩
      rw [← S.countedLevel_scanRun (List.mem_of_mem_take hq), ← hcfg]
      exact ih.reached q hq
    · rw [← S.countedLevel_scanRun (List.mem_of_mem_drop hq), ← hcfg]
      exact ih.below q hq
    · exact ih.low (Nat.lt_of_succ_lt_succ h)

/-- Settles O26: the levels of a TICK's runs are those at its start. -/
theorem tickEvictsAPrefixAtLow : Obligations.TickEvictsAPrefixAtLow := by
  intro s hinv
  obtain ⟨span, S⟩ := scanning_of_inv hinv
  obtain ⟨n, h⟩ := S.evictsPrefix
  refine ⟨_, n, rfl, h.records, fun r hr => ?_, fun r hr => ?_, h.low, h.nothing⟩
  · rw [← countedLevel_eq_nextLevel hinv (List.mem_of_mem_take hr)]
    exact h.reached r hr
  · rw [← countedLevel_eq_nextLevel hinv (List.mem_of_mem_drop hr)]
    exact h.below r hr

/-- Settles O27: the one run is evicted, and a scan with no run left has nothing held, so every held packet was drained. -/
theorem giveUpSkipsTheGapAndDrains : Obligations.GiveUpSkipsTheGapAndDrains := by
  intro s c hinv hruns hge
  have hmem : (⟨s.low, c⟩ : Run) ∈ s.tickRuns := by simp [hruns]
  have hlevel : countedLevel s ⟨s.low, c⟩ = (s.retry.get0 s.low).toNat + 1 := countedLevel_eq_nextLevel hinv hmem
  obtain ⟨span, S⟩ := scanning_of_inv hinv
  rw [hruns] at S
  obtain ⟨-, ⟨qs, hev⟩, n, hn⟩ | hbelow := S.evict_or_below
  · have hexec : exec .tick s = .next (s.scanRun ⟨s.low, c⟩) := by
      show Host.Outcome.next (s.scanRuns s.tickRuns) = _
      rw [hruns]
      rfl
    have hheld := hn.held_nil
    have hretry : (s.scanRun ⟨s.low, c⟩).retry = [] := by
      have g : Gaps _ _ _ (s.scanRun ⟨s.low, c⟩).retry := hn.gaps
      rw [hheld] at g
      exact g.retry_nil_of_held_nil
    have hlen := hev.length hinv.heldWf
    rw [hheld, List.length_nil, Nat.zero_add] at hlen
    refine ⟨_, qs, hexec, ?_, ?_, hlen, hev.were⟩
    · rw [← hheld, ← hretry]
      exact hev.eq
    · rw [hlen]
      exact List.length_pos_iff.mpr (held_ne_nil_of_mem_tickRuns hmem)
  · have := hbelow _ List.mem_cons_self
    omega

/-! ### What leaves the store -/

/-- A run is scanned: a held packet stays or is delivered. -/
theorem scanRun_keeps_or_delivers (r : Run) {s : State} {k : SeqNo} {p : Packet} (hk : s.held.get? k = some p) :
    (s.scanRun r).held.get? k = some p ∨ .deliver p ∈ newRecords s (s.scanRun r) := by
  obtain ⟨u, rfl, ⟨-, h⟩ | ⟨-, -, h⟩ | ⟨-, -, h⟩⟩ := scanRun_cases r s <;> rw [h]
  · by_cases hstart : r.start = s.low
    · obtain ⟨qs, hev⟩ := exists_evicted_giveUp (bumpAll s.retry r.slots) hstart
      by_cases hout : k ∈ slotsFrom (add16 s.low r.count) qs.length
      · obtain ⟨i, hi, rfl⟩ := mem_slotsFrom.mp hout
        rw [add16_add, hev.were i hi] at hk
        obtain rfl := Option.some.inj hk
        rw [hev.newRecords]
        exact .inr (List.mem_cons_of_mem _ (List.mem_map_of_mem (List.getElem_mem hi)))
      · exact .inl ((hev.held.get?_of_not_mem hout).trans hk)
    · rw [giveUp_of_start_ne (s := { s with retry := bumpAll s.retry r.slots }) hstart]
      exact .inl hk
  · exact .inl hk
  · exact .inl hk

theorem scanRuns_keeps_or_delivers (l : List Run) {s : State} {k : SeqNo} {p : Packet}
    (hk : s.held.get? k = some p) :
    (s.scanRuns l).held.get? k = some p ∨ .deliver p ∈ newRecords s (s.scanRuns l) := by
  induction l generalizing s with
  | nil => exact .inl hk
  | cons r l ih =>
    rw [newRecords_scanRuns_cons, List.mem_append]
    obtain hk | hdel := scanRun_keeps_or_delivers r hk
    · exact (ih hk).imp_right .inr
    · exact .inr (.inl hdel)

/-- Settles O28: run by run, by `scanRuns_frame` and `scanRuns_keeps_or_delivers`. -/
theorem tickRemovesOnlyWhatItDelivers : Obligations.TickRemovesOnlyWhatItDelivers := by
  intro s
  obtain ⟨hmode, hinit, hheld⟩ := scanRuns_frame s.tickRuns s
  exact ⟨_, rfl, hinit, hmode, hheld, fun k p hk => scanRuns_keeps_or_delivers s.tickRuns hk⟩

end Sys2Proof.Proofs
end

section
/-! Proofs about 41_sequencer.md R132 and R133: the records of every instruction read as a path of `low`, which is never
as long as the circle of sequence numbers, so that a delivered number stays behind `low`. -/

namespace Sys2Proof.Proofs

open Sys2Proof.Machine Sys2Proof.Laws

/-! ### Reading `low` off the records -/

theorem replayLow_append (low : SeqNo) (a b : List Record) :
    replayLow low (a ++ b) = (replayLow low a).bind (replayLow · b) := by
  induction a generalizing low with
  | nil => rfl
  | cons r a ih =>
    cases r <;> simp only [List.cons_append, replayLow, ih]
    case deliver p => split_ifs <;> rfl
    case evict f c => split_ifs <;> rfl

/-- A record that leaves `low`. -/
def LeavesLow : Record → Prop
  | .deliver _     => False
  | .evict _ _     => False
  | .input _ _     => True
  | .rrq _         => True
  | .release _ _   => True
  | .pass _        => True
  | .deltaResult _ => True

theorem leavesLow_of_isNote {r : Record} (h : IsNote r) : LeavesLow r := by
  cases r <;> trivial

theorem replayLow_of_leavesLow {rs : List Record} (h : ∀ r ∈ rs, LeavesLow r) (low : SeqNo) :
    replayLow low rs = some low ∧ passedBy rs = 0 := by
  induction rs with
  | nil => exact ⟨rfl, rfl⟩
  | cons r rs ih =>
    obtain ⟨hr, hrs⟩ := List.forall_mem_cons.mp h
    cases r
    case deliver p => exact hr.elim
    case evict f c => exact hr.elim
    all_goals exact ih hrs

/-- Packets delivered under the numbers from `low` on. -/
theorem replayLow_deliveries {low : SeqNo} {qs : List Packet}
    (h : ∀ i (hi : i < qs.length), qs[i].sn = add16 low i) :
    replayLow low (qs.map .deliver) = some (add16 low qs.length) ∧ passedBy (qs.map .deliver) = qs.length := by
  induction qs generalizing low with
  | nil => exact ⟨by simp [replayLow], rfl⟩
  | cons q qs ih =>
    have hq : q.sn = low := (h 0 (Nat.succ_pos _)).trans (add16_zero low)
    obtain ⟨hlow, hpassed⟩ := ih (low := add16 low 1) fun i hi => by
      rw [add16_add, Nat.add_comm]
      exact h (i + 1) (Nat.succ_lt_succ hi)
    refine ⟨?_, congrArg (· + 1) hpassed⟩
    rw [List.map_cons, replayLow, if_pos hq, hlow, add16_add, List.length_cons, Nat.add_comm]

/-- A delivered number is not the `low` the path ends at, unless the path goes all the way around. -/
theorem ne_sn_of_replayLow {rs : List Record} {low x : SeqNo} {p : Packet} (hx : replayLow low rs = some x)
    (hp : .deliver p ∈ rs) (hlen : passedBy rs ≤ 65535) : x ≠ p.sn := by
  obtain ⟨a, b, rfl⟩ := List.append_of_mem hp
  rw [replayLow_append, Option.bind_eq_some_iff] at hx
  obtain ⟨y, -, hy⟩ := hx
  rw [replayLow] at hy
  split_ifs at hy with hpy
  rw [passedBy_append, passedBy] at hlen
  rw [low_of_replayLow hy, add16_add, hpy]
  intro hback
  have := add16_inj (i := 1 + passedBy b) (j := 0) (by omega) (by omega) (hback.trans (add16_zero y).symm)
  omega

/-! ### Paths of `low` -/

/-- From `s` to `t` the records read as a path of `low`, which passes `n` numbers (R132). -/
def Follows (s t : State) (n : Nat) : Prop :=
  ∃ new, t.trace = s.trace ++ new ∧ replayLow s.low new = some t.low ∧ passedBy new = n

section Follows

variable {s t u : State} {m n : Nat}

theorem Follows.replayLow (h : Follows s t n) : replayLow s.low (newRecords s t) = some t.low := by
  obtain ⟨new, hnew, hlow, -⟩ := h
  rw [newRecords_eq hnew, hlow]

theorem Follows.passedBy (h : Follows s t n) : passedBy (newRecords s t) = n := by
  obtain ⟨new, hnew, -, hn⟩ := h
  rw [newRecords_eq hnew, hn]

theorem Follows.low (h : Follows s t n) : t.low = add16 s.low n := by
  rw [low_of_replayLow h.replayLow, h.passedBy]

theorem Follows.trans (h : Follows s t m) (k : Follows t u n) : Follows s u (m + n) := by
  obtain ⟨a, ha, hlow, rfl⟩ := h
  obtain ⟨b, hb, hlow', rfl⟩ := k
  refine ⟨a ++ b, by rw [hb, ha, List.append_assoc], ?_, passedBy_append a b⟩
  rw [replayLow_append, hlow]
  exact hlow'

/-- Records that leave `low`, with `low` left alone. -/
theorem follows_zero {new : List Record} (htrace : t.trace = s.trace ++ new) (hlow : t.low = s.low)
    (h : ∀ r ∈ new, LeavesLow r) : Follows s t 0 := by
  obtain ⟨hreplay, hpassed⟩ := replayLow_of_leavesLow h s.low
  exact ⟨new, htrace, hlow ▸ hreplay, hpassed⟩

theorem follows_releases (c : Reason) (htrace : t.trace = s.trace ++ s.heldReleases c) (hlow : t.low = s.low) :
    Follows s t 0 := by
  refine follows_zero htrace hlow fun r hr => ?_
  obtain ⟨e, -, rfl⟩ := List.mem_map.mp hr
  trivial

/-- DRAIN delivers under the numbers it finds the packets at, where packets are held under their own (R36). -/
theorem follows_of_drained {qs : List Packet} (hd : Drained s t qs) (hsn : ∀ k p, s.held.get? k = some p → p.sn = k) :
    Follows s t qs.length := by
  obtain ⟨-, -, -, hlow, -, -, -, htrace, -⟩ := hd.frame
  obtain ⟨hreplay, hpassed⟩ := replayLow_deliveries fun i hi => hsn _ _ (hd.were i hi)
  exact ⟨_, htrace, hlow ▸ hreplay, hpassed⟩

/-- An eviction's count field counts its slots modulo 65536, as `low` does. -/
theorem add16_toNat_ofNat (a : U16) (c : Nat) : add16 a (BitVec.ofNat 16 c).toNat = add16 a c := by
  apply BitVec.eq_of_toNat_eq
  simp [toNat_add16]

theorem Evicted.follows {c : Nat} {qs : List Packet} (h : Evicted s t c qs) (hc : c < 65536)
    (hsn : ∀ k p, s.held.get? k = some p → p.sn = k) : Follows s t (c + qs.length) := by
  obtain ⟨hreplay, hpassed⟩ := replayLow_deliveries (low := add16 s.low c) (qs := qs) fun i hi => by
    rw [add16_add]
    exact hsn _ _ (h.were i hi)
  refine ⟨_, by rw [h.eq], ?_, ?_⟩
  · rw [replayLow, if_pos rfl, add16_toNat_ofNat, hreplay, add16_add, h.low]
  · rw [passedBy, hpassed, BitVec.toNat_ofNat, Nat.mod_eq_of_lt hc, Nat.add_comm]

/-! ### How many numbers an instruction passes -/

/-- The predecessor of `low` is behind it. -/
theorem delta_pred_neg (r : DeltaRule) (low : SeqNo) : delta r (add16 low 65535) low < 0 := by
  have hl := low.isLt
  have hm := toNat_add16 low 65535
  cases r <;>
    simp only [delta, deltaShortest, deltaGuard, guardLift, guardBand, seqMod, hm] <;>
    split_ifs <;> omega

/-- Different numbers, none behind `low`, are fewer than there are numbers. -/
theorem length_le_of_not_behind {rule : DeltaRule} {low : SeqNo} {ks : List SeqNo} (hnd : ks.Nodup)
    (h : ∀ k ∈ ks, 0 ≤ delta rule k low) : ks.length ≤ 65535 := by
  have hsub : ks ⊆ slotsFrom low 65535 := fun k hk => by
    obtain ⟨j, hj, rfl⟩ := exists_add16 low k
    have hne : j ≠ 65535 := by
      rintro rfl
      exact absurd (h _ hk) (Int.not_le.mpr (delta_pred_neg rule low))
    exact mem_slotsFrom.mpr ⟨j, by omega, rfl⟩
  calc ks.length ≤ (slotsFrom low 65535).length := hnd.length_le_of_subset hsub
    _ = 65535 := length_slotsFrom ..

theorem inGap_of_mem_tickRuns (h : s.Inv) {k : SeqNo} (hk : k ∈ s.tickRuns.flatMap Run.slots) :
    InGap s.cfg.deltaRule s.low s.held k := by
  obtain ⟨r, hr, -⟩ := List.mem_flatMap.mp hk
  obtain ⟨hi, hhi, hmax, hruns⟩ := exists_farthest_held (held_ne_nil_of_mem_tickRuns hr)
  rw [hruns, flatMap_slots_missingRuns] at hk
  exact (mem_missing_iff_inGap hhi (h.ahead hi hhi) hmax k).mp hk

/-- The slots of a TICK's runs and the held keys are different numbers, none behind `low`. -/
theorem slots_add_held_le (h : s.Inv) : (s.tickRuns.flatMap Run.slots).length + s.held.length ≤ 65535 := by
  have hnd : (s.tickRuns.flatMap Run.slots ++ s.held.keys).Nodup := by
    refine List.nodup_append'.mpr ⟨nodup_slots_tickRuns s, nodup_keys_of_wf h.heldWf, fun k hk hk' => ?_⟩
    rw [mem_keys_iff_has, (inGap_of_mem_tickRuns h hk).1] at hk'
    exact absurd hk' (by decide)
  have hlen := length_le_of_not_behind (rule := s.cfg.deltaRule) (low := s.low) hnd fun k hk => by
    obtain hk | hk := List.mem_append.mp hk
    · exact (inGap_of_mem_tickRuns h hk).2.1
    · exact (h.ahead k ((mem_keys_iff_has _ _).mp hk)).le
  rwa [List.length_append, Store.keys, List.length_map] at hlen

/-- `low` and the held keys are different numbers, none behind `low`. -/
theorem held_length_lt (h : s.Inv) : 1 + s.held.length ≤ 65535 := by
  have hnd : (s.low :: s.held.keys).Nodup := by
    refine List.nodup_cons.mpr ⟨fun hk => ?_, nodup_keys_of_wf h.heldWf⟩
    rw [mem_keys_iff_has, h.lowMissing] at hk
    exact absurd hk (by decide)
  have hlen := length_le_of_not_behind (rule := s.cfg.deltaRule) (low := s.low) hnd fun k hk => by
    obtain rfl | hk := List.mem_cons.mp hk
    · exact (delta_self ..).ge
    · exact (h.ahead k ((mem_keys_iff_has _ _).mp hk)).le
  rwa [List.length_cons, Store.keys, List.length_map, Nat.add_comm] at hlen

/-- A run to be scanned is in the gaps, so its length fits the count field. -/
theorem Scanning.count_le {span : Nat} {r : Run} {l : List Run} (S : Scanning s span (r :: l)) : r.count ≤ 65535 := by
  have hnd := S.nodup
  calc r.count = r.slots.length := (length_slotsFrom ..).symm
    _ ≤ 65535 := length_le_of_not_behind (List.nodup_append'.mp (List.flatMap_cons ▸ hnd)).1 fun k hk =>
      (S.gaps.retryInGap k (has_bumpAll_of_mem hnd (List.mem_flatMap.mpr ⟨r, List.mem_cons_self, hk⟩))).2.1

/-- A scan passes its runs' slots and the held packets at most. -/
theorem Scanning.follows {span : Nat} {l : List Run} (S : Scanning s span l)
    (hsn : ∀ k p, s.held.get? k = some p → p.sn = k) :
    ∃ n ≤ (l.flatMap Run.slots).length + s.held.length, Follows s (s.scanRuns l) n := by
  refine Scanning.induction (P := fun s l => (∀ k p, s.held.get? k = some p → p.sn = k) →
    ∃ n ≤ (l.flatMap Run.slots).length + s.held.length, Follows s (s.scanRuns l) n) ?_ ?_ S hsn
  · intro s span l S hbelow _
    obtain ⟨hlow, -, new, hnew, hrrq⟩ := asked_scanRuns S.nodup hbelow
    refine ⟨0, Nat.zero_le _, follows_zero hnew hlow fun r hr => ?_⟩
    obtain ⟨m, rfl⟩ := hrrq r hr
    trivial
  · intro s span r l qs S _ hev ih hsn
    obtain ⟨n, hn, hrest⟩ := ih fun k p hk => hsn k p ((scanRun_frame r s).2.2 k p hk)
    have hfirst := hev.follows (Nat.lt_succ_of_le S.count_le) hsn
    have hlen := hev.length S.gaps.heldWf
    refine ⟨_, ?_, hfirst.trans hrest⟩
    rw [List.flatMap_cons, List.length_append, Run.slots, length_slotsFrom]
    omega

theorem follows_tick (h : s.Inv) : ∃ n ≤ 65535, Follows s (s.scanRuns s.tickRuns) n := by
  obtain ⟨span, S⟩ := scanning_of_inv h
  obtain ⟨n, hn, hf⟩ := S.follows fun k p hk => (h.packets k p hk).1
  exact ⟨n, hn.trans (slots_add_held_le h), hf⟩

/-! ### HANDLE and every instruction -/

/-- A packet at `low` moves it, by fewer numbers than there are. -/
theorem follows_place_of_eq_low (h : s.Inv) {p : Packet} (hp : p.sn = s.low) :
    ∃ n, 1 ≤ n ∧ n ≤ 65535 ∧ Follows s (s.place p) n := by
  rw [place_of_eq_low hp]
  obtain ⟨qs, hd⟩ := drain_spec (State.deliver p { s with retry := s.retry.del p.sn })
  have hfirst : Follows s (State.deliver p { s with retry := s.retry.del p.sn }) 1 :=
    ⟨[.deliver p], rfl, by simp [replayLow, hp], rfl⟩
  have hle : qs.length ≤ s.held.length := (length_le_of_drained hd :)
  have hcap := held_length_lt h
  exact ⟨1 + qs.length, by omega, by omega, hfirst.trans (follows_of_drained hd fun k q hk => (h.packets k q hk).1)⟩

theorem follows_place (h : s.Inv) (p : Packet) : ∃ n ≤ 65535, Follows s (s.place p) n := by
  obtain ⟨hp, -⟩ | ⟨-, -, heq⟩ | ⟨-, -, -, heq⟩ | ⟨-, -, -, heq⟩ := place_cases p s
  · obtain ⟨n, -, hn, hf⟩ := follows_place_of_eq_low h hp
    exact ⟨n, hn, hf⟩
  all_goals refine ⟨0, Nat.zero_le _, heq ▸ ?_⟩
  · exact follows_zero (new := [.release .stale (.packet p)]) rfl rfl (by simp [LeavesLow])
  · exact follows_zero (new := [.release .duplicate (.packet p)]) rfl rfl (by simp [LeavesLow])
  · exact follows_zero (List.append_nil _).symm rfl (by simp)

theorem follows_input (s : State) (sn : SeqNo) (rx : Bool) : Follows s (s.emit (.input sn rx)) 0 :=
  follows_zero rfl rfl (by simp [LeavesLow])

theorem follows_handle (h : s.Inv) (hinit : s.initialized = true) (p : Packet) :
    ∃ n ≤ 65535, Follows s (s.handle p) n := by
  obtain ⟨n, hn, hf⟩ := follows_place (inv_emit h (.input p.sn p.rx)) p
  rw [handle_of_initialized hinit]
  exact ⟨0 + n, by omega, (follows_input ..).trans hf⟩

/-- Within a session every instruction's records are a path of `low`, not all the way around (R132). -/
theorem follows_of_exec {i : Instr} (h : s.Inv) (hs : s.initialized = true) (hx : exec i s = .next t)
    (ht : t.initialized = true) : ∃ n ≤ 65535, Follows s t n := by
  cases effect_of_exec hx with
  | note hnote => exact ⟨0, Nat.zero_le _, follows_zero rfl rfl (by simpa using leavesLow_of_isNote hnote)⟩
  | handle => exact follows_handle h hs _
  | decline => exact absurd ht Bool.false_ne_true
  | tick => exact follows_tick h
  | flush => exact absurd ht Bool.false_ne_true
  | close => exact ⟨0, Nat.zero_le _, follows_releases .closed (closeAll_trace s) rfl⟩
  | rerequest => exact ⟨0, Nat.zero_le _, follows_zero rfl rfl (by simp [LeavesLow])⟩

end Follows

/-- Settles O53: by `follows_of_exec`, through the operations an instruction is made of. -/
theorem deliveriesFollowLow : Obligations.DeliveriesFollowLow := by
  intro i s t hinv hs hx ht
  obtain ⟨n, -, hf⟩ := follows_of_exec hinv hs hx ht
  exact hf.replayLow

/-! ### Sequences of events -/

section Session

variable {s t : State}

theorem kept_afterEvents (es : List Instr) (s : State) : Kept s (s.afterEvents es) := by
  induction es generalizing s with
  | nil => exact Kept.refl s
  | cons i es ih =>
    obtain ⟨t, hx⟩ := exists_exec i s
    rw [afterEvents_cons hx]
    exact (kept_of_exec hx).trans (ih t)

theorem newRecords_afterEvents_cons {i : Instr} (hx : exec i s = .next t) (es : List Instr) :
    newRecords s (s.afterEvents (i :: es)) = newRecords s t ++ newRecords t (t.afterEvents es) := by
  rw [afterEvents_cons hx]
  exact newRecords_append (kept_of_exec hx) (kept_afterEvents es t)

/-- Nothing leads back from CLOSED to RUN. -/
theorem mode_run_of_exec {i : Instr} (hx : exec i s = .next t) (ht : t.mode = .run) : s.mode = .run := by
  by_cases hi : i = .close
  · subst hi
    obtain rfl := Host.Outcome.next.inj hx
    exact absurd ht (by simp)
  · rw [← exec_mode hx hi, ht]

/-- Throughout a session the invariant holds and the records are one path of `low`. -/
theorem session_follows {es : List Instr} (h : s.Inv) (hstay : s.StaysInStream es) :
    (s.afterEvents es).Inv ∧ ∃ n, Follows s (s.afterEvents es) n := by
  induction es generalizing s with
  | nil => exact ⟨h, 0, follows_zero (List.append_nil _).symm rfl (by simp)⟩
  | cons i es ih =>
    obtain ⟨t, hx⟩ := exists_exec i s
    obtain ⟨hmode, hinit⟩ := lifecycle_eq_stream.mp (StaysInStream.start hstay)
    have htail := StaysInStream.tail hstay hx
    obtain ⟨-, htinit⟩ := lifecycle_eq_stream.mp (StaysInStream.start htail)
    obtain ⟨m, -, hf⟩ := follows_of_exec h hinit hx htinit
    obtain ⟨hinv, n, hf'⟩ := ih (inv_exec h hmode hx) htail
    rw [afterEvents_cons hx]
    exact ⟨hinv, m + n, hf.trans hf'⟩

/-- An instruction that delivers a packet leaves `low` past its number. -/
theorem low_ne_sn_of_deliver {i : Instr} {p : Packet} (h : s.Inv) (hx : exec i s = .next t)
    (ht : t.initialized = true) (hp : .deliver p ∈ newRecords s t) : t.low ≠ p.sn := by
  cases hs : s.initialized with
  | true =>
    obtain ⟨n, hn, hf⟩ := follows_of_exec h hs hx ht
    exact ne_sn_of_replayLow hf.replayLow hp (hf.passedBy ▸ hn)
  | false =>
    obtain ⟨q, -, hlow, htrace⟩ := low_and_records_of_start h hs ht hx
    obtain rfl : p = q := by simpa [newRecords_eq htrace] using hp
    rw [hlow]
    intro hback
    exact absurd (add16_inj (by decide) (by decide) (hback.trans (add16_zero p.sn).symm)) (by decide)

theorem StaysInStream.final {es : List Instr} (h : s.StaysInStream es) : (s.afterEvents es).lifecycle = .stream := by
  simpa using h es.length le_rfl

end Session

/-- `low` draws away from a number behind it by as many steps as it takes, short of the whole circle. -/
theorem toNat_add16_sub {a b : U16} {n : Nat} (h : (a - b).toNat + n < 65536) :
    (add16 a n - b).toNat = (a - b).toNat + n := by
  have ha := a.isLt
  have hb := b.isLt
  rw [BitVec.toNat_sub] at h ⊢
  rw [BitVec.toNat_sub, toNat_add16]
  omega

theorem toNat_sub_pos {a b : U16} (h : a ≠ b) : 1 ≤ (a - b).toNat := by
  have ha := a.isLt
  have hb := b.isLt
  have hne : a.toNat ≠ b.toNat := fun heq => h (BitVec.eq_of_toNat_eq heq)
  rw [BitVec.toNat_sub]
  omega

/-- Settles O54: `low` stood past the number and has drawn away by what was passed since, which is less than half the
circle. -/
theorem deliveredOnceIsStaleAfterwards : Obligations.DeliveredOnceIsStaleAfterwards := by
  rintro i es s t u p rx B hinv hrule hx hp hstay rfl hpast hfit
  obtain ⟨htmode, htinit⟩ := lifecycle_eq_stream.mp (StaysInStream.start hstay)
  have htinv := inv_exec hinv (mode_run_of_exec hx htmode) hx
  obtain ⟨huinv, n, hf⟩ := session_follows htinv hstay
  obtain ⟨-, huinit⟩ := lifecycle_eq_stream.mp (StaysInStream.final hstay)
  have hurule : (t.afterEvents es).cfg.deltaRule = .shortest := by
    rw [(kept_afterEvents es t).cfg, (kept_of_exec hx).cfg, hrule]
  have hpos := toNat_sub_pos (low_ne_sn_of_deliver hinv hx htinit hp)
  have haway : ((t.afterEvents es).low - p.sn).toNat = (t.low - p.sn).toNat + n := by
    rw [hf.low, toNat_add16_sub]
    rw [hf.passedBy] at hpast
    omega
  rw [hf.passedBy] at hpast ⊢
  obtain ⟨hstale, hbehind⟩ := stalePacketIsReleased _ p.sn rx B hfit huinit
  replace hbehind := (hbehind hurule).mpr (.inl ⟨by omega, by omega⟩)
  obtain ⟨hexec, hretry⟩ := hstale (fun heq => by simp [heq] at hbehind) hbehind
  refine ⟨haway, ?_⟩
  rw [hexec, hretry huinv]

end Sys2Proof.Proofs
end

section
/-! Proofs about 70_reset_and_hazards.md R205, the bound: while `low` stays, a TICK adds 1 to the count of its gap, and no
other event touches it. -/

namespace Sys2Proof.Proofs

open Sys2Proof.Machine Sys2Proof.Laws

section Gap

variable {s t : State}

theorem get0_lt_giveup (h : s.Inv) (k : SeqNo) : (s.retry.get0 k).toNat < s.cfg.giveup := by
  obtain ⟨-, hpos, -⟩ := (configOk_iff _).mp h.config
  rw [Store.get0]
  cases hc : s.retry.get? k with
  | none => exact hpos
  | some c => exact (h.counts k c hc).2

/-- Something is held in a session only. -/
theorem lifecycle_of_held (h : s.Inv) (hheld : s.held ≠ []) : s.mode = .run ∧ s.initialized = true := by
  constructor
  · cases hmode : s.mode with
    | run => rfl
    | closed => exact absurd (h.emptyAfter hmode).1 hheld
  · cases hinit : s.initialized with
    | true => rfl
    | false => exact absurd (h.emptyBefore hinit).1 hheld

/-! ### A TICK -/

theorem passedBy_ge_of_evict {rs : List Record} {f c : U16} (h : .evict f c ∈ rs) : c.toNat ≤ passedBy rs := by
  obtain ⟨a, b, rfl⟩ := List.append_of_mem h
  rw [passedBy_append, passedBy]
  omega

theorem Follows.low_ne {n : Nat} (hf : Follows s t n) (hpos : 1 ≤ n) (hn : n ≤ 65535) : t.low ≠ s.low := by
  intro hback
  have := add16_inj (by omega) (by decide) (hf.low.symm.trans (hback.trans (add16_zero _).symm))
  omega

/-- What a TICK does to the gap at `low`, by whether its count reaches GIVEUP. -/
theorem tick_gap_cases (h : s.Inv) (hheld : s.held ≠ []) :
    (s.cfg.giveup ≤ (s.retry.get0 s.low).toNat + 1 ∧
      ∃ c : Nat, 1 ≤ c ∧ c ≤ 65535 ∧ .evict s.low (BitVec.ofNat 16 c) ∈ newRecords s (s.scanRuns s.tickRuns)) ∨
    ((s.retry.get0 s.low).toNat + 1 < s.cfg.giveup ∧ (s.scanRuns s.tickRuns).low = s.low ∧
      (s.scanRuns s.tickRuns).held = s.held ∧
      ((s.scanRuns s.tickRuns).retry.get0 s.low).toNat = (s.retry.get0 s.low).toNat + 1) := by
  obtain ⟨c, rest, hruns⟩ := tickRuns_head h hheld
  have hmem : (⟨s.low, c⟩ : Run) ∈ s.tickRuns := by simp [hruns]
  have hlevel : countedLevel s ⟨s.low, c⟩ = (s.retry.get0 s.low).toNat + 1 := countedLevel_eq_nextLevel h hmem
  obtain ⟨span, S⟩ := scanning_of_inv h
  have hpos := S.countPos _ hmem
  rw [hruns] at S
  obtain ⟨hge, ⟨qs, hev⟩, -⟩ | hbelow := S.evict_or_below
  · refine .inl ⟨hlevel ▸ hge, c, hpos, S.count_le, ?_⟩
    rw [hruns, newRecords_scanRuns_cons, hev.newRecords]
    simp
  · have hlt : (s.retry.get0 s.low).toNat + 1 < s.cfg.giveup := hlevel ▸ hbelow _ List.mem_cons_self
    obtain ⟨hlow, hsame, -⟩ := asked_scanRuns S.nodup hbelow
    rw [← hruns] at hlow hsame
    refine .inr ⟨hlt, hlow, hsame, ?_⟩
    rw [Store.get0, tick_get?_of_mem h hmem (start_mem_slots hmem), if_neg (Nat.not_le.mpr hlt), Option.getD_some,
      toNat_get0_add_one h]

/-- The TICK that brings the count to GIVEUP evicts the gap, and `low` moves. -/
theorem tick_evicts (h : s.Inv) (hheld : s.held ≠ []) (hge : s.cfg.giveup ≤ (s.retry.get0 s.low).toNat + 1) :
    (∃ c : U16, .evict s.low c ∈ newRecords s (s.scanRuns s.tickRuns)) ∧ (s.scanRuns s.tickRuns).low ≠ s.low := by
  obtain ⟨-, c, hpos, hle, hev⟩ | ⟨hlt, -⟩ := tick_gap_cases h hheld
  · obtain ⟨n, hn, hf⟩ := follows_tick h
    have hpassed := passedBy_ge_of_evict hev
    rw [hf.passedBy, BitVec.toNat_ofNat, Nat.mod_eq_of_lt (Nat.lt_succ_of_le hle)] at hpassed
    exact ⟨⟨_, hev⟩, hf.low_ne (hpos.trans hpassed) hn⟩
  · omega

theorem tick_counts (h : s.Inv) (hheld : s.held ≠ []) (hlt : (s.retry.get0 s.low).toNat + 1 < s.cfg.giveup) :
    (s.scanRuns s.tickRuns).low = s.low ∧ (s.scanRuns s.tickRuns).held = s.held ∧
      ((s.scanRuns s.tickRuns).retry.get0 s.low).toNat = (s.retry.get0 s.low).toNat + 1 := by
  obtain ⟨hge, -⟩ | ⟨-, hsame⟩ := tick_gap_cases h hheld
  · omega
  · exact hsame

/-! ### The other events -/

theorem set_ne_nil {α : Type} (S : Store α) (k : SeqNo) (v : α) : S.set k v ≠ [] := by
  intro hnil
  have := get?_set_self S k v
  simp [hnil] at this

/-- A packet under another number than `low` leaves the gap at `low` as it is. -/
theorem place_of_ne_low {p : Packet} (hheld : s.held ≠ []) (hne : p.sn ≠ s.low) :
    (s.place p).low = s.low ∧ (s.place p).held ≠ [] ∧ (s.place p).retry.get0 s.low = s.retry.get0 s.low := by
  have hcount : (s.place p).retry.get0 s.low = s.retry.get0 s.low := by
    rw [place_retry, Store.get0, get?_del_ne _ _ _ (Ne.symm hne), Store.get0]
  obtain ⟨h, -⟩ | ⟨-, -, h⟩ | ⟨-, -, -, h⟩ | ⟨-, -, -, h⟩ := place_cases p s
  · exact absurd h hne
  · exact ⟨by rw [h]; rfl, by rwa [h], hcount⟩
  · exact ⟨by rw [h]; rfl, by rwa [h], hcount⟩
  · exact ⟨by rw [h], by rw [h]; exact set_ne_nil _ _ _, hcount⟩

/-- An event of the session that is no TICK, and no packet under `low`, leaves the gap at `low` as it is. -/
theorem exec_of_not_filled {i : Instr} (h : s.Inv) (hheld : s.held ≠ []) (hx : exec i s = .next t) (hi : i ≠ .tick)
    (ht : t.lifecycle = .stream) (hnot : ∀ p, p.payload.length ≤ s.cfg.maxDgram → t = s.handle p → p.sn ≠ s.low) :
    t.low = s.low ∧ t.held ≠ [] ∧ t.retry.get0 s.low = s.retry.get0 s.low := by
  obtain ⟨hmode, hinit⟩ := lifecycle_eq_stream.mp ht
  cases effect_of_exec hx with
  | note => exact ⟨rfl, hheld, rfl⟩
  | @handle _ p hfit =>
    rw [handle_of_initialized (lifecycle_of_held h hheld).2]
    exact place_of_ne_low (s := s.emit (.input p.sn p.rx)) hheld (hnot p hfit rfl)
  | decline => exact absurd hinit Bool.false_ne_true
  | tick => exact absurd rfl hi
  | flush => exact absurd hinit Bool.false_ne_true
  | close => exact absurd hmode (by simp)
  | rerequest => exact ⟨rfl, hheld, rfl⟩

theorem input_mem_newRecords_handle {p : Packet} (hfit : p.payload.length ≤ s.cfg.maxDgram) :
    .input p.sn p.rx ∈ newRecords s (s.handle p) := by
  obtain ⟨t, rest, hx, htrace, -⟩ := handleEmitsInThenReleaseOrDeliveries s p.sn p.rx p.payload hfit
  rw [exec_pkt_of_fits hfit] at hx
  obtain rfl := Host.Outcome.next.inj hx
  rw [newRecords_eq htrace]
  exact List.mem_cons_self

/-- One event of the session, no packet under `low`: the gap at `low` is evicted by a TICK, or it stays, its count
counting the TICKs. -/
theorem gap_step {i : Instr} (h : s.Inv) (hheld : s.held ≠ []) (hx : exec i s = .next t) (ht : t.lifecycle = .stream)
    (hnot : ∀ p, p.payload.length ≤ s.cfg.maxDgram → t = s.handle p → p.sn ≠ s.low) :
    (s.cfg.giveup ≤ (s.retry.get0 s.low).toNat + [i].count .tick ∧ (∃ c : U16, .evict s.low c ∈ newRecords s t) ∧
      t.low ≠ s.low) ∨
    (t.low = s.low ∧ t.held ≠ [] ∧
      (t.retry.get0 s.low).toNat = (s.retry.get0 s.low).toNat + [i].count .tick) := by
  by_cases hi : i = .tick
  · subst hi
    obtain rfl := Host.Outcome.next.inj hx
    rw [List.count_singleton_self]
    obtain hlt | hge := Nat.lt_or_ge ((s.retry.get0 s.low).toNat + 1) s.cfg.giveup
    · obtain ⟨hlow, hsame, hcount⟩ := tick_counts h hheld hlt
      exact .inr ⟨hlow, hsame ▸ hheld, hcount⟩
    · exact .inl ⟨hge, tick_evicts h hheld hge⟩
  · obtain ⟨hlow, hsome, hcount⟩ := exec_of_not_filled h hheld hx hi ht hnot
    rw [List.count_cons_of_ne hi, List.count_nil, hcount]
    exact .inr ⟨hlow, hsome, rfl⟩

/-! ### GIVEUP TICKs -/

theorem afterTicks_succ (n : Nat) (s : State) : s.afterTicks (n + 1) = (s.scanRuns s.tickRuns).afterTicks n := rfl

theorem newRecords_afterTicks_succ (n : Nat) (s : State) :
    newRecords s (s.afterTicks (n + 1)) =
      newRecords s (s.scanRuns s.tickRuns) ++
        newRecords (s.scanRuns s.tickRuns) ((s.scanRuns s.tickRuns).afterTicks n) :=
  newRecords_afterEvents_cons rfl _

/-- The gap at `low` lasts until its count is at GIVEUP, and then `low` moves on. -/
theorem gap_ends_after_ticks (n : Nat) (h : s.Inv) (hheld : s.held ≠ [])
    (hn : n + (s.retry.get0 s.low).toNat = s.cfg.giveup) :
    (∃ c : U16, .evict s.low c ∈ newRecords s (s.afterTicks n)) ∧ (s.afterTicks n).low ≠ s.low ∧
      ∀ m, m < n → (s.afterTicks m).low = s.low := by
  induction n generalizing s with
  | zero =>
    have := get0_lt_giveup h s.low
    omega
  | succ n ih =>
    obtain rfl | hpos := Nat.eq_zero_or_pos n
    · obtain ⟨⟨c, hc⟩, hlow⟩ := tick_evicts h hheld (by omega)
      refine ⟨⟨c, hc⟩, hlow, fun m hm => ?_⟩
      obtain rfl := Nat.lt_one_iff.mp hm
      rfl
    · obtain ⟨hlow, hsame, hcount⟩ := tick_counts h hheld (by omega)
      have hcfg := (kept_scanRuns s.tickRuns s).cfg
      obtain ⟨⟨c, hc⟩, hmoved, hstays⟩ := ih (inv_tick h (lifecycle_of_held h hheld).1) (hsame ▸ hheld)
        (by rw [hlow, hcount, hcfg]; omega)
      rw [hlow] at hc hmoved hstays
      refine ⟨⟨c, ?_⟩, hmoved, fun m hm => ?_⟩
      · rw [newRecords_afterTicks_succ]
        exact List.mem_append_right _ hc
      · cases m with
        | zero => rfl
        | succ m => exact hstays m (Nat.lt_of_succ_lt_succ hm)

/-- The same with any other events of the session in between, so long as no packet under `low` comes. -/
theorem gap_ends_after_events (es : List Instr) (h : s.Inv) (hheld : s.held ≠ []) (hstay : s.StaysInStream es)
    (hnot : ∀ rx, .input s.low rx ∉ newRecords s (s.afterEvents es)) :
    ((s.retry.get0 s.low).toNat + es.count .tick < s.cfg.giveup →
      (s.afterEvents es).low = s.low ∧ (s.afterEvents es).held ≠ [] ∧
        ((s.afterEvents es).retry.get0 s.low).toNat = (s.retry.get0 s.low).toNat + es.count .tick) ∧
    (s.cfg.giveup ≤ (s.retry.get0 s.low).toNat + es.count .tick →
      ∃ c : U16, .evict s.low c ∈ newRecords s (s.afterEvents es)) := by
  induction es generalizing s with
  | nil =>
    have hlt := get0_lt_giveup h s.low
    exact ⟨fun _ => ⟨rfl, hheld, rfl⟩, fun hge => absurd hlt (Nat.not_lt.mpr hge)⟩
  | cons i es ih =>
    obtain ⟨t, hx⟩ := exists_exec i s
    have htail := StaysInStream.tail hstay hx
    have htinv := inv_exec h (lifecycle_of_held h hheld).1 hx
    have hcfg := (kept_of_exec hx).cfg
    rw [newRecords_afterEvents_cons hx] at hnot ⊢
    have hfirst : ∀ p, p.payload.length ≤ s.cfg.maxDgram → t = s.handle p → p.sn ≠ s.low := by
      rintro p hfit rfl hp
      have hin := input_mem_newRecords_handle hfit
      exact hnot p.rx (List.mem_append_left _ (hp ▸ hin))
    have hcount : (i :: es).count .tick = [i].count .tick + es.count .tick := List.count_append (l₁ := [i])
    rw [hcount, ← Nat.add_assoc]
    obtain ⟨hge, ⟨c, hc⟩, -⟩ | ⟨hlow, hsome, hsum⟩ := gap_step h hheld hx (StaysInStream.start htail) hfirst
    · exact ⟨fun hlt => by omega, fun _ => ⟨c, List.mem_append_left _ hc⟩⟩
    · obtain ⟨hlasts, hends⟩ := ih htinv hsome htail fun rx hmem => by
        rw [hlow] at hmem
        exact hnot rx (List.mem_append_right _ hmem)
      rw [hlow, hsum, hcfg] at hlasts hends
      rw [afterEvents_cons hx]
      exact ⟨hlasts, fun hge => (hends hge).imp fun c hc => List.mem_append_right _ hc⟩

/-- Settles O29: GIVEUP is as many TICKs away as the count of `low` is short of it. -/
theorem gapEndsWithinGiveupTicks : Obligations.GapEndsWithinGiveupTicks := by
  refine ⟨fun s hinv hheld => ?_, ?_⟩
  · have hlt := get0_lt_giveup hinv s.low
    exact ⟨s.cfg.giveup - (s.retry.get0 s.low).toNat, by omega,
      gap_ends_after_ticks _ hinv hheld (by omega)⟩
  · rintro s t es hinv hheld hstay rfl hnot
    exact gap_ends_after_events es hinv hheld hstay hnot

end Gap

end Sys2Proof.Proofs
end

section
/-! Proofs about 70_reset_and_hazards.md R205 and 41_sequencer.md R135, the liveness claim: in a fair run every TICK that
is appended is performed, so a gap that stayed for ever would be counted past any number. -/

namespace Sys2Proof.Proofs

open Sys2Proof.Machine Sys2Proof.Laws

/-! ### What the host does between two steps -/

/-- From `s` to `t` the host agents have moved and the block has not: events come in behind those that wait, records are
taken, and nothing else is written. -/
structure HostMoved (s t : State) : Prop where
  cfg   : t.cfg = s.cfg
  mode  : t.mode = s.mode
  held  : t.held = s.held
  low   : t.low = s.low
  retry : t.retry = s.retry
  trace : t.trace = s.trace
  queue : ∃ q, t.queue = s.queue ++ q
  taken : s.taken ≤ t.taken

theorem HostMoved.refl (s : State) : HostMoved s s := ⟨rfl, rfl, rfl, rfl, rfl, rfl, ⟨[], by simp⟩, le_rfl⟩

theorem HostMoved.trans {s t u : State} (h : HostMoved s t) (k : HostMoved t u) : HostMoved s u := by
  obtain ⟨q, hq⟩ := h.queue
  obtain ⟨q', hq'⟩ := k.queue
  exact ⟨k.cfg.trans h.cfg, k.mode.trans h.mode, k.held.trans h.held, k.low.trans h.low, k.retry.trans h.retry,
    k.trace.trans h.trace, ⟨q ++ q', by rw [hq', hq, List.append_assoc]⟩, h.taken.trans k.taken⟩

theorem hostMoved_of_move {m : Move} {s t : State} (hm : m ≠ .step) (h : s.move m = some t) : HostMoved s t := by
  obtain ⟨rfl, -⟩ | ⟨e, -, -, rfl⟩ | ⟨-, -, rfl⟩ | ⟨b, -, rfl⟩ := move_cases h
  · exact absurd rfl hm
  · exact ⟨rfl, rfl, rfl, rfl, rfl, rfl, ⟨[e], rfl⟩, le_rfl⟩
  · exact ⟨rfl, rfl, rfl, rfl, rfl, rfl, ⟨[], by simp⟩, Nat.le_succ _⟩
  · exact ⟨rfl, rfl, rfl, rfl, rfl, rfl, ⟨[], by simp⟩, le_rfl⟩

/-- Without new records, a stall that is over stays over. -/
theorem HostMoved.not_stalled {s t : State} (h : HostMoved s t) (hs : s.stalled = false) : t.stalled = false := by
  rw [State.stalled, List.any_eq_false] at hs ⊢
  rw [h.trace]
  exact fun r hr => hs r (List.drop_subset_drop_left _ h.taken hr)

section Run

variable {σ : Nat → State} {μ : Nat → Move} (hrun : IsRun σ μ)

include hrun

theorem step_of_run {n : Nat} (hm : μ n = .step) : step (σ n) = .next (σ (n + 1)) := by
  obtain ⟨-, hstep⟩ | ⟨e, he, -⟩ | ⟨he, -⟩ | ⟨b, he, -⟩ := move_cases (hrun n)
  · exact hstep
  all_goals simp [hm] at he

theorem run_inv (h0 : (σ 0).Inv) (n : Nat) : (σ n).Inv := by
  induction n with
  | zero => exact h0
  | succ n ih =>
    by_cases hm : μ n = .step
    · exact stepKeepsTheInvariant _ _ ih (step_of_run hrun hm)
    · exact inv_of_hostMove hm ih (hrun n)

theorem hostMoved_of_no_step {a b : Nat} (hab : a ≤ b) (hno : ∀ m, a ≤ m → m < b → μ m ≠ .step) :
    HostMoved (σ a) (σ b) := by
  induction b, hab using Nat.le_induction with
  | base => exact .refl _
  | succ b hab ih =>
    have hlast := hostMoved_of_move (hno b hab (Nat.lt_succ_self b)) (hrun b)
    exact (ih fun m ha hb => hno m ha (Nat.lt_succ_of_lt hb)).trans hlast

/-! ### A stall ends -/

/-- While the block does not step and the consumer takes, the records left to take run out. -/
theorem exists_not_stalled (hinv : ∀ n, (σ n).Inv) (hconsumer : ConsumerFair σ μ) {a : Nat}
    (hno : ∀ m, a ≤ m → μ m ≠ .step) : ∃ m, a ≤ m ∧ (σ m).stalled = false := by
  by_contra hnever
  have hstalled : ∀ m, a ≤ m → (σ m).stalled = true := fun m hm => by
    by_contra hst
    exact hnever ⟨m, hm, by simpa using hst⟩
  have htakes : ∀ k, ∃ m, a ≤ m ∧ k ≤ (σ m).taken := by
    intro k
    induction k with
    | zero => exact ⟨a, le_rfl, Nat.zero_le _⟩
    | succ k ih =>
      obtain ⟨m, hm, hk⟩ := ih
      obtain ⟨m', hm', htake⟩ := hconsumer m fun x hx => hstalled x (hm.trans hx)
      have hmoved := hostMoved_of_no_step hrun hm' fun x hx _ => hno x (hm.trans hx)
      refine ⟨m' + 1, by omega, ?_⟩
      obtain ⟨he, -⟩ | ⟨e, he, -⟩ | ⟨-, -, hnext⟩ | ⟨b, he, -⟩ := move_cases (hrun m')
      case inr.inr.inl =>
        rw [hnext]
        exact Nat.succ_le_succ (hk.trans hmoved.taken)
      all_goals simp [htake] at he
  obtain ⟨m, hm, hk⟩ := htakes ((σ a).trace.length + 1)
  have hle := (hinv m).takenLe
  rw [(hostMoved_of_no_step hrun hm fun x hx _ => hno x hx).trace] at hle
  omega

/-! ### The block steps -/

theorem exists_step (hinv : ∀ n, (σ n).Inv) (hlegal : LegalEvents σ) (hblock : BlockFair σ μ)
    (hconsumer : ConsumerFair σ μ) {a : Nat} (hmode : (σ a).mode = .run) (hq : (σ a).queue ≠ []) :
    ∃ m, a ≤ m ∧ μ m = .step := by
  by_contra hnever
  have hno : ∀ m, a ≤ m → μ m ≠ .step := fun m hm heq => hnever ⟨m, hm, heq⟩
  obtain ⟨b, hab, hst⟩ := exists_not_stalled hrun hinv hconsumer hno
  obtain ⟨m, hm, heq⟩ := hblock b fun m hm => by
    have hmoved := hostMoved_of_no_step hrun (hab.trans hm) fun x hx _ => hno x hx
    have hst' := (hostMoved_of_no_step hrun hm fun x hx _ => hno x (hab.trans hx)).not_stalled hst
    obtain ⟨q, hq'⟩ := hmoved.queue
    have hne : (σ m).queue ≠ [] := by simp [hq', hq]
    have hstop : (σ m).stop = none := stop_eq_none.mpr
      ⟨(hinv m).config, startOk_of_inv (hinv m), hmoved.mode.trans hmode, hne, hst'⟩
    obtain ⟨e, rest, heq⟩ := List.exists_cons_of_ne_nil hne
    obtain ⟨i, hd⟩ := hlegal m e (by simp [heq])
    exact exists_step_of_event hstop heq hd
  exact hno m (hab.trans hm) heq

/-- The next step, with only the host's moves before it. -/
theorem exists_next_step (hinv : ∀ n, (σ n).Inv) (hlegal : LegalEvents σ) (hblock : BlockFair σ μ)
    (hconsumer : ConsumerFair σ μ) {a : Nat} (hmode : (σ a).mode = .run) (hq : (σ a).queue ≠ []) :
    ∃ m, a ≤ m ∧ μ m = .step ∧ HostMoved (σ a) (σ m) := by
  have hex := exists_step hrun hinv hlegal hblock hconsumer hmode hq
  obtain ⟨ham, hstep⟩ := Nat.find_spec hex
  refine ⟨Nat.find hex, ham, hstep, hostMoved_of_no_step hrun ham fun x hx hlt heq => ?_⟩
  exact Nat.find_min hex hlt ⟨hx, heq⟩

/-- While the block runs, an event that waits is performed: the ones before it leave the queue one by one. -/
theorem exists_step_taking (hinv : ∀ n, (σ n).Inv) (hlegal : LegalEvents σ) (hblock : BlockFair σ μ)
    (hconsumer : ConsumerFair σ μ) {e : Slot} (pre : List Slot) {post : List Slot} {a : Nat}
    (hmode : ∀ m, a ≤ m → (σ m).mode = .run) (hq : (σ a).queue = pre ++ e :: post) :
    ∃ m, a ≤ m ∧ μ m = .step ∧ ∃ rest, (σ m).queue = e :: rest := by
  induction pre generalizing a post with
  | nil =>
    obtain ⟨m, ham, hstep, hmoved⟩ :=
      exists_next_step hrun hinv hlegal hblock hconsumer (hmode a le_rfl) (by simp [hq])
    obtain ⟨q, hq'⟩ := hmoved.queue
    exact ⟨m, ham, hstep, post ++ q, by rw [hq', hq]; rfl⟩
  | cons e' pre ih =>
    obtain ⟨m, ham, hstep, hmoved⟩ :=
      exists_next_step hrun hinv hlegal hblock hconsumer (hmode a le_rfl) (by simp [hq])
    obtain ⟨q, hq'⟩ := hmoved.queue
    obtain ⟨d, i, hhead, -⟩ := stepTakesTheHeadOfTheQueue _ _ (step_of_run hrun hstep)
    rw [hq', hq, List.cons_append, List.cons_append, List.cons.injEq, List.append_assoc] at hhead
    obtain ⟨m', hm', h⟩ := ih (fun x hx => hmode x (by omega)) hhead.2.symm
    exact ⟨m', by omega, h⟩

end Run

/-! ### A step in a gap -/

theorem handle_low_ne {s : State} {p : Packet} (h : s.Inv) (hinit : s.initialized = true) (hp : p.sn = s.low) :
    (s.handle p).low ≠ s.low := by
  rw [handle_of_initialized hinit]
  obtain ⟨n, hpos, hn, hf⟩ := follows_place_of_eq_low (inv_emit h (.input p.sn p.rx)) hp
  exact hf.low_ne hpos hn

/-- A step that leaves `low` and the session leaves the gap, and counts it when the event is a TICK. -/
theorem step_in_gap {s t : State} (h : s.Inv) (hheld : s.held ≠ []) (hstep : step s = .next t) (hlow : t.low = s.low)
    (ht : t.lifecycle = .stream) :
    t.held ≠ [] ∧ (s.retry.get0 s.low).toNat ≤ (t.retry.get0 s.low).toNat ∧
      (∀ rest, s.queue = slotTick :: rest → (s.retry.get0 s.low).toNat + 1 ≤ (t.retry.get0 s.low).toNat) := by
  obtain ⟨-, e, rest, i, u, hq, hd, hx, rfl⟩ := step_next hstep
  have hinv := inv_takeEvent h rest
  obtain ⟨-, hinit⟩ := lifecycle_of_held h hheld
  rw [handOver_low] at hlow
  rw [handOver_held, handOver_retry]
  obtain ⟨-, -, hmoved⟩ | ⟨-, hsome, hcount⟩ := gap_step hinv hheld hx
      ((lifecycle_congr (handOver_mode u).symm (handOver_initialized u).symm).trans ht) fun p _ hu hp =>
        handle_low_ne hinv hinit hp (hu ▸ hlow)
  · exact absurd hlow hmoved
  · rw [takeEvent_retry, takeEvent_low] at hcount
    refine ⟨hsome, by omega, fun rest' hq' => ?_⟩
    obtain ⟨rfl, -⟩ := List.cons.inj (hq.symm.trans hq')
    obtain rfl : i = .tick := Except.ok.inj (hd.symm.trans rfl)
    rw [hcount, List.count_singleton_self]

section Gap

variable {σ : Nat → State} {μ : Nat → Move} {n : Nat} (hrun : IsRun σ μ) (hinv : ∀ m, (σ m).Inv)
  (hheld : (σ n).held ≠ []) (hlow : ∀ m, n ≤ m → (σ m).low = (σ n).low)
  (hlife : ∀ m, n ≤ m → (σ m).lifecycle = .stream)

include hrun hinv hlow hlife

/-- One move in a gap that stays. -/
theorem move_in_gap {m : Nat} (hm : n ≤ m) (hsome : (σ m).held ≠ []) :
    (σ (m + 1)).held ≠ [] ∧
      ((σ m).retry.get0 (σ n).low).toNat ≤ ((σ (m + 1)).retry.get0 (σ n).low).toNat := by
  have hsame := hlow (m + 1) (Nat.le_succ_of_le hm)
  rw [← hlow m hm] at hsame ⊢
  by_cases hs : μ m = .step
  · obtain ⟨hsome', hcount, -⟩ :=
      step_in_gap (hinv m) hsome (step_of_run hrun hs) hsame (hlife (m + 1) (Nat.le_succ_of_le hm))
    exact ⟨hsome', hcount⟩
  · have hmoved := hostMoved_of_move hs (hrun m)
    rw [hmoved.held, hmoved.retry]
    exact ⟨hsome, le_rfl⟩

include hheld

theorem held_in_gap {m : Nat} (hm : n ≤ m) : (σ m).held ≠ [] := by
  induction m, hm using Nat.le_induction with
  | base => exact hheld
  | succ m hm ih => exact (move_in_gap hrun hinv hlow hlife hm ih).1

theorem count_mono_in_gap {a b : Nat} (ha : n ≤ a) (hab : a ≤ b) :
    ((σ a).retry.get0 (σ n).low).toNat ≤ ((σ b).retry.get0 (σ n).low).toNat := by
  induction b, hab using Nat.le_induction with
  | base => exact le_rfl
  | succ b hab ih =>
    have hb := held_in_gap hrun hinv hheld hlow hlife (ha.trans hab)
    exact ih.trans (move_in_gap hrun hinv hlow hlife (ha.trans hab) hb).2

/-- The count of a gap that stays grows without bound: TICKs keep coming, and each is performed (R205). -/
theorem count_unbounded_in_gap (hlegal : LegalEvents σ) (htick : TickFair σ μ) (hblock : BlockFair σ μ)
    (hconsumer : ConsumerFair σ μ) (k : Nat) :
    ∃ m, n ≤ m ∧ k ≤ ((σ m).retry.get0 (σ n).low).toNat := by
  induction k with
  | zero => exact ⟨n, le_rfl, Nat.zero_le _⟩
  | succ k ih =>
    obtain ⟨m, hm, hk⟩ := ih
    have hheld' : ∀ x, n ≤ x → (σ x).held ≠ [] := fun x hx => held_in_gap hrun hinv hheld hlow hlife hx
    obtain ⟨a, hma, happend⟩ := htick m fun x hx => hheld' x (hm.trans hx)
    have hqueue : (σ (a + 1)).queue = (σ a).queue ++ [slotTick] := by
      obtain ⟨he, -⟩ | ⟨e, he, -, hnext⟩ | ⟨he, -⟩ | ⟨b, he, -⟩ := move_cases (hrun a)
      case inr.inl =>
        obtain rfl := Move.append.inj (happend.symm.trans he)
        rw [hnext]
      all_goals simp [happend] at he
    obtain ⟨b, hab, hstep, rest, hhead⟩ := exists_step_taking hrun hinv hlegal hblock hconsumer (σ a).queue
      (fun x hx => (lifecycle_eq_stream.mp (hlife x (by omega))).1) hqueue
    have hmono := count_mono_in_gap hrun hinv hheld hlow hlife hm (show m ≤ b by omega)
    have hsame := hlow (b + 1) (by omega)
    rw [← hlow b (by omega)] at hsame hmono hk ⊢
    obtain ⟨-, -, hcount⟩ := step_in_gap (hinv b) (hheld' b (by omega)) (step_of_run hrun hstep) hsame
      (hlife (b + 1) (by omega))
    exact ⟨b + 1, by omega, (Nat.succ_le_succ (hk.trans hmono)).trans (hcount rest hhead)⟩

end Gap

/-- Settles O59: the count of a gap that stayed would pass every number, and it is a 32-bit one. -/
theorem fairTicksEndEveryGap : Obligations.FairTicksEndEveryGap := by
  intro σ μ hrun h0 hlegal htick hblock hconsumer n hheld
  by_contra hstuck
  have hinv := run_inv hrun h0
  have hlow : ∀ m, n ≤ m → (σ m).low = (σ n).low := fun m hm => by
    by_contra hne
    exact hstuck ⟨m, hm, .inl hne⟩
  have hlife : ∀ m, n ≤ m → (σ m).lifecycle = .stream := fun m hm => by
    by_contra hne
    exact hstuck ⟨m, hm, .inr hne⟩
  obtain ⟨m, hm, hk⟩ := count_unbounded_in_gap hrun hinv hheld hlow hlife hlegal htick hblock hconsumer (2 ^ 32)
  exact absurd ((σ m).retry.get0 (σ n).low).isLt (Nat.not_lt.mpr hk)

end Sys2Proof.Proofs
end
